-- ==== Sys2Proof/Word.lean ====
section
/-! DEFINITION. The words of the block: bytes, 16-bit data words, port addresses and request fields (00_scope.md R8, R10). -/

namespace Sys2Proof

/-- One byte: an 8-bit port value or one byte of the transfer buffer (R11, R39). -/
abbrev Byte := BitVec 8

/-- One 16-bit data-port transfer unit, two bytes (R14 "Word"; `DATA_WIDTH` of R8). -/
abbrev DataWord := BitVec 16

/-- An address of the I/O port space, `PORT_AW` = 16 bits wide (R8, R35). -/
abbrev PortAddr := BitVec 16

/-- A port offset from `BASE` (R25). -/
abbrev PortOff := BitVec 3

/-- A starting sector as a request carries it: "stored in a 64-bit integer" (R18, R23). -/
abbrev LbaWord := BitVec 64

/-- A sector count, 16 bits (R8 `COUNT_BITS`). -/
abbrev CountWord := BitVec 16

end Sys2Proof
end

