-- ==== Sys2Proof/Config.lean ====
section
/-! DEFINITION. The parameters of 00_scope.md R8, as plain data that the state carries, and the free values of the model: constants without a body, which no proof can see. -/

namespace Sys2Proof

/-- The parameter `MODE` (R3, R8, D2). -/
inductive Mode where
  /-- The source's minimal design: no timeout, no error check, no retry. -/
  | minimal
  /-- The §7 additions: error check, poll deadline, retries, channel reset request. -/
  | hardened
  deriving DecidableEq, Repr

/-- The parameters of R8 that the source leaves OPEN. The machine carries them in its state and no step writes
them, so a statement about every state is a statement about every choice of the parameters (log 1). -/
structure Config where
  /-- `BASE`, the channel's first port address (D3). -/
  base : PortAddr
  /-- `DH_PATTERN`, the drive/head byte without its drive bit (D5). -/
  dhPattern : Byte
  /-- `DRV_SHIFT`, the drive bit's position (D5). -/
  drvShift : Nat
  /-- `LEGACY28`: whether the 28-bit commands are admitted (D6). -/
  legacy28 : Bool
  /-- `OPC_READ28` (D6). -/
  opcRead28 : Byte
  /-- `OPC_WRITE28` (D6). -/
  opcWrite28 : Byte
  /-- `MODE` (D2). -/
  mode : Mode
  /-- `ERR_BIT`, the status bit that means an error, `HARDENED` only (D15). -/
  errBit : Nat
  /-- `ERRREG_OFF`, the error register's port offset, `HARDENED` only (D15). -/
  errRegOff : PortOff
  /-- `POLL_DEADLINE`, status reads of one attempt, `HARDENED` only (D17). -/
  pollDeadline : Nat
  /-- `RETRIES`, `HARDENED` only (D18). -/
  retries : Nat
  /-- `CAPACITY(0)` in sectors; the sequencer never reads it (R8, D21). -/
  capacity0 : Nat
  /-- `CAPACITY(1)` in sectors. -/
  capacity1 : Nat
  deriving DecidableEq, Repr

namespace Config

/-- `SECTOR_BYTES` (R8). -/
def sectorBytes : Nat := 512

/-- `WORDS_PER_SECTOR` (R8). -/
def wordsPerSector : Nat := 256

/-- `DRQ_BIT`: "bit 3 = DRQ" (R8). -/
def drqBit : Nat := 3

/-- `OPC_READ_EXT` (R8, R64). -/
def opcReadExt : Byte := 0x24#8

/-- `OPC_WRITE_EXT` (R8, R64). -/
def opcWriteExt : Byte := 0x34#8

/-- The parameter ranges of R8, each with the row that states it. -/
structure Legal (c : Config) : Prop where
  /-- "`BASE` must be at most `2^PORT_AW - 8`" (R36). -/
  base : c.base.toNat ≤ 2 ^ 16 - 8
  /-- `DRV_SHIFT` is 4..7. -/
  drvShift : 4 ≤ c.drvShift ∧ c.drvShift ≤ 7
  /-- `DH_PATTERN` has bits [3:0] = 0. -/
  dhLow : c.dhPattern &&& 0x0F#8 = 0#8
  /-- `DH_PATTERN` has bit `DRV_SHIFT` = 0. -/
  dhDrive : c.dhPattern.getLsbD c.drvShift = false
  /-- `OPC_READ28` is "distinct from the other three opcodes". -/
  read28 : c.opcRead28 ≠ opcReadExt ∧ c.opcRead28 ≠ opcWriteExt ∧ c.opcRead28 ≠ c.opcWrite28
  /-- `OPC_WRITE28` is "distinct from the other three opcodes". -/
  write28 : c.opcWrite28 ≠ opcReadExt ∧ c.opcWrite28 ≠ opcWriteExt
  /-- `ERR_BIT` is 0..7, not 3. -/
  errBit : c.errBit ≤ 7 ∧ c.errBit ≠ drqBit
  /-- `ERRREG_OFF` is 0..7, not 0, 2, 3, 4, 5, 6, and "may not be 7": offset 1 is what is left (D15). -/
  errRegOff : c.errRegOff = 1#3
  /-- `POLL_DEADLINE` is at least 1. -/
  pollDeadline : 1 ≤ c.pollDeadline
  /-- `RETRIES` is 1 or 2. -/
  retries : c.retries = 1 ∨ c.retries = 2

/-- The reference configuration `REF` (R8), `MINIMAL` and without the 28-bit commands. The source's `OPEN` values
are PRESUMED (the spec marks them "from general knowledge, not in source"); `pollDeadline`, `retries` and the
capacities have no `REF` value and are a DESIGN CHOICE (log 2). -/
def ref : Config where
  base := 0x1F0#16
  dhPattern := 0x40#8
  drvShift := 4
  legacy28 := false
  opcRead28 := 0x20#8
  opcWrite28 := 0x30#8
  mode := .minimal
  errBit := 0
  errRegOff := 1#3
  pollDeadline := 4
  retries := 1
  capacity0 := 2 ^ 48
  capacity1 := 2 ^ 48

/-- `REF` with every option on, so that every row of spec/opcode_table.json is admitted; the table's own patterns are
the `REF` ones (log 12). -/
def table : Config := { ref with legacy28 := true, mode := .hardened }

/-! Free values. Each is applied to the counter `oracle.draws`, so that every draw is a fresh one (R118, log 5). -/

/-- Free byte: a status byte or an error register byte the device answers with (U17), or a device register after
a reset (U20, U23). -/
opaque freeByte : Nat → Byte

/-- Free word: a data word the device answers with (U17, U18). -/
opaque freeWord : Nat → DataWord

/-- Free answer of the allocator: fail, or the initial contents of the buffer (U7, U22). -/
opaque freeAlloc : Nat → Option (List Byte)

/-- Free choice among waiting requests (U29). -/
opaque freePick : Nat → Nat

/-- Free truth value, for the pending command after a reset (U20, U23). -/
opaque freeBool : Nat → Bool

/-- Free natural: a count or a stream position the spec does not state. -/
opaque freeNat : Nat → Nat

/-- Free 48-bit sector address, where the spec does not state one. -/
opaque freeLba : Nat → BitVec 48

end Config

end Sys2Proof
end

