-- ==== Sys2Proof/Syntax.lean ====
section
/-! DEFINITION. The syntax of the block: one constructor per row of spec/opcode_table.json (30_encoding.md R64, R66), and the request record (R59). -/

namespace Sys2Proof

/-- The transfer direction `DIR` (R18, R65). -/
inductive Dir where
  | rd
  | wr
  deriving DecidableEq, Repr

/-- The operand fields of the request record, format `REQ` (R23, R59): everything but `op`. -/
structure ReqArgs where
  /-- The drive selector: `false` is 0, `true` is 1 (R19). -/
  drive : Bool
  /-- The starting LBA. -/
  lba : LbaWord
  /-- The sector count. -/
  count : CountWord
  /-- The bytes to write. -/
  data : List Byte
  deriving DecidableEq, Repr

/-- The request record, format `REQ` (R59). -/
structure Request where
  /-- The command opcode byte (R64). -/
  op : Byte
  args : ReqArgs
  deriving DecidableEq, Repr

/-- The four commands (R64) and the ten port transactions (R66). -/
inductive Instr where
  /-- `READ_SECTORS_EXT` (R97). -/
  | readSectorsExt (a : ReqArgs)
  /-- `WRITE_SECTORS_EXT` (R102). -/
  | writeSectorsExt (a : ReqArgs)
  /-- `READ_SECTORS_28` (R98). -/
  | readSectors28 (a : ReqArgs)
  /-- `WRITE_SECTORS_28` (R103). -/
  | writeSectors28 (a : ReqArgs)
  /-- `IN16_DATA` (R115). -/
  | in16Data
  /-- `OUT16_DATA` (R116). -/
  | out16Data (w : DataWord)
  /-- `OUT8_SECCNT` (R108). -/
  | out8Seccnt (v : Byte)
  /-- `OUT8_LBA0` (R109). -/
  | out8Lba0 (v : Byte)
  /-- `OUT8_LBA1` (R110). -/
  | out8Lba1 (v : Byte)
  /-- `OUT8_LBA2` (R111). -/
  | out8Lba2 (v : Byte)
  /-- `OUT8_DRVHEAD` (R112). -/
  | out8Drvhead (v : Byte)
  /-- `OUT8_COMMAND` (R113). -/
  | out8Command (v : Byte)
  /-- `IN8_STATUS` (R114). -/
  | in8Status
  /-- `IN8_ERROR` (R117). -/
  | in8Error
  deriving DecidableEq, Repr

end Sys2Proof
end

