-- ==== Sys2Proof/Machine/State.lean ====
section
/-! DEFINITION. The machine's state as plain data: sequencer registers (10_state.md R18), request and response interfaces (R23, R24), the controller register file (R25 to R33), the inputs the device and the platform supply (R118), and the state after reset (R142). -/

namespace Sys2Proof.Machine

/-- The control state `PHASE`, all eight 3-bit codes of R20. -/
inductive Phase where
  | idle
  | preamble
  | cmdIssued
  | ready
  | error
  | timeout
  /-- Code 6, "never entered" (R20, R73). -/
  | reserved6
  /-- Code 7, "never entered" (R20, R73). -/
  | reserved7
  deriving DecidableEq, Repr

/-- The sequencer registers that reset leaves unwritten (R18, R142). -/
inductive SeqReg where
  | pstep | op | dir | drv | lba | cnt | widx | buf | polls | tries | errv
  deriving DecidableEq, Repr

/-- Why the machine stops. No state that meets `Safety.Inv` reaches one of these. -/
inductive Fault where
  /-- `PHASE` holds the reserved code 6 or 7 (R73). Raised by `fetch`. Safe: the spec names this fault. -/
  | badPhase (code : BitVec 3)
  /-- A rule reads a register that no step has written since reset: `Unwritten(reg)` (R13). Raised by the sequencer's
  steps. Safe: the spec names this fault. -/
  | unwritten (r : SeqReg)
  /-- A buffer access outside `0 .. NB(CNT)-1`: `BufferBounds` (R39). Raised by the data steps. Safe: the spec names
  this fault. -/
  | bufferBounds (a : Nat)
  /-- The sequencer is in a state in which R95 enables no step: `PSTEP` above 9, `WIDX` at or past the last word, or
  a `HARDENED` phase in `MINIMAL`. Raised by `fetch`. Safe: no reachable state is one (log 17). -/
  | noEnabledStep (p : Phase)
  deriving DecidableEq, Repr

/-- Why an instruction has no meaning. -/
inductive Refusal where
  /-- The instruction is not modelled. Raised by no arm of this model. Safe. -/
  | notModelled (mnemonic : String)
  deriving DecidableEq, Repr

/-- The outcome of one step. -/
abbrev Out (σ : Type) := Host.Outcome σ Fault Refusal

/-- Bytes by address, in one canonical form (`Memory.wf`): addresses strictly rising, no byte equal to what an unlisted
address reads as. -/
structure Memory where
  cells : List Host.Cell
  deriving DecidableEq, Repr

/-- The transfer buffer `BUF`: `len` bytes, addressed from 0 (R18, R35, R39). -/
structure Buffer where
  len : Nat
  mem : Memory
  deriving DecidableEq, Repr

/-- The sequencer's register set (R18). `none` is the spec's "unwritten: it holds no value" (R13, R142, log 3). -/
structure Seq where
  phase : Phase
  pstep : Option Nat
  op : Option Byte
  dir : Option Dir
  drv : Option Bool
  lba : Option LbaWord
  cnt : Option CountWord
  widx : Option Nat
  buf : Option Buffer
  polls : Option Nat
  tries : Option Nat
  errv : Option Byte
  deriving DecidableEq, Repr

/-- A 2-deep FIFO of one register field (R26). -/
structure Fifo where
  prev : Byte
  cur : Byte
  deriving DecidableEq, Repr

/-- The command a device latches when `COMMAND` is written (R33, R113, R120). -/
structure Pending where
  op : Byte
  drive : Bool
  lba : BitVec 48
  count : Nat
  deriving DecidableEq, Repr

/-- The reference device's disks (R120): byte `j` of sector `s` of drive `d` is the byte at address `512*s + j`. -/
structure Disks where
  disk0 : Memory
  disk1 : Memory
  deriving DecidableEq, Repr

/-- The controller channel (R25 to R33): the register file and the hidden state it latches. `STATUS`, `DATA` reads and
the error register are draws (R118), held in `Oracle`. -/
structure Device where
  seccnt : Fifo
  lba0 : Fifo
  lba1 : Fifo
  lba2 : Fifo
  drvhead : Byte
  command : Byte
  pending : Option Pending
  /-- The position in the transfer stream (R33). -/
  pos : Nat
  /-- `some`: the reference device of R120. `none`: the general device, under no law (R118). -/
  disks : Option Disks
  deriving DecidableEq, Repr

/-- The coming answers of the device and the platform, oldest first. They are inputs: any lists are possible. Past the
end of a list the answer is a free value, an opaque constant of `Config` applied to `draws` (log 5). -/
structure Oracle where
  /-- What `STATUS` shows at coming reads (R30, R114). -/
  status : List Byte
  /-- What `DATA` gives at coming reads (R32, R115). -/
  data : List DataWord
  /-- What the error register shows at coming reads (R31, R117). -/
  error : List Byte
  /-- The allocator's coming answers: fail, or the buffer's initial contents (R40, U7, U22). -/
  alloc : List (Option (List Byte))
  /-- Which of several waiting requests is accepted at coming choices (D13, U29). -/
  pick : List Nat
  /-- How many free values have been drawn. -/
  draws : Nat
  deriving DecidableEq, Repr

/-- One event on the port-bus master interface or the platform interface (R2, R11). -/
inductive BusEvent where
  | portWrite8 (p : PortAddr) (v : Byte)
  | portRead8 (p : PortAddr) (v : Byte)
  | portWrite16 (p : PortAddr) (v : DataWord)
  | portRead16 (p : PortAddr) (v : DataWord)
  /-- `ChannelReset()` (R128): no port transaction. -/
  | channelReset
  deriving DecidableEq, Repr

/-- The result codes of R122. The reserved codes are "never produced". -/
inductive ResultCode where
  | ok
  | eOp
  | eCount
  | eLba
  | eLen
  | eAlloc
  | eTimeout
  | eDevice
  deriving DecidableEq, Repr

/-- One result on the response interface (R24). -/
structure Response where
  code : ResultCode
  info : Byte
  payload : List Byte
  deriving DecidableEq, Repr

/-- The whole machine: one sequencer, its interfaces, its channel and the inputs still to come. -/
structure State where
  /-- The parameters (R8); no step writes them (log 1). -/
  cfg : Config
  /-- The sequencer's registers. -/
  seq : Seq
  /-- Requests waiting on the request interface (R78, log 7). -/
  requests : List Request
  /-- Results the host has not taken, oldest first (R24, log 8). -/
  responses : List Response
  /-- The channel. -/
  dev : Device
  /-- Coming answers of device and platform. -/
  oracle : Oracle
  /-- Events emitted so far, newest first (log 9). -/
  trace : List BusEvent
  deriving DecidableEq, Repr

/-- The sequencer's registers after reset (R142): `PHASE` is `IDLE`, every other register is unwritten. -/
def Seq.reset : Seq where
  phase := .idle
  pstep := none
  op := none
  dir := none
  drv := none
  lba := none
  cnt := none
  widx := none
  buf := none
  polls := none
  tries := none
  errv := none

/-- The channel in `State.reset`. The spec gives its registers no reset value (R143); zero, no pending command and
the general device are a DESIGN CHOICE, unsafe (log 4). -/
def Device.reset : Device where
  seccnt := ⟨0#8, 0#8⟩
  lba0 := ⟨0#8, 0#8⟩
  lba1 := ⟨0#8, 0#8⟩
  lba2 := ⟨0#8, 0#8⟩
  drvhead := 0#8
  command := 0#8
  pending := none
  pos := 0
  disks := none

/-- No answer is fixed in advance: every answer is a free value (log 5). -/
def Oracle.reset : Oracle where
  status := []
  data := []
  error := []
  alloc := []
  pick := []
  draws := 0

/-- The machine right after reset (R142, R144): no request, no result, no port transaction. -/
def State.reset : State where
  cfg := Config.ref
  seq := Seq.reset
  requests := []
  responses := []
  dev := Device.reset
  oracle := Oracle.reset
  trace := []

end Sys2Proof.Machine
end

