-- ==== Sys2Proof/Machine/Flags.lean ====
section
/-! DEFINITION. The condition bits and codes of the block: the status byte's bits (30_encoding.md R62), the `PHASE` codes (R20) and the result codes (R122). The block has no flag register (R30). -/

namespace Sys2Proof.Machine

/-- `DRQ`: bit 3 of the status byte (R30, R62). -/
def drqSet (s : Byte) : Bool := s.getLsbD Config.drqBit

/-- `ERR`: bit `ERR_BIT` of the status byte, read in `HARDENED` only (R30, R62). -/
def errSet (c : Config) (s : Byte) : Bool := s.getLsbD c.errBit

/-- The 3-bit code of a `PHASE` value (R20). -/
def Phase.code : Phase → BitVec 3
  | .idle => 0#3
  | .preamble => 1#3
  | .cmdIssued => 2#3
  | .ready => 3#3
  | .error => 4#3
  | .timeout => 5#3
  | .reserved6 => 6#3
  | .reserved7 => 7#3

/-- The value of the 8-bit `code` field of a response (R122). -/
def ResultCode.toByte : ResultCode → Byte
  | .ok => 0x00#8
  | .eOp => 0x01#8
  | .eCount => 0x02#8
  | .eLba => 0x03#8
  | .eLen => 0x04#8
  | .eAlloc => 0x05#8
  | .eTimeout => 0x06#8
  | .eDevice => 0x07#8

end Sys2Proof.Machine
end

