-- ==== Sys2Proof/Machine/Operands.lean ====
section
/-! DEFINITION. Operand assembly and checks: the direction of an opcode (30_encoding.md R65), the bytes the preamble writes (R61, R67, R68), data words and their lanes (R69, R100, R105), the acceptance checks (R71, R123), and what the device latches (R113). -/

namespace Sys2Proof.Machine

/-- `dir(op)` (R65); `none` where the opcode is not admitted (R70). -/
def dirOf (c : Config) (op : Byte) : Option Dir :=
  if op = Config.opcReadExt ∨ (c.legacy28 = true ∧ op = c.opcRead28) then some .rd
  else if op = Config.opcWriteExt ∨ (c.legacy28 = true ∧ op = c.opcWrite28) then some .wr
  else none

/-- Whether `op` is one of the admitted 28-bit opcodes (R64). -/
def is28 (c : Config) (op : Byte) : Bool :=
  c.legacy28 && (decide (op = c.opcRead28) || decide (op = c.opcWrite28))

/-- Words transferred, `NW(count)` (R9). -/
def nw (count : CountWord) : Nat := count.toNat * Config.wordsPerSector

/-- Bytes transferred, `NB(count)` (R9). -/
def nb (count : CountWord) : Nat := count.toNat * Config.sectorBytes

/-- The acceptance checks 1 to 4 in the order of R123: the first failing check's code, or `ok`. The conditions are those
of R71. -/
def check (c : Config) (op : Byte) (a : ReqArgs) : ResultCode :=
  match dirOf c op with
  | none => .eOp
  | some d =>
    if a.count = 0#16 ∨ (is28 c op = true ∧ 256 < a.count.toNat) then .eCount
    else if 2 ^ 48 ≤ a.lba.toNat ∨ (is28 c op = true ∧ 2 ^ 24 ≤ a.lba.toNat) then .eLba
    else if (d = .wr ∧ a.data.length ≠ nb a.count) ∨ (d = .rd ∧ a.data ≠ []) then .eLen
    else .ok

/-- Byte `k` of a field is bits `[8k+7 : 8k]` (R42). -/
def byteOf {n : Nat} (k : Nat) (v : BitVec n) : Byte := v.extractLsb' (8 * k) 8

/-- `SC_HI := CNT[15:8]`, written first (R67). -/
def countHi (count : CountWord) : Byte := byteOf 1 count

/-- `SC_LO := CNT[7:0]`, written second (R67). -/
def countLo (count : CountWord) : Byte := byteOf 0 count

/-- `HIk := LBA[31+8k : 24+8k]`, the high triplet (R68). -/
def lbaHi (k : Nat) (lba : LbaWord) : Byte := byteOf (3 + k) lba

/-- `LOk := LBA[7+8k : 8k]`, the low triplet (R68). -/
def lbaLo (k : Nat) (lba : LbaWord) : Byte := byteOf k lba

/-- `DH := DH_PATTERN | (zext_8(DRV) << DRV_SHIFT)` (R61). -/
def driveHead (c : Config) (drv : Bool) : Byte :=
  c.dhPattern ||| ((BitVec.ofBool drv).setWidth 8 <<< c.drvShift)

/-- `hi_byte ++ lo_byte`: a data word from its two lanes (R10, R69). -/
def joinLanes (hi lo : Byte) : DataWord := hi ++ lo

/-- Lane 0, `w[7:0]`: the even buffer byte (R44, R100). -/
def lane0 (w : DataWord) : Byte := byteOf 0 w

/-- Lane 1, `w[15:8]`: the odd buffer byte (R44, R100). -/
def lane1 (w : DataWord) : Byte := byteOf 1 w

/-- The port address `BASE + off` (R35, R36). -/
def portAddr (c : Config) (off : PortOff) : PortAddr := c.base + off.setWidth 16

/-- `CAPACITY(drive)` (R8). -/
def capacity (c : Config) (drive : Bool) : Nat := if drive then c.capacity1 else c.capacity0

/-- A byte shifts into a 2-deep FIFO (R26). -/
def Fifo.shift (f : Fifo) (v : Byte) : Fifo := ⟨f.cur, v⟩

/-- The 48-bit count: `SECCNT.prev ++ SECCNT.cur` (R27, R113). -/
def latchedCount48 (d : Device) : Nat := (d.seccnt.prev ++ d.seccnt.cur).toNat

/-- The 48-bit LBA: high triplet from the `prev` entries, low triplet from the `cur` entries (R27, R113). -/
def latchedLba48 (d : Device) : BitVec 48 :=
  d.lba2.prev ++ (d.lba1.prev ++ (d.lba0.prev ++ (d.lba2.cur ++ (d.lba1.cur ++ d.lba0.cur))))

/-- The 28-bit count: `SECCNT.cur`, 0 meaning 256 (R72, R113). -/
def latchedCount28 (d : Device) : Nat := if d.seccnt.cur = 0#8 then 256 else d.seccnt.cur.toNat

/-- The 28-bit LBA: `DRVHEAD[3:0]` above the three `cur` entries (R113, D37). -/
def latchedLba28 (d : Device) : BitVec 48 :=
  (d.drvhead.extractLsb' 0 4 ++ (d.lba2.cur ++ (d.lba1.cur ++ d.lba0.cur))).setWidth 48

/-- The selected drive: `DRVHEAD[DRV_SHIFT]` (R112, R113). -/
def selectedDrive (c : Config) (d : Device) : Bool := d.drvhead.getLsbD c.drvShift

/-- What the device latches when `op` is written to `COMMAND` (R113). For a byte that R113 does not name the LBA and the
count are free values `n` of `Config` (log 14). -/
def latchedPending (c : Config) (n : Nat) (d : Device) (op : Byte) : Pending :=
  if op = Config.opcReadExt ∨ op = Config.opcWriteExt then
    ⟨op, selectedDrive c d, latchedLba48 d, latchedCount48 d⟩
  else if is28 c op = true then
    ⟨op, selectedDrive c d, latchedLba28 d, latchedCount28 d⟩
  else
    ⟨op, selectedDrive c d, Config.freeLba n, Config.freeNat n⟩

/-- Whether the reference device is defined for a latched command: a command it knows, not the 48-bit count 0 that C3
leaves unspecified, and inside the drive (R121, D21). -/
def referenceCovers (c : Config) (p : Pending) : Bool :=
  (dirOf c p.op).isSome && decide (p.count ≠ 0)
    && decide (p.lba.toNat + p.count ≤ capacity c p.drive)

end Sys2Proof.Machine
end

