-- ==== Sys2Proof/Machine/Memory.lean ====
section
/-! DEFINITION. Byte memory in canonical form, the transfer buffer over it (20_memory.md R38, R39) and the reference device's disks (43_device_ports.md R120, R121). -/

namespace Sys2Proof.Machine

/-- What an address reads as when no cell lists it: 0 (log 6). -/
def Memory.unlisted : Byte := 0#8

/-- The byte at address `a` among cells. -/
def readCells : List Host.Cell → Nat → Byte
  | [], _ => Memory.unlisted
  | (b, w) :: t, a => if b = a then w else readCells t a

/-- Put a byte at an address, keeping addresses rising and leaving out bytes equal to `Memory.unlisted`. -/
def writeCells : List Host.Cell → Nat → Byte → List Host.Cell
  | [], a, v => if v = Memory.unlisted then [] else [(a, v)]
  | (b, w) :: t, a, v =>
    if a < b then
      if v = Memory.unlisted then (b, w) :: t else (a, v) :: (b, w) :: t
    else if a = b then
      if v = Memory.unlisted then t else (a, v) :: t
    else (b, w) :: writeCells t a v

/-- The cells of a byte sequence that starts at address `i`. -/
def cellsOf : Nat → List Byte → List Host.Cell
  | _, [] => []
  | i, v :: t => if v = Memory.unlisted then cellsOf (i + 1) t else (i, v) :: cellsOf (i + 1) t

/-- The canonical form: addresses strictly rising, no listed byte equal to what an unlisted address reads as. -/
abbrev Memory.wf (m : Memory) : Prop :=
  m.cells.Pairwise (fun x y => x.1 < y.1) ∧ ∀ x ∈ m.cells, x.2 ≠ Memory.unlisted

/-- The memory that lists nothing. -/
def Memory.empty : Memory := ⟨[]⟩

/-- Read one byte. -/
def Memory.read (m : Memory) (a : Nat) : Byte := readCells m.cells a

/-- Write one byte. -/
def Memory.write (m : Memory) (a : Nat) (v : Byte) : Memory := ⟨writeCells m.cells a v⟩

/-- A buffer of `n` bytes that holds `bs` from address 0 (R38); bytes past the end of `bs` read as 0 (log 6). -/
def Buffer.ofBytes (n : Nat) (bs : List Byte) : Buffer := ⟨n, ⟨cellsOf 0 (bs.take n)⟩⟩

/-- `MemRead(a, 1)` (R39); `none` outside the buffer. -/
def Buffer.read (b : Buffer) (a : Nat) : Option Byte := if a < b.len then some (b.mem.read a) else none

/-- `MemWrite(a, 1, v)` (R39); `none` outside the buffer. -/
def Buffer.write (b : Buffer) (a : Nat) (v : Byte) : Option Buffer :=
  if a < b.len then some ⟨b.len, b.mem.write a v⟩ else none

/-- The buffer's bytes in address order: the payload of a read response (R38, R99). -/
def Buffer.bytes (b : Buffer) : List Byte := (List.range b.len).map b.mem.read

/-- The buffer's canonical form: its memory's, and no cell outside the buffer. -/
abbrev Buffer.wf (b : Buffer) : Prop := b.mem.wf ∧ ∀ x ∈ b.mem.cells, x.1 < b.len

/-- The disk of one drive (R120). -/
def Disks.disk (ds : Disks) (drive : Bool) : Memory := if drive then ds.disk1 else ds.disk0

/-- Replace the disk of one drive. -/
def Disks.setDisk (ds : Disks) (drive : Bool) (m : Memory) : Disks :=
  if drive then ⟨ds.disk0, m⟩ else ⟨m, ds.disk1⟩

/-- The disk address of byte 0 of word `k` of a transfer that starts at sector `lba`: byte `2j` of sector
`lba + floor(k/256)`, with `j = k mod 256` (R119, R121). -/
def diskAddr (lba k : Nat) : Nat :=
  Config.sectorBytes * (lba + k / Config.wordsPerSector) + 2 * (k % Config.wordsPerSector)

/-- Word `k` of a transfer's stream on a reference disk (R119, R121). -/
def Disks.word (ds : Disks) (p : Pending) (k : Nat) : DataWord :=
  joinLanes ((ds.disk p.drive).read (diskAddr p.lba.toNat k + 1)) ((ds.disk p.drive).read (diskAddr p.lba.toNat k))

/-- Store word `k` of a write stream (R121). -/
def Disks.putWord (ds : Disks) (p : Pending) (k : Nat) (w : DataWord) : Disks :=
  ds.setDisk p.drive
    (((ds.disk p.drive).write (diskAddr p.lba.toNat k) (lane0 w)).write (diskAddr p.lba.toNat k + 1) (lane1 w))

/-- The canonical form of both disks. -/
abbrev Disks.wf (ds : Disks) : Prop := ds.disk0.wf ∧ ds.disk1.wf

end Sys2Proof.Machine
end

