-- ==== Sys2Proof/Machine/Ops.lean ====
section
/-! DEFINITION. Named operations over the state: register reads (00_scope.md R13), draws (R118), the device's side of a port transaction, `ChannelReset()` (R128), responses, `raise` and the retry (60_exceptions.md R126, R127, R131), and the host's moves (R155). -/

namespace Sys2Proof.Machine

/-! Register reads. -/

/-- Read a sequencer register: its value goes to `k`, and an unwritten register stops the step: "A rule that would read one
faults with `Unwritten(reg)` rather than read a value" (R13; D23, U11). -/
def readReg {α β : Type} (stop : Fault → β) (r : SeqReg) (v : Option α) (k : α → β) : β :=
  match v with
  | some a => k a
  | none => stop (.unwritten r)

/-! Updates of one part of the state. -/

/-- Replace the sequencer's registers. -/
def State.withSeq (s : State) (q : Seq) : State := { s with seq := q }

/-- Replace the channel. -/
def State.withDev (s : State) (d : Device) : State := { s with dev := d }

/-- Replace the coming answers. -/
def State.withOracle (s : State) (o : Oracle) : State := { s with oracle := o }

/-- Replace the waiting requests. -/
def State.withRequests (s : State) (rs : List Request) : State := { s with requests := rs }

/-- Emit an event (R11, R52). -/
def State.emit (s : State) (e : BusEvent) : State := { s with trace := e :: s.trace }

/-- `phase <- p` (R22). -/
def State.setPhase (s : State) (p : Phase) : State := s.withSeq { s.seq with phase := p }

/-- `respond(code, info, payload)`: put one result on the response interface (R11, R24). -/
def State.respond (s : State) (code : ResultCode) (info : Byte) (payload : List Byte) : State :=
  { s with responses := s.responses ++ [⟨code, info, payload⟩] }

/-- The end of a request: one response, and `PHASE` becomes `IDLE` (R99, R104, R131). -/
def endRequest (s : State) (code : ResultCode) (info : Byte) (payload : List Byte) : State :=
  (s.respond code info payload).setPhase .idle

/-- Taking an exception, `raise E(info)`: "Ends the request with error code E and the info value" (R11). No state is
saved and no vector is taken; the response carries code and info, its payload is empty (R130), and `PHASE` becomes
`IDLE` (R131). There is no return from an exception (R132). -/
def raise (s : State) (code : ResultCode) (info : Byte) : State := endRequest s code info []

/-- A retry re-runs the full register sequence with the latched request (R126, R127, R129). -/
def retry (s : State) (tries : Nat) : State :=
  s.withSeq { s.seq with tries := some (tries - 1), pstep := some 0, widx := some 0, phase := .preamble }

/-- What an `ERROR` or `TIMEOUT` step does last: retry while `TRIES > 0`, else raise (R126, R127). -/
def retryOrRaise (s : State) (tries : Nat) (code : ResultCode) (info : Byte) : State :=
  if 0 < tries then retry s tries else raise s code info

/-! Draws: the listed answer while there is one, else a fresh free value (R118, log 5). -/

/-- The general device's answer to a status read (R114). -/
def Oracle.drawStatus (o : Oracle) : Byte × Oracle :=
  match o.status with
  | v :: t => (v, { o with status := t })
  | [] => (Config.freeByte o.draws, { o with draws := o.draws + 1 })

/-- The general device's answer to a data read (R115). -/
def Oracle.drawData (o : Oracle) : DataWord × Oracle :=
  match o.data with
  | v :: t => (v, { o with data := t })
  | [] => (Config.freeWord o.draws, { o with draws := o.draws + 1 })

/-- The device's answer to an error register read (R117). -/
def Oracle.drawError (o : Oracle) : Byte × Oracle :=
  match o.error with
  | v :: t => (v, { o with error := t })
  | [] => (Config.freeByte o.draws, { o with draws := o.draws + 1 })

/-- The allocator's answer to `Alloc(n)`: fail, or the buffer's initial contents (R40). -/
def Oracle.drawAlloc (o : Oracle) : Option (List Byte) × Oracle :=
  match o.alloc with
  | v :: t => (v, { o with alloc := t })
  | [] => (Config.freeAlloc o.draws, { o with draws := o.draws + 1 })

/-- The choice among several waiting requests (U29). -/
def Oracle.drawPick (o : Oracle) : Nat × Oracle :=
  match o.pick with
  | v :: t => (v, { o with pick := t })
  | [] => (Config.freePick o.draws, { o with draws := o.draws + 1 })

/-! The device's side of a port transaction (43_device_ports.md). -/

/-- The reference device's status: `0x08` while a command is pending and words are left, else `0x00` (R121). -/
def referenceStatus (d : Device) : Byte :=
  match d.pending with
  | some p => if d.pos < p.count * Config.wordsPerSector then 0x08#8 else 0x00#8
  | none => 0x00#8

/-- The byte a status read returns, and the answers left. An answer listed in the oracle comes first ("unless a test
says so", R121), then the reference device's, then the general device's draw (R114, R118). -/
def statusAnswer (s : State) : Byte × Oracle :=
  match s.oracle.status, s.dev.disks with
  | [], some _ => (referenceStatus s.dev, s.oracle)
  | _, _ => s.oracle.drawStatus

/-- The reference device's transfer in direction `dir` that still has words left: its disks and its command. -/
def referenceStream (c : Config) (dir : Dir) (d : Device) : Option (Disks × Pending) :=
  match d.disks, d.pending with
  | some ds, some p =>
    if dirOf c p.op = some dir ∧ d.pos < p.count * Config.wordsPerSector then some (ds, p) else none
  | _, _ => none

/-- The word a data read returns, and the answers left: the reference device's next word while a read is pending
(R121), else a draw (R115, R118). -/
def dataAnswer (s : State) : DataWord × Oracle :=
  match referenceStream s.cfg .rd s.dev with
  | some (ds, p) => (ds.word p s.dev.pos, s.oracle)
  | none => s.oracle.drawData

/-- The byte an error register read returns, and the answers left (R117). -/
def errorAnswer (s : State) : Byte × Oracle := s.oracle.drawError

/-- The stream position moves by one word (R115, R116); the reference device drops its command at the last word
(R121). -/
def Device.nextWord (d : Device) : Device :=
  match d.disks, d.pending with
  | some _, some p =>
    if d.pos + 1 = p.count * Config.wordsPerSector then { d with pos := d.pos + 1, pending := none }
    else { d with pos := d.pos + 1 }
  | _, _ => { d with pos := d.pos + 1 }

/-- The device takes a data word (R116). The reference device stores it while a write is pending (R121); with no write
pending its behaviour is not stated, and it becomes the general device (log 15). -/
def Device.takeWord (c : Config) (d : Device) (w : DataWord) : Device :=
  match referenceStream c .wr d with
  | some (ds, p) => { d with disks := some (ds.putWord p d.pos w) }.nextWord
  | none => { d with disks := none }.nextWord

/-- Whether R113 says what a command byte latches: the two 48-bit opcodes and the admitted 28-bit ones. -/
def latchStated (c : Config) (op : Byte) : Bool := (dirOf c op).isSome

/-- The device takes a command byte: it latches the command and the stream starts at 0 (R113). A reference device that
the command takes outside its contract becomes the general device (R121, log 15). -/
def Device.takeCommand (c : Config) (n : Nat) (d : Device) (op : Byte) : Device :=
  let p := latchedPending c n d op
  { d with
    command := op
    pending := some p
    pos := 0
    disks := if referenceCovers c p then d.disks else none }

/-- Every device register and the pending command take free values (R128, R143, U20, U23). -/
def Device.scramble (d : Device) (n : Nat) : Device where
  seccnt := ⟨Config.freeByte n, Config.freeByte (n + 1)⟩
  lba0 := ⟨Config.freeByte (n + 2), Config.freeByte (n + 3)⟩
  lba1 := ⟨Config.freeByte (n + 4), Config.freeByte (n + 5)⟩
  lba2 := ⟨Config.freeByte (n + 6), Config.freeByte (n + 7)⟩
  drvhead := Config.freeByte (n + 8)
  command := Config.freeByte (n + 9)
  pending :=
    if Config.freeBool n then
      some ⟨Config.freeByte (n + 10), Config.freeBool (n + 1), Config.freeLba n, Config.freeNat n⟩
    else none
  pos := Config.freeNat (n + 1)
  disks := d.disks

/-- How many counter values `Device.scramble` and `Device.takeCommand` may use. -/
def freshStride : Nat := 16

/-- Use up counter values, so that later free values are fresh. -/
def Oracle.skip (o : Oracle) : Oracle := { o with draws := o.draws + freshStride }

/-- `ChannelReset()`: an event on the platform interface, no port transaction; afterwards every device register and the
pending command are unspecified (R128, log 16). -/
def channelReset (s : State) : State :=
  ((s.withDev (s.dev.scramble s.oracle.draws)).withOracle s.oracle.skip).emit .channelReset

/-! Port transactions as the master issues them: one event of the stated width at `BASE + off` (R11, R63). -/

/-- `PortWrite8(BASE+off, v)`, where the device becomes `d`. -/
def portWrite8 (s : State) (off : PortOff) (v : Byte) (d : Device) : State :=
  (s.withDev d).emit (.portWrite8 (portAddr s.cfg off) v)

/-- `PortRead8(BASE+off)` answered by `ans`. -/
def portRead8 (s : State) (off : PortOff) (ans : Byte × Oracle) : State :=
  (s.withOracle ans.2).emit (.portRead8 (portAddr s.cfg off) ans.1)

/-! The host's moves (R155). -/

/-- The host offers a request; it waits on the request interface (R23, R78). -/
def State.offer (s : State) (r : Request) : State := s.withRequests (s.requests ++ [r])

/-- The host takes the oldest result. -/
def State.takeResponse (s : State) : Option Response × State :=
  match s.responses with
  | [] => (none, s)
  | r :: t => (some r, { s with responses := t })

/-- Reset (R142, R143): the sequencer's registers as `Seq.reset`, no result held, no port transaction, the request in
progress abandoned without a response; the device's registers take free values, and a reference device's disks stay (log 19). -/
def State.hostReset (s : State) : State :=
  { s with
    seq := Seq.reset
    responses := []
    dev := s.dev.scramble s.oracle.draws
    oracle := s.oracle.skip }

end Sys2Proof.Machine
end

