-- ==== Sys2Proof/Machine/Commands.lean ====
section
/-! DEFINITION. The meanings of the four commands: acceptance (40_protocol.md R77) of a request for that command. The register writes, the poll and the data words are later steps (Sequencer.lean; R95, D12, log 11). -/

namespace Sys2Proof.Machine

/-- The registers that acceptance writes from the request itself, before the buffer (R77). -/
def Seq.latchRequest (q : Seq) (op : Byte) (d : Dir) (a : ReqArgs) : Seq :=
  { q with
    op := some op
    dir := some d
    drv := some a.drive
    lba := some a.lba
    cnt := some a.count }

/-- Every register that acceptance writes (R77): the request and its buffer are latched, the position is the start of the
preamble, and in `HARDENED` the retries are loaded. -/
def Seq.latch (q : Seq) (c : Config) (op : Byte) (d : Dir) (a : ReqArgs) (b : Buffer) : Seq :=
  { q.latchRequest op d a with
    buf := some b
    pstep := some 0
    widx := some 0
    tries := if c.mode = .hardened then some c.retries else q.tries
    phase := .preamble }

/-- A checked request is latched: a write's data is copied into `BUF` (R38), a read asks the allocator, and `fail` ends
the request with `E_ALLOC`, after the request's own registers are written (R40, R77, log 26). -/
def startRequest (op : Byte) (d : Dir) (a : ReqArgs) (s : State) : State :=
  match d with
  | .wr => s.withSeq (s.seq.latch s.cfg op .wr a (Buffer.ofBytes (nb a.count) a.data))
  | .rd =>
    match s.oracle.drawAlloc with
    | (some init, o) =>
      (s.withOracle o).withSeq (s.seq.latch s.cfg op .rd a (Buffer.ofBytes (nb a.count) init))
    | (none, o) => raise ((s.withOracle o).withSeq (s.seq.latchRequest op .rd a)) .eAlloc 0#8

/-- `ACCEPT` (R77). While another request is in progress the request waits on the request interface, neither accepted nor
rejected (R78). A request that fails a check is answered at once, before any hardware is touched (R124). -/
def accept (op : Byte) (a : ReqArgs) (s : State) : Out State :=
  if s.seq.phase = .idle then
    match check s.cfg op a, dirOf s.cfg op with
    | .ok, some d => .next (startRequest op d a s)
    | code, _ => .next (raise s code 0#8)
  else .next (s.offer ⟨op, a⟩)

/-- `READ_SECTORS_EXT` (R97). -/
def execReadSectorsExt (a : ReqArgs) (s : State) : Out State := accept Config.opcReadExt a s

/-- `WRITE_SECTORS_EXT` (R102). -/
def execWriteSectorsExt (a : ReqArgs) (s : State) : Out State := accept Config.opcWriteExt a s

/-- `READ_SECTORS_28` (R98): `E_OP` when `LEGACY28` is false, by the first check. -/
def execReadSectors28 (a : ReqArgs) (s : State) : Out State := accept s.cfg.opcRead28 a s

/-- `WRITE_SECTORS_28` (R103): `E_OP` when `LEGACY28` is false, by the first check. -/
def execWriteSectors28 (a : ReqArgs) (s : State) : Out State := accept s.cfg.opcWrite28 a s

end Sys2Proof.Machine
end

