-- ==== Sys2Proof/Machine/Ports.lean ====
section
/-! DEFINITION. The meanings of the ten port transactions (43_device_ports.md R108 to R117): the effect on the bus and on the device, which "does not depend on the step" that issues them (R66). What the sequencer does with the value a read returns is in Sequencer.lean (log 10). -/

namespace Sys2Proof.Machine

/-- `OUT8_SECCNT` (R108): the `SECCNT` FIFO shifts. -/
def execOut8Seccnt (v : Byte) (s : State) : Out State :=
  .next (portWrite8 s 2#3 v { s.dev with seccnt := s.dev.seccnt.shift v })

/-- `OUT8_LBA0` (R109): the `LBA0` FIFO shifts. -/
def execOut8Lba0 (v : Byte) (s : State) : Out State :=
  .next (portWrite8 s 3#3 v { s.dev with lba0 := s.dev.lba0.shift v })

/-- `OUT8_LBA1` (R110): the `LBA1` FIFO shifts. -/
def execOut8Lba1 (v : Byte) (s : State) : Out State :=
  .next (portWrite8 s 4#3 v { s.dev with lba1 := s.dev.lba1.shift v })

/-- `OUT8_LBA2` (R111): the `LBA2` FIFO shifts. -/
def execOut8Lba2 (v : Byte) (s : State) : Out State :=
  .next (portWrite8 s 5#3 v { s.dev with lba2 := s.dev.lba2.shift v })

/-- `OUT8_DRVHEAD` (R112): `DRVHEAD <- v`. -/
def execOut8Drvhead (v : Byte) (s : State) : Out State :=
  .next (portWrite8 s 6#3 v { s.dev with drvhead := v })

/-- `OUT8_COMMAND` (R113): the device latches the command and its stream starts at 0. -/
def execOut8Command (v : Byte) (s : State) : Out State :=
  .next ((portWrite8 s 7#3 v (s.dev.takeCommand s.cfg s.oracle.draws v)).withOracle
    (if latchStated s.cfg v then s.oracle else s.oracle.skip))

/-- `IN8_STATUS` (R114): the device answers; no device register changes. -/
def execIn8Status (s : State) : Out State :=
  .next (portRead8 s 7#3 (statusAnswer s))

/-- `IN16_DATA` (R115): the device answers with a word and its stream position moves by one. -/
def execIn16Data (s : State) : Out State :=
  .next (((s.withDev s.dev.nextWord).withOracle (dataAnswer s).2).emit
    (.portRead16 (portAddr s.cfg 0#3) (dataAnswer s).1))

/-- `OUT16_DATA` (R116): the device takes the word and its stream position moves by one. -/
def execOut16Data (w : DataWord) (s : State) : Out State :=
  .next ((s.withDev (s.dev.takeWord s.cfg w)).emit (.portWrite16 (portAddr s.cfg 0#3) w))

/-- `IN8_ERROR` (R117): the device answers; no device register changes. -/
def execIn8Error (s : State) : Out State :=
  .next (portRead8 s s.cfg.errRegOff (errorAnswer s))

end Sys2Proof.Machine
end

