-- ==== Sys2Proof/Machine/Dispatch.lean ====
section
/-! DEFINITION. One arm per constructor of `Instr`: each calls its instruction's meaning. -/

namespace Sys2Proof.Machine

def exec (i : Instr) (s : State) : Host.Outcome State Fault Refusal :=
  match i with
  | .readSectorsExt a => Sys2Proof.Machine.execReadSectorsExt a s
  | .writeSectorsExt a => Sys2Proof.Machine.execWriteSectorsExt a s
  | .readSectors28 a => Sys2Proof.Machine.execReadSectors28 a s
  | .writeSectors28 a => Sys2Proof.Machine.execWriteSectors28 a s
  | .in16Data => Sys2Proof.Machine.execIn16Data s
  | .out16Data w => Sys2Proof.Machine.execOut16Data w s
  | .out8Seccnt v => Sys2Proof.Machine.execOut8Seccnt v s
  | .out8Lba0 v => Sys2Proof.Machine.execOut8Lba0 v s
  | .out8Lba1 v => Sys2Proof.Machine.execOut8Lba1 v s
  | .out8Lba2 v => Sys2Proof.Machine.execOut8Lba2 v s
  | .out8Drvhead v => Sys2Proof.Machine.execOut8Drvhead v s
  | .out8Command v => Sys2Proof.Machine.execOut8Command v s
  | .in8Status => Sys2Proof.Machine.execIn8Status s
  | .in8Error => Sys2Proof.Machine.execIn8Error s

end Sys2Proof.Machine
end

