-- ==== Sys2Proof/WellFormed.lean ====
section
/-! DEFINITION. Well-formed instructions: the caller contract of a command (30_encoding.md R71) and the values the block admits on a port (R61, R64, R66). -/

namespace Sys2Proof

namespace WellFormed

/-- `count` is at least 1 and, for a 28-bit command, at most 256 (R71). -/
def countOk (is28 : Bool) (a : ReqArgs) : Bool :=
  decide (1 ≤ a.count.toNat) && (!is28 || decide (a.count.toNat ≤ 256))

/-- `lba` is below 2^48 and, for a 28-bit command, below 2^24 (R71). -/
def lbaOk (is28 : Bool) (a : ReqArgs) : Bool :=
  decide (a.lba.toNat < 2 ^ 48) && (!is28 || decide (a.lba.toNat < 2 ^ 24))

/-- A write carries exactly `count * 512` bytes and a read carries none (R71). -/
def dataOk (d : Dir) (a : ReqArgs) : Bool :=
  match d with
  | .wr => a.data.length == a.count.toNat * Config.sectorBytes
  | .rd => a.data.isEmpty

/-- The caller contract of one command (R71). -/
def commandOk (d : Dir) (is28 : Bool) (a : ReqArgs) : Bool :=
  countOk is28 a && lbaOk is28 a && dataOk d a

/-- `v` is one of the two drive/head bytes of format `DH8` (R61). -/
def driveHeadOk (c : Config) (v : Byte) : Bool :=
  v == c.dhPattern || v == c.dhPattern ||| (1#8 <<< c.drvShift)

/-- `v` is an admitted opcode (R64, R89). -/
def opcodeOk (c : Config) (v : Byte) : Bool :=
  v == Config.opcReadExt || v == Config.opcWriteExt
    || (c.legacy28 && (v == c.opcRead28 || v == c.opcWrite28))

end WellFormed

/-- Whether the contract admits the instruction in the configuration `c`. A request that is not well formed still has
a meaning: it is rejected with a result code (R123). -/
def Instr.wellFormed (c : Config) : Instr → Bool
  | .readSectorsExt a => WellFormed.commandOk .rd false a
  | .writeSectorsExt a => WellFormed.commandOk .wr false a
  | .readSectors28 a => c.legacy28 && WellFormed.commandOk .rd true a
  | .writeSectors28 a => c.legacy28 && WellFormed.commandOk .wr true a
  | .in16Data => true
  | .out16Data _ => true
  | .out8Seccnt _ => true
  | .out8Lba0 _ => true
  | .out8Lba1 _ => true
  | .out8Lba2 _ => true
  | .out8Drvhead v => WellFormed.driveHeadOk c v
  | .out8Command v => WellFormed.opcodeOk c v
  | .in8Status => true
  | .in8Error => c.mode == .hardened

end Sys2Proof
end

