-- ==== Sys2Proof/Decode.lean ====
section
/-! DEFINITION. Decoding and encoding: format `REQ`/`CMD8` for commands (30_encoding.md R59, R60, R64) and format `PIO` for port transactions (R63, R66). -/

namespace Sys2Proof

/-- The two encoded objects of the opcode table. The spec gives an instruction no bit string: a request is "a record
of named fields, not a bit string" (R59), and a transaction is a 5-bit key whose value "travels beside the key" (R63).
On a read key the value is what the device answers, so the issuing side drives 0 (log 12). -/
inductive Encoded where
  /-- A request record on the request interface. -/
  | req (r : Request)
  /-- A transaction key `d w ooo` and the value beside it. -/
  | pio (key : BitVec 5) (value : DataWord)
  deriving DecidableEq, Repr

/-- Why an encoded object is no instruction. -/
inductive DecodeError where
  /-- The byte is not an admitted opcode (R70). -/
  | illegalOp (op : Byte)
  /-- The key is outside the table of R66 (R74). -/
  | keyNotIssued (key : BitVec 5)
  /-- An 8-bit write carries a value of more than 8 bits (R63). -/
  | valueTooWide (value : DataWord)
  /-- A read key with a value driven by the issuer (log 12). -/
  | valueOnRead (value : DataWord)
  deriving DecidableEq, Repr

/-- The outcome of decoding. -/
inductive Decoded where
  | instr (i : Instr)
  | rejected (e : DecodeError)
  deriving DecidableEq, Repr

/-- The instruction, when there is one. -/
def Decoded.toOption : Decoded → Option Instr
  | .instr i => some i
  | .rejected _ => none

/-- The direction bit of a key: bit 4, 1 = write (R63). -/
def keyIsWrite (key : BitVec 5) : Bool := key.getLsbD 4

/-- The width bit of a key: bit 3, 1 = 16-bit (R63). -/
def keyIs16 (key : BitVec 5) : Bool := key.getLsbD 3

/-- The port offset of a key: bits 2:0 (R63). -/
def keyOff (key : BitVec 5) : PortOff := key.extractLsb' 0 3

/-- A key from its fields (R63). -/
def mkKey (write wide : Bool) (off : PortOff) : BitVec 5 :=
  BitVec.ofBool write ++ (BitVec.ofBool wide ++ off)

/-- Opcode map (R64): the command an opcode byte names; the 28-bit ones only when `LEGACY28` (R70). -/
def decodeRequest (c : Config) (r : Request) : Decoded :=
  if r.op = Config.opcReadExt then .instr (.readSectorsExt r.args)
  else if r.op = Config.opcWriteExt then .instr (.writeSectorsExt r.args)
  else if c.legacy28 = true ∧ r.op = c.opcRead28 then .instr (.readSectors28 r.args)
  else if c.legacy28 = true ∧ r.op = c.opcWrite28 then .instr (.writeSectors28 r.args)
  else .rejected (.illegalOp r.op)

/-- A read transaction: no value is driven. -/
def decodeIn (i : Instr) (value : DataWord) : Decoded :=
  if value = 0#16 then .instr i else .rejected (.valueOnRead value)

/-- An 8-bit write: the value has 8 bits (R63). -/
def decodeOut8 (f : Byte → Instr) (value : DataWord) : Decoded :=
  if value.toNat < 256 then .instr (f (value.setWidth 8)) else .rejected (.valueTooWide value)

/-- The key table (R66). -/
def decodePio (c : Config) (key : BitVec 5) (value : DataWord) : Decoded :=
  match keyIsWrite key, keyIs16 key, (keyOff key).toNat with
  | false, true, 0 => decodeIn .in16Data value
  | true, true, 0 => .instr (.out16Data value)
  | true, false, 2 => decodeOut8 .out8Seccnt value
  | true, false, 3 => decodeOut8 .out8Lba0 value
  | true, false, 4 => decodeOut8 .out8Lba1 value
  | true, false, 5 => decodeOut8 .out8Lba2 value
  | true, false, 6 => decodeOut8 .out8Drvhead value
  | true, false, 7 => decodeOut8 .out8Command value
  | false, false, 7 => decodeIn .in8Status value
  | false, false, _ =>
    if c.mode = .hardened ∧ keyOff key = c.errRegOff then decodeIn .in8Error value
    else .rejected (.keyNotIssued key)
  | _, _, _ => .rejected (.keyNotIssued key)

/-- Decode an encoded object in the configuration `c`: total, and every reserved form is rejected by name. -/
def decode (c : Config) : Encoded → Decoded
  | .req r => decodeRequest c r
  | .pio key value => decodePio c key value

/-- The encoded object of an instruction (R64, R66). -/
def encode (c : Config) : Instr → Encoded
  | .readSectorsExt a => .req ⟨Config.opcReadExt, a⟩
  | .writeSectorsExt a => .req ⟨Config.opcWriteExt, a⟩
  | .readSectors28 a => .req ⟨c.opcRead28, a⟩
  | .writeSectors28 a => .req ⟨c.opcWrite28, a⟩
  | .in16Data => .pio (mkKey false true 0#3) 0#16
  | .out16Data w => .pio (mkKey true true 0#3) w
  | .out8Seccnt v => .pio (mkKey true false 2#3) (v.setWidth 16)
  | .out8Lba0 v => .pio (mkKey true false 3#3) (v.setWidth 16)
  | .out8Lba1 v => .pio (mkKey true false 4#3) (v.setWidth 16)
  | .out8Lba2 v => .pio (mkKey true false 5#3) (v.setWidth 16)
  | .out8Drvhead v => .pio (mkKey true false 6#3) (v.setWidth 16)
  | .out8Command v => .pio (mkKey true false 7#3) (v.setWidth 16)
  | .in8Status => .pio (mkKey false false 7#3) 0#16
  | .in8Error => .pio (mkKey false false c.errRegOff) 0#16

/-- Whether the configuration admits the instruction at all: the 28-bit commands with `LEGACY28` only (R64), the error
register read in `HARDENED` only (R66). -/
def Instr.admitted (c : Config) : Instr → Bool
  | .readSectorsExt _ => true
  | .writeSectorsExt _ => true
  | .readSectors28 _ => c.legacy28
  | .writeSectors28 _ => c.legacy28
  | .in16Data => true
  | .out16Data _ => true
  | .out8Seccnt _ => true
  | .out8Lba0 _ => true
  | .out8Lba1 _ => true
  | .out8Lba2 _ => true
  | .out8Drvhead _ => true
  | .out8Command _ => true
  | .in8Status => true
  | .in8Error => c.mode == .hardened

/-- The encoded object a row of spec/opcode_table.json stands for. A PIO row gives a 5-bit key, so its number is below
32; a CMD8 row gives an opcode byte, and the table's opcodes are 0x20 and above. Operands that have no bits in the
table are 0 (log 12). -/
def encodedOfTable (w : Nat) : Encoded :=
  if w < 32 then .pio (BitVec.ofNat 5 w) 0#16
  else .req ⟨BitVec.ofNat 8 w, ⟨false, 0#64, 0#16, []⟩⟩

/-- The instruction the decoder reads from a table row's bits, in the table's own configuration. -/
def decodeTableWord (_nbits w : Nat) : Option Instr :=
  if w < 256 then (decode Config.table (encodedOfTable w)).toOption else none

end Sys2Proof
end

