-- ==== Sys2Proof/Machine/Sequencer.lean ====
section
/-! DEFINITION. The sequencer (40_protocol.md R95): which transaction its next step issues (`fetch`), and what it does after the transaction (`advance`): the preamble table (R79), the poll (R91, R92), the data words (R99, R104), the `ERROR` and `TIMEOUT` steps (R126, R127). -/

namespace Sys2Proof.Machine

/-- What the sequencer's next step is. -/
inductive Fetch where
  /-- `IDLE` with no request offered: it waits (R144). -/
  | wait
  /-- `IDLE` with a request whose `op` is no admitted opcode (R70); the request is off the interface in `s`. -/
  | illegalOp (s : State)
  /-- Execute `i` in `s`. -/
  | run (i : Instr) (s : State)
  /-- The `TIMEOUT` step: no port transaction (R127). -/
  | timeoutStep
  /-- No step: the machine stops. -/
  | stop (f : Fault)
  deriving DecidableEq, Repr

/-- The request that is accepted next, and the state with it off the interface. Among several waiting requests "any one"
may be chosen (D13, U29). -/
def chooseRequest (s : State) : Option (Request × State) :=
  match s.requests with
  | [] => none
  | [r] => some (r, s.withRequests [])
  | r :: t =>
    let n := s.oracle.drawPick.1 % (r :: t).length
    some (((r :: t)[n]?).getD r,
      (s.withOracle s.oracle.drawPick.2).withRequests ((r :: t).eraseIdx n))

/-- `IDLE` (R77, R144). -/
def fetchRequest (s : State) : Fetch :=
  match chooseRequest s with
  | none => .wait
  | some (r, s1) =>
    match decodeRequest s.cfg r with
    | .instr i => .run i s1
    | .rejected _ => .illegalOp s1

/-- The preamble and command table, one row per `PSTEP` (R79). -/
def preambleRow (s : State) (k : Nat) : Fetch :=
  match k with
  | 0 => readReg .stop .drv s.seq.drv fun drv => .run (.out8Drvhead (driveHead s.cfg drv)) s
  | 1 => readReg .stop .cnt s.seq.cnt fun cnt => .run (.out8Seccnt (countHi cnt)) s
  | 2 => readReg .stop .lba s.seq.lba fun lba => .run (.out8Lba0 (lbaHi 0 lba)) s
  | 3 => readReg .stop .lba s.seq.lba fun lba => .run (.out8Lba1 (lbaHi 1 lba)) s
  | 4 => readReg .stop .lba s.seq.lba fun lba => .run (.out8Lba2 (lbaHi 2 lba)) s
  | 5 => readReg .stop .cnt s.seq.cnt fun cnt => .run (.out8Seccnt (countLo cnt)) s
  | 6 => readReg .stop .lba s.seq.lba fun lba => .run (.out8Lba0 (lbaLo 0 lba)) s
  | 7 => readReg .stop .lba s.seq.lba fun lba => .run (.out8Lba1 (lbaLo 1 lba)) s
  | 8 => readReg .stop .lba s.seq.lba fun lba => .run (.out8Lba2 (lbaLo 2 lba)) s
  | 9 => readReg .stop .op s.seq.op fun op => .run (.out8Command op) s
  | _ => .stop (.noEnabledStep .preamble)

/-- `READY`: a data access while `WIDX < NW(CNT)`, a write's word assembled from the buffer (R69, R99, R104). The order in
which the registers are tested for being unwritten, `CNT`, `WIDX`, `DIR`, `BUF`, is a DESIGN CHOICE (log 30). -/
def fetchData (s : State) : Fetch :=
  readReg .stop .cnt s.seq.cnt fun cnt =>
  readReg .stop .widx s.seq.widx fun widx =>
  readReg .stop .dir s.seq.dir fun dir =>
    if widx < nw cnt then
      match dir with
      | .rd => .run .in16Data s
      | .wr =>
        readReg .stop .buf s.seq.buf fun buf =>
          match buf.read (2 * widx), buf.read (2 * widx + 1) with
          | some lo, some hi => .run (.out16Data (joinLanes hi lo)) s
          | _, _ => .stop (.bufferBounds (2 * widx + 1))
    else .stop (.noEnabledStep .ready)

/-- The sequencer's next step (R95). -/
def fetch (s : State) : Fetch :=
  match s.seq.phase with
  | .idle => fetchRequest s
  | .preamble => readReg .stop .pstep s.seq.pstep fun k => preambleRow s k
  | .cmdIssued => .run .in8Status s
  | .ready => fetchData s
  | .error => if s.cfg.mode = .hardened then .run .in8Error s else .stop (.noEnabledStep .error)
  | .timeout => if s.cfg.mode = .hardened then .timeoutStep else .stop (.noEnabledStep .timeout)
  | .reserved6 => .stop (.badPhase 6#3)
  | .reserved7 => .stop (.badPhase 7#3)

/-- After a preamble write: `PSTEP <- PSTEP + 1` (R80 to R88). -/
def advancePreamble (s : State) : Out State :=
  readReg .fault .pstep s.seq.pstep fun k => .next (s.withSeq { s.seq with pstep := some (k + 1) })

/-- After the command write: in `HARDENED` `POLLS <- 0`; `phase <- CMD_ISSUED` (R89). -/
def commandIssued (s : State) : Out State :=
  .next (s.withSeq
    { s.seq with
      phase := .cmdIssued
      polls := if s.cfg.mode = .hardened then some 0 else s.seq.polls })

/-- The phase after a `HARDENED` status read, `ERR` checked first and the deadline last (R92, D16). -/
def hardenedPhase (c : Config) (v : Byte) (polls : Nat) : Phase :=
  if errSet c v then .error
  else if drqSet v then .ready
  else if polls = c.pollDeadline then .timeout
  else .cmdIssued

/-- After a status read that returned `v`: `POLL` (R91) and `POLL_H` (R92). -/
def polled (v : Byte) (s : State) : Out State :=
  match s.cfg.mode with
  | .minimal => .next (if drqSet v then s.setPhase .ready else s)
  | .hardened =>
    readReg .fault .polls s.seq.polls fun n =>
      .next (s.withSeq { s.seq with polls := some (n + 1), phase := hardenedPhase s.cfg v (n + 1) })

/-- After a data word: `WIDX` moves on, and the last word ends the request with `OK` in the same step (R99, R104). -/
def wordDone (widx : Nat) (cnt : CountWord) (payload : List Byte) (s : State) : Out State :=
  .next
    (if widx + 1 = nw cnt then
      endRequest (s.withSeq { s.seq with widx := some (widx + 1) }) .ok 0#8 payload
    else s.withSeq { s.seq with widx := some (widx + 1) })

/-- After a data read that returned `w`: `RD_WORD` stores the two bytes, low byte first (R99). -/
def wordRead (w : DataWord) (s : State) : Out State :=
  readReg .fault .cnt s.seq.cnt fun cnt =>
  readReg .fault .widx s.seq.widx fun widx =>
  readReg .fault .buf s.seq.buf fun buf =>
    match buf.write (2 * widx) (lane0 w) with
    | none => .fault (.bufferBounds (2 * widx))
    | some b1 =>
      match b1.write (2 * widx + 1) (lane1 w) with
      | none => .fault (.bufferBounds (2 * widx + 1))
      | some b2 => wordDone widx cnt b2.bytes (s.withSeq { s.seq with buf := some b2 })

/-- After a data write: `WR_WORD` (R104). -/
def wordWritten (s : State) : Out State :=
  readReg .fault .cnt s.seq.cnt fun cnt =>
  readReg .fault .widx s.seq.widx fun widx =>
    wordDone widx cnt [] s

/-- After an error register read that returned `v`: `ERR_STEP` (R126). -/
def errorRead (v : Byte) (s : State) : Out State :=
  readReg .fault .tries s.seq.tries fun n =>
    .next (retryOrRaise (s.withSeq { s.seq with errv := some v }) n .eDevice v)

/-- `TO_STEP`: the channel reset, then a retry or `E_TIMEOUT` (R127). -/
def timedOut (s : State) : Out State :=
  readReg .fault .tries s.seq.tries fun n =>
    .next (retryOrRaise (channelReset s) n .eTimeout 0#8)

/-- What the sequencer does after executing `i`: `s` is the state `i` ran in, `t` the state it left. A command's own
meaning is the whole step. -/
def advance (i : Instr) (s t : State) : Out State :=
  match i with
  | .readSectorsExt _ => .next t
  | .writeSectorsExt _ => .next t
  | .readSectors28 _ => .next t
  | .writeSectors28 _ => .next t
  | .in16Data => wordRead (dataAnswer s).1 t
  | .out16Data _ => wordWritten t
  | .out8Seccnt _ => advancePreamble t
  | .out8Lba0 _ => advancePreamble t
  | .out8Lba1 _ => advancePreamble t
  | .out8Lba2 _ => advancePreamble t
  | .out8Drvhead _ => advancePreamble t
  | .out8Command _ => commandIssued t
  | .in8Status => polled (statusAnswer s).1 t
  | .in8Error => errorRead (errorAnswer s).1 t

/-- Put a request on the interface so that the next step in `IDLE` accepts it: first in the list, and chosen if others
wait. -/
def State.offerNext (s : State) (r : Request) : State :=
  { s with
    seq := { s.seq with phase := .idle }
    requests := r :: s.requests
    oracle := if s.requests = [] then s.oracle else { s.oracle with pick := 0 :: s.oracle.pick } }

/-- Put the sequencer at row `k` of the preamble. -/
def State.atPreamble (s : State) (k : Nat) : State :=
  s.withSeq { s.seq with phase := .preamble, pstep := some k }

/-- Put the sequencer at the first data word of a one-sector transfer. -/
def State.atData (s : State) (d : Dir) (b : Buffer) : State :=
  s.withSeq { s.seq with phase := .ready, dir := some d, cnt := some 1#16, widx := some 0, buf := some b }

/-- A count whose byte `k` is `v`. -/
def countWith (k : Nat) (v : Byte) : CountWord := v.setWidth 16 <<< (8 * k)

/-- An LBA whose byte `k` is `v`. -/
def lbaWith (k : Nat) (v : Byte) : LbaWord := v.setWidth 64 <<< (8 * k)

/-- Make `i` the instruction that the next step issues (log 13). A command is offered in `IDLE`; a port transaction is
issued by the sequencer step whose rule names it, so the sequencer is put at that step, with registers that give the
transaction its value. An option that must be on for the instruction to exist is turned on. -/
def State.install (s : State) (i : Instr) : State :=
  match i with
  | .readSectorsExt a => s.offerNext ⟨Config.opcReadExt, a⟩
  | .writeSectorsExt a => s.offerNext ⟨Config.opcWriteExt, a⟩
  | .readSectors28 a =>
    { s with cfg := { s.cfg with legacy28 := true } }.offerNext ⟨s.cfg.opcRead28, a⟩
  | .writeSectors28 a =>
    { s with cfg := { s.cfg with legacy28 := true } }.offerNext ⟨s.cfg.opcWrite28, a⟩
  | .in16Data => s.atData .rd (Buffer.ofBytes Config.sectorBytes [])
  | .out16Data w => s.atData .wr (Buffer.ofBytes Config.sectorBytes [lane0 w, lane1 w])
  | .out8Seccnt v => (s.withSeq { s.seq with cnt := some (countWith 0 v) }).atPreamble 5
  | .out8Lba0 v => (s.withSeq { s.seq with lba := some (lbaWith 0 v) }).atPreamble 6
  | .out8Lba1 v => (s.withSeq { s.seq with lba := some (lbaWith 1 v) }).atPreamble 7
  | .out8Lba2 v => (s.withSeq { s.seq with lba := some (lbaWith 2 v) }).atPreamble 8
  | .out8Drvhead v =>
    ({ s with cfg := { s.cfg with dhPattern := v } }.withSeq { s.seq with drv := some false }).atPreamble 0
  | .out8Command v => (s.withSeq { s.seq with op := some v }).atPreamble 9
  | .in8Status => s.withSeq { s.seq with phase := .cmdIssued, polls := some 0 }
  | .in8Error =>
    { s with cfg := { s.cfg with mode := .hardened } }.withSeq { s.seq with phase := .error, tries := some 0 }

end Sys2Proof.Machine
end

