-- ==== Sys2Proof/Machine/Step.lean ====
section
/-! DEFINITION. One step of the sequencer (40_protocol.md R95): the instruction it issues next, executed, and what it does afterwards. -/

namespace Sys2Proof.Machine

/-- One row of the transition relation R95. Issues at most one port transaction (D12). -/
def step (s : State) : Host.Outcome State Fault Refusal :=
  match fetch s with
  | .wait => .next s
  | .illegalOp s1 => .next (raise s1 .eOp 0#8)
  | .timeoutStep => timedOut s
  | .stop f => .fault f
  | .run i s1 =>
    match exec i s1 with
    | .next t => advance i s1 t
    | .fault f => .fault f
    | .refused r => .refused r

/-- `s` made ready to run the table word's instruction as its very next step (log 13). A word that is no instruction is
offered as a request with that opcode byte, which the step rejects (R70). -/
def State.withFetchWord (s : State) (nbits w : Nat) : State :=
  match decodeTableWord nbits w with
  | some i => s.install i
  | none => s.offerNext ⟨BitVec.ofNat 8 w, ⟨false, 0#64, 0#16, []⟩⟩

end Sys2Proof.Machine
end

