-- ==== Sys2Proof/Safety.lean ====
section
/-! DEFINITION. What the statements call a good state and a safe run: the invariant `Inv`, the port transactions the sequencer may issue (20_memory.md R37), and the relations "equal but for dead registers" (R15) and "equal but for the device's registers" (R16). -/

namespace Sys2Proof.Safety

open Sys2Proof.Machine

/-- A latched request (R18, R71, R77): every register that acceptance writes holds a value, and the values are ones that
acceptance admits. -/
structure Latched (c : Config) (q : Seq) (op : Byte) (dir : Dir) (drv : Bool) (lba : LbaWord) (cnt : CountWord)
    (buf : Buffer) : Prop where
  opReg : q.op = some op
  dirReg : q.dir = some dir
  drvReg : q.drv = some drv
  lbaReg : q.lba = some lba
  cntReg : q.cnt = some cnt
  bufReg : q.buf = some buf
  /-- `DIR` is the direction of `OP` (R18, R65). -/
  dirOf : Machine.dirOf c op = some dir
  /-- `CNT` is 1..65535 (R18). -/
  count : 1 ≤ cnt.toNat
  /-- `LBA` bits [63:48] are 0 (R18). -/
  lbaBound : lba.toNat < 2 ^ 48
  /-- The bounds of a 28-bit command (R71). -/
  bound28 : is28 c op = true → lba.toNat < 2 ^ 24 ∧ cnt.toNat ≤ 256
  /-- `BUF` has `NB(CNT)` bytes (R18). -/
  bufLen : buf.len = nb cnt
  /-- `TRIES` is 0..`RETRIES` (R18). -/
  tries : c.mode = .hardened → ∃ n, q.tries = some n ∧ n ≤ c.retries

/-- Some request is latched. -/
def InProgress (c : Config) (q : Seq) : Prop :=
  ∃ op dir drv lba cnt buf, Latched c q op dir drv lba cnt buf

/-- What the control state implies (R18, R20, R21, R92). -/
def PhaseOk (c : Config) (q : Seq) : Prop :=
  match q.phase with
  | .idle => True
  | .preamble => InProgress c q ∧ (∃ k, q.pstep = some k ∧ k ≤ 9) ∧ q.widx = some 0
  | .cmdIssued =>
    InProgress c q ∧ q.widx = some 0 ∧ (c.mode = .hardened → ∃ n, q.polls = some n ∧ n < c.pollDeadline)
  | .ready => InProgress c q ∧ ∃ i cnt, q.widx = some i ∧ q.cnt = some cnt ∧ i < nw cnt
  | .error => InProgress c q ∧ q.widx = some 0 ∧ c.mode = .hardened
  | .timeout => InProgress c q ∧ q.widx = some 0 ∧ c.mode = .hardened
  | .reserved6 => False
  | .reserved7 => False

/-- The ranges of R18 that every written register keeps in every phase, dead ones in `IDLE` among them. `WIDX` is held to
its 24 bits here and to `NW(CNT)` by `PhaseOk`, since a failed allocation leaves a new `CNT` beside an old, dead
`WIDX` (log 26). -/
structure RangesOk (c : Config) (q : Seq) : Prop where
  pstep : ∀ k, q.pstep = some k → k ≤ 9
  widx : ∀ i, q.widx = some i → i < 2 ^ 24
  polls : ∀ n, q.polls = some n → n ≤ c.pollDeadline
  tries : ∀ n, q.tries = some n → n ≤ c.retries
  lba : ∀ v, q.lba = some v → v.toNat < 2 ^ 48
  cnt : ∀ v, q.cnt = some v → 1 ≤ v.toNat
  dir : ∀ op, q.op = some op → q.dir = Machine.dirOf c op

/-- The invariant of the machine: legal parameters, a consistent control state, registers in their ranges, memories in
canonical form. -/
structure Inv (s : State) : Prop where
  legal : s.cfg.Legal
  phase : PhaseOk s.cfg s.seq
  ranges : RangesOk s.cfg s.seq
  bufWf : ∀ b, s.seq.buf = some b → b.wf
  diskWf : ∀ ds, s.dev.disks = some ds → ds.wf

/-- The (port, width, direction) combinations the sequencer issues, and the `ChannelReset()` event (R36, R37, R128). -/
def allowedEvent (c : Config) : BusEvent → Prop
  | .portWrite8 p _ =>
    p = portAddr c 2#3 ∨ p = portAddr c 3#3 ∨ p = portAddr c 4#3 ∨ p = portAddr c 5#3 ∨ p = portAddr c 6#3
      ∨ p = portAddr c 7#3
  | .portRead8 p _ => p = portAddr c 7#3 ∨ (c.mode = .hardened ∧ p = portAddr c c.errRegOff)
  | .portWrite16 p _ => p = portAddr c 0#3
  | .portRead16 p _ => p = portAddr c 0#3
  | .channelReset => c.mode = .hardened

/-- A data-port access: a 16-bit transaction (R37). -/
def isDataEvent : BusEvent → Bool
  | .portWrite16 _ _ => true
  | .portRead16 _ _ => true
  | _ => false

/-- Equal but for registers that no later rule reads before it writes them (R15): in `IDLE` all of them, while a request
is in progress `ERRV`, in `MINIMAL` also `TRIES` and `POLLS`, and `POLLS` outside the poll. -/
structure LiveEq (s t : State) : Prop where
  cfg : s.cfg = t.cfg
  requests : s.requests = t.requests
  responses : s.responses = t.responses
  dev : s.dev = t.dev
  oracle : s.oracle = t.oracle
  trace : s.trace = t.trace
  phase : s.seq.phase = t.seq.phase
  regs : s.seq.phase ≠ .idle →
    s.seq.pstep = t.seq.pstep ∧ s.seq.op = t.seq.op ∧ s.seq.dir = t.seq.dir ∧ s.seq.drv = t.seq.drv ∧
    s.seq.lba = t.seq.lba ∧ s.seq.cnt = t.seq.cnt ∧ s.seq.widx = t.seq.widx ∧ s.seq.buf = t.seq.buf
  tries : s.seq.phase ≠ .idle → s.cfg.mode = .hardened → s.seq.tries = t.seq.tries
  polls : s.seq.phase = .cmdIssued → s.cfg.mode = .hardened → s.seq.polls = t.seq.polls

/-- Equal but for the registers and the hidden state of a general device (R16, R143). -/
structure SameButDevice (s t : State) : Prop where
  cfg : s.cfg = t.cfg
  seq : s.seq = t.seq
  requests : s.requests = t.requests
  responses : s.responses = t.responses
  oracle : s.oracle = t.oracle
  trace : s.trace = t.trace
  general : s.dev.disks = none ∧ t.dev.disks = none

/-- Two outcomes that stop alike, or go on to states that `R` relates. -/
def OutRel (R : State → State → Prop) : Out State → Out State → Prop
  | .next s, .next t => R s t
  | .fault f, .fault g => f = g
  | .refused f, .refused g => f = g
  | _, _ => False

/-- `n` steps in a row, up to the first fault or refusal; the same as the host's `Host.Core.run`. -/
def run : Nat → State → Out State
  | 0, s => .next s
  | n + 1, s =>
    match step s with
    | .next t => run n t
    | .fault f => .fault f
    | .refused r => .refused r

/-- The state of an accepted request (R77): latched registers, the start of the preamble, in `HARDENED` the retries. -/
def acceptedState (s : State) (op : Byte) (d : Dir) (a : ReqArgs) (b : Buffer) : State :=
  { s with
    seq := { s.seq with
      phase := .preamble
      pstep := some 0
      op := some op
      dir := some d
      drv := some a.drive
      lba := some a.lba
      cnt := some a.count
      widx := some 0
      buf := some b
      tries := if s.cfg.mode = .hardened then some s.cfg.retries else s.seq.tries } }

/-- A request answered in the acceptance step (R124): it is off the interface, one response is given, nothing else
changes. -/
def rejectedState (s : State) (code : ResultCode) : State :=
  { s with requests := [], responses := s.responses ++ [⟨code, 0#8, []⟩] }

/-- The ten rows of the preamble and command table (R79), in the order of `PSTEP`: key and value. -/
def preambleInstrs (c : Config) (drv : Bool) (cnt : CountWord) (lba : LbaWord) (op : Byte) : List Instr :=
  [.out8Drvhead (c.dhPattern ||| ((if drv then 1#8 else 0#8) <<< c.drvShift)),
   .out8Seccnt (cnt.extractLsb' 8 8),
   .out8Lba0 (lba.extractLsb' 24 8), .out8Lba1 (lba.extractLsb' 32 8), .out8Lba2 (lba.extractLsb' 40 8),
   .out8Seccnt (cnt.extractLsb' 0 8),
   .out8Lba0 (lba.extractLsb' 0 8), .out8Lba1 (lba.extractLsb' 8 8), .out8Lba2 (lba.extractLsb' 16 8),
   .out8Command op]

/-- The ten register writes of one attempt on the port bus (R79), in order: `BASE` offset and value. -/
def preambleWrites (c : Config) (drv : Bool) (cnt : CountWord) (lba : LbaWord) (op : Byte) : List BusEvent :=
  [.portWrite8 (c.base + 6#16) (c.dhPattern ||| ((if drv then 1#8 else 0#8) <<< c.drvShift)),
   .portWrite8 (c.base + 2#16) (cnt.extractLsb' 8 8),
   .portWrite8 (c.base + 3#16) (lba.extractLsb' 24 8),
   .portWrite8 (c.base + 4#16) (lba.extractLsb' 32 8),
   .portWrite8 (c.base + 5#16) (lba.extractLsb' 40 8),
   .portWrite8 (c.base + 2#16) (cnt.extractLsb' 0 8),
   .portWrite8 (c.base + 3#16) (lba.extractLsb' 0 8),
   .portWrite8 (c.base + 4#16) (lba.extractLsb' 8 8),
   .portWrite8 (c.base + 5#16) (lba.extractLsb' 16 8),
   .portWrite8 (c.base + 7#16) op]

/-- The bytes of a read stream, "2 bytes in low-byte-first order, appended in read order" (R99). -/
def streamBytes (ws : List DataWord) : List Byte := ws.flatMap fun w => [w.extractLsb' 0 8, w.extractLsb' 8 8]

/-- The words of a byte sequence, "built from consecutive little-endian byte pairs" (R104). -/
def streamWords : List Byte → List DataWord
  | lo :: hi :: t => (hi ++ lo) :: streamWords t
  | _ => []

/-- The step bound of one `HARDENED` request (R154). -/
def hardenedBound (c : Config) (cnt : CountWord) : Nat :=
  (1 + c.retries) * (10 + c.pollDeadline + 1 + cnt.toNat * 256)

/-- Request `k` of those waiting is the one a step serves, and it ends in `t` (R77, D13): with that request off the
interface and the others left waiting, `t` is what executing its instruction gives, or, where its opcode is not
admitted, the response `E_OP` and nothing else. At most the arbitration's own answers have moved. -/
def servesRequest (s : State) (k : Nat) (t : State) : Prop :=
  ∃ (r : Request) (picks : List Nat) (n : Nat), s.requests[k]? = some r ∧
    s.oracle.draws ≤ n ∧ n ≤ s.oracle.draws + 1 ∧
    let u := { s with
      requests := s.requests.eraseIdx k, oracle := { s.oracle with pick := picks, draws := n } }
    match decode s.cfg (.req r) with
    | .instr i => exec i u = .next t
    | .rejected _ => t = { u with responses := s.responses ++ [⟨.eOp, 0#8, []⟩] }

/-- The port write of row `k` of the preamble and command table (R79), with the value its registers give; `none` where
there is no such row, or a register the row reads is unwritten. -/
def rowEvent (c : Config) (q : Seq) : Nat → Option BusEvent
  | 0 => q.drv.map fun drv => BusEvent.portWrite8 (c.base + 6#16) (c.dhPattern ||| ((if drv then 1#8 else 0#8 : Byte) <<< c.drvShift))
  | 1 => q.cnt.map fun cnt => BusEvent.portWrite8 (c.base + 2#16) (cnt.extractLsb' 8 8)
  | 2 => q.lba.map fun lba => BusEvent.portWrite8 (c.base + 3#16) (lba.extractLsb' 24 8)
  | 3 => q.lba.map fun lba => BusEvent.portWrite8 (c.base + 4#16) (lba.extractLsb' 32 8)
  | 4 => q.lba.map fun lba => BusEvent.portWrite8 (c.base + 5#16) (lba.extractLsb' 40 8)
  | 5 => q.cnt.map fun cnt => BusEvent.portWrite8 (c.base + 2#16) (cnt.extractLsb' 0 8)
  | 6 => q.lba.map fun lba => BusEvent.portWrite8 (c.base + 3#16) (lba.extractLsb' 0 8)
  | 7 => q.lba.map fun lba => BusEvent.portWrite8 (c.base + 4#16) (lba.extractLsb' 8 8)
  | 8 => q.lba.map fun lba => BusEvent.portWrite8 (c.base + 5#16) (lba.extractLsb' 16 8)
  | 9 => q.op.map fun op => BusEvent.portWrite8 (c.base + 7#16) op
  | _ => none

/-- The three rows of R95 from `IDLE` with the request `r` chosen, where `u` is `s` with it off the interface: the check
fails; the check passes and a read's allocation fails; the check passes and a read's allocation succeeds. -/
def acceptRow (s u t : State) (r : Request) : Prop :=
  t.requests = u.requests ∧
  ((check s.cfg r.op r.args ≠ .ok ∧ t.seq.phase = .idle ∧
      t.responses = s.responses ++ [⟨check s.cfg r.op r.args, 0#8, []⟩]) ∨
   (check s.cfg r.op r.args = .ok ∧ dirOf s.cfg r.op = some .rd ∧ u.oracle.drawAlloc.1 = none ∧
      t.seq.phase = .idle ∧ t.responses = s.responses ++ [⟨.eAlloc, 0#8, []⟩]) ∨
   (check s.cfg r.op r.args = .ok ∧ (dirOf s.cfg r.op = some .rd → u.oracle.drawAlloc.1 ≠ none) ∧
      t.seq.phase = .preamble ∧ t.seq.pstep = some 0 ∧ t.responses = s.responses))

/-- What the `ERROR` and `TIMEOUT` rows of R95 lead to: a retry while one is left, else the response (R126, R127). -/
def retryRow (s t : State) (code : ResultCode) (info : Byte) : Prop :=
  ∃ n, s.seq.tries = some n ∧
    if 0 < n then t.seq.phase = .preamble ∧ t.seq.pstep = some 0 ∧ t.seq.tries = some (n - 1) ∧ t.responses = s.responses
    else t.seq.phase = .idle ∧ t.responses = s.responses ++ [⟨code, info, []⟩]

/-- One row of the transition relation R95: the phases, the condition, the port transaction with its value, and the
response of one step. `IDLE` with no request offered waits (R144). -/
def transitionRow (s t : State) : Prop :=
  let emits := fun e => t.trace = e :: s.trace
  match s.seq.phase with
  | .idle =>
    t.trace = s.trace ∧ ((s.requests = [] ∧ t = s) ∨
      ∃ k r u, s.requests[k]? = some r ∧ chooseRequest s = some (r, u) ∧ u.requests = s.requests.eraseIdx k ∧
        acceptRow s u t r)
  | .preamble =>
    t.responses = s.responses ∧ ∃ k e, s.seq.pstep = some k ∧ rowEvent s.cfg s.seq k = some e ∧ emits e ∧
      if k = 9 then t.seq.phase = .cmdIssued else t.seq.phase = .preamble ∧ t.seq.pstep = some (k + 1)
  | .cmdIssued =>
    t.responses = s.responses ∧ ∃ v : Byte, emits (.portRead8 (s.cfg.base + 7#16) v) ∧
      match s.cfg.mode with
      | .minimal => t.seq.phase = if v.getLsbD 3 then .ready else .cmdIssued
      | .hardened => ∃ n, s.seq.polls = some n ∧ t.seq.polls = some (n + 1) ∧
          t.seq.phase =
            if v.getLsbD s.cfg.errBit then .error
            else if v.getLsbD 3 then .ready
            else if n + 1 = s.cfg.pollDeadline then .timeout
            else .cmdIssued
  | .ready =>
    ∃ cnt i payload, s.seq.cnt = some cnt ∧ s.seq.widx = some i ∧ i < cnt.toNat * 256 ∧ t.seq.widx = some (i + 1) ∧
      ((s.seq.dir = some .rd ∧ ∃ w b, emits (.portRead16 s.cfg.base w) ∧ t.seq.buf = some b ∧ payload = b.bytes) ∨
       (s.seq.dir = some .wr ∧ ∃ b, s.seq.buf = some b ∧ 2 * i + 1 < b.len ∧ payload = [] ∧
          emits (.portWrite16 s.cfg.base (b.mem.read (2 * i + 1) ++ b.mem.read (2 * i))))) ∧
      if i + 1 = cnt.toNat * 256 then t.seq.phase = .idle ∧ t.responses = s.responses ++ [⟨.ok, 0#8, payload⟩]
      else t.seq.phase = .ready ∧ t.responses = s.responses
  | .error =>
    s.cfg.mode = .hardened ∧ ∃ v, emits (.portRead8 (portAddr s.cfg s.cfg.errRegOff) v) ∧ retryRow s t .eDevice v
  | .timeout => s.cfg.mode = .hardened ∧ emits .channelReset ∧ retryRow s t .eTimeout 0#8
  | .reserved6 => False
  | .reserved7 => False

/-- The results the block may give (R122, R130): `info` only with `E_DEVICE`, a payload only with `OK`, the `HARDENED`
codes only in `HARDENED`. -/
def resultOk (c : Config) (r : Response) : Prop :=
  (r.code ≠ .eDevice → r.info = 0#8) ∧ (r.code ≠ .ok → r.payload = []) ∧
    (r.code = .eTimeout ∨ r.code = .eDevice → c.mode = .hardened)

/-- An instruction that is a port transaction. -/
def isPort : Instr → Bool
  | .readSectorsExt _ => false
  | .writeSectorsExt _ => false
  | .readSectors28 _ => false
  | .writeSectors28 _ => false
  | _ => true

end Sys2Proof.Safety
end

