-- ==== Sys2Proof/Certificates/Slice0/Obligations.lean ====
section
/-! DEFINITION. The statements for the provers, from the numbered rules of spec/. -/

open Sys2Proof
open Sys2Proof.Machine
open Sys2Proof.Safety

/-! ## Reset and unwritten registers -/

/-- Reset sets `PHASE` to `IDLE` and leaves every other sequencer register unwritten, whatever the state before it; no
result is held and no port transaction is issued; a read of an unwritten register faults. -/
def Obligations.ResetLeavesOnlyIdle : Prop :=
  (∀ s : State, s.hostReset.seq = ⟨.idle, none, none, none, none, none, none, none, none, none, none, none⟩ ∧
    s.hostReset.responses = [] ∧ s.hostReset.trace = s.trace) ∧
  State.reset.seq = ⟨.idle, none, none, none, none, none, none, none, none, none, none, none⟩ ∧
  State.reset.responses = [] ∧ State.reset.trace = [] ∧
  ∀ (α : Type) (r : SeqReg) (k : α → Out State), readReg .fault r none k = .fault (.unwritten r)

/-- A step that would read an unwritten register stops with the fault `Unwritten(reg)`, register by register. That a fault is
raised is R13; which register it names where several are unwritten in `READY` is the model's choice (log 30). -/
def Obligations.UnwrittenReadFaults : Prop :=
  ∀ s : State,
    (s.seq.phase = .preamble → s.seq.pstep = none → step s = .fault (.unwritten .pstep)) ∧
    (s.seq.phase = .preamble → s.seq.pstep = some 0 → s.seq.drv = none → step s = .fault (.unwritten .drv)) ∧
    (∀ k, s.seq.phase = .preamble → s.seq.pstep = some k → k = 1 ∨ k = 5 → s.seq.cnt = none →
      step s = .fault (.unwritten .cnt)) ∧
    (∀ k, s.seq.phase = .preamble → s.seq.pstep = some k → k ∈ [2, 3, 4, 6, 7, 8] → s.seq.lba = none →
      step s = .fault (.unwritten .lba)) ∧
    (s.seq.phase = .preamble → s.seq.pstep = some 9 → s.seq.op = none → step s = .fault (.unwritten .op)) ∧
    (s.seq.phase = .ready → s.seq.cnt = none → step s = .fault (.unwritten .cnt)) ∧
    (∀ cnt, s.seq.phase = .ready → s.seq.cnt = some cnt → s.seq.widx = none → step s = .fault (.unwritten .widx)) ∧
    (∀ cnt i, s.seq.phase = .ready → s.seq.cnt = some cnt → s.seq.widx = some i → s.seq.dir = none →
      step s = .fault (.unwritten .dir)) ∧
    (∀ cnt i d, s.seq.phase = .ready → s.seq.cnt = some cnt → s.seq.widx = some i → i < cnt.toNat * 256 →
      s.seq.dir = some d → s.seq.buf = none → step s = .fault (.unwritten .buf)) ∧
    (s.seq.phase = .cmdIssued → s.cfg.mode = .hardened → s.seq.polls = none → step s = .fault (.unwritten .polls)) ∧
    (s.seq.phase = .error ∨ s.seq.phase = .timeout → s.cfg.mode = .hardened → s.seq.tries = none →
      step s = .fault (.unwritten .tries))

/-- After reset the block waits in `IDLE`: with no request offered a step changes nothing. -/
def Obligations.IdleWaitsForRequest : Prop :=
  ∀ s : State, s.seq.phase = .idle → s.requests = [] → step s = .next s

/-! ## Acceptance -/

/-- The two read commands are accepted: with an allowed request and a successful allocation the request is latched, `BUF`
has `count * 512` bytes, and the preamble starts; no port transaction happens. -/
def Obligations.ReadCommandsAccepted : Prop :=
  ∀ (s : State) (a : ReqArgs) (init : List Byte) (rest : List (Option (List Byte))),
    s.cfg.Legal → s.seq.phase = .idle → s.oracle.alloc = some init :: rest →
    1 ≤ a.count.toNat → a.data = [] →
    (a.lba.toNat < 2 ^ 48 →
      ∃ b : Buffer, b.len = a.count.toNat * 512 ∧
        exec (.readSectorsExt a) s =
          .next (acceptedState { s with oracle := { s.oracle with alloc := rest } } 0x24#8 .rd a b)) ∧
    (s.cfg.legacy28 = true → a.lba.toNat < 2 ^ 24 → a.count.toNat ≤ 256 →
      ∃ b : Buffer, b.len = a.count.toNat * 512 ∧
        exec (.readSectors28 a) s =
          .next (acceptedState { s with oracle := { s.oracle with alloc := rest } } s.cfg.opcRead28 .rd a b))

/-- The two write commands are accepted: `BUF` is a copy of the request's data, the allocator is not asked, and the
preamble starts; no port transaction happens. -/
def Obligations.WriteCommandsAccepted : Prop :=
  ∀ (s : State) (a : ReqArgs),
    s.cfg.Legal → s.seq.phase = .idle → 1 ≤ a.count.toNat → a.data.length = a.count.toNat * 512 →
    (a.lba.toNat < 2 ^ 48 →
      ∃ b : Buffer, b.len = a.count.toNat * 512 ∧ b.bytes = a.data ∧
        exec (.writeSectorsExt a) s = .next (acceptedState s 0x34#8 .wr a b)) ∧
    (s.cfg.legacy28 = true → a.lba.toNat < 2 ^ 24 → a.count.toNat ≤ 256 →
      ∃ b : Buffer, b.len = a.count.toNat * 512 ∧ b.bytes = a.data ∧
        exec (.writeSectors28 a) s = .next (acceptedState s s.cfg.opcWrite28 .wr a b))

/-- Acceptance checks a request in the order `E_OP`, `E_COUNT`, `E_LBA`, `E_LEN` and reports the first failing check only:
the rejected request is off the interface, one response is given in the same step, and nothing else changes. -/
def Obligations.RequestChecksInOrder : Prop :=
  ∀ (s : State) (r : Request), s.cfg.Legal → s.seq.phase = .idle → s.requests = [r] →
    let read := r.op = 0x24#8 ∨ (s.cfg.legacy28 = true ∧ r.op = s.cfg.opcRead28)
    let write := r.op = 0x34#8 ∨ (s.cfg.legacy28 = true ∧ r.op = s.cfg.opcWrite28)
    let short := s.cfg.legacy28 = true ∧ (r.op = s.cfg.opcRead28 ∨ r.op = s.cfg.opcWrite28)
    let badCount := r.args.count.toNat = 0 ∨ (short ∧ 256 < r.args.count.toNat)
    let badLba := 2 ^ 48 ≤ r.args.lba.toNat ∨ (short ∧ 2 ^ 24 ≤ r.args.lba.toNat)
    let badLen := (write ∧ r.args.data.length ≠ r.args.count.toNat * 512) ∨ (read ∧ r.args.data.length ≠ 0)
    (¬ read ∧ ¬ write → step s = .next (rejectedState s .eOp)) ∧
    (read ∨ write → badCount → step s = .next (rejectedState s .eCount)) ∧
    (read ∨ write → ¬ badCount → badLba → step s = .next (rejectedState s .eLba)) ∧
    (read ∨ write → ¬ badCount → ¬ badLba → badLen → step s = .next (rejectedState s .eLen))

/-- A read that passes the four checks asks the allocator, and a failure ends the request with `E_ALLOC` in the same step:
no port transaction, `PHASE` stays `IDLE`. The registers that hold the request's own fields are already written, by
the literal order of R77's pseudocode (log 26); nothing else changes. -/
def Obligations.AllocationFailureRejects : Prop :=
  ∀ (s : State) (r : Request) (rest : List (Option (List Byte))), s.seq.phase = .idle → s.requests = [r] →
    dirOf s.cfg r.op = some .rd → check s.cfg r.op r.args = .ok → s.oracle.alloc = none :: rest →
    step s = .next (rejectedState { s with
      oracle := { s.oracle with alloc := rest }
      seq := { s.seq with
        op := some r.op, dir := some .rd, drv := some r.args.drive, lba := some r.args.lba, cnt := some r.args.count } }
      .eAlloc)

/-- A request offered while another is in progress is neither accepted nor rejected: it waits on the interface and changes
nothing else, and no step of the running request touches the waiting ones. -/
def Obligations.BusyRequestWaits : Prop :=
  (∀ (s : State) (a : ReqArgs), s.seq.phase ≠ .idle →
    exec (.readSectorsExt a) s = .next { s with requests := s.requests ++ [⟨0x24#8, a⟩] } ∧
    exec (.writeSectorsExt a) s = .next { s with requests := s.requests ++ [⟨0x34#8, a⟩] } ∧
    exec (.readSectors28 a) s = .next { s with requests := s.requests ++ [⟨s.cfg.opcRead28, a⟩] } ∧
    exec (.writeSectors28 a) s = .next { s with requests := s.requests ++ [⟨s.cfg.opcWrite28, a⟩] }) ∧
  (∀ s t : State, s.seq.phase ≠ .idle → step s = .next t → t.requests = s.requests)

/-- In `IDLE` with requests waiting a step serves exactly one of them and leaves the others waiting: the request that leaves
the interface is the one that is latched or answered, as if it waited alone. Any one of them can be the next. -/
def Obligations.OneWaitingRequestServed : Prop :=
  (∀ s : State, s.seq.phase = .idle → s.requests ≠ [] →
    ∃ k t, step s = .next t ∧ servesRequest s k t ∧ t.requests = s.requests.eraseIdx k ∧
      (t.seq.phase = .preamble ∨ ∃ c, t.responses = s.responses ++ [⟨c, 0#8, []⟩])) ∧
  (∀ (s : State) (k : Nat), s.seq.phase = .idle → k < s.requests.length →
    ∃ picks t, step { s with oracle := { s.oracle with pick := picks } } = .next t ∧ servesRequest s k t ∧
      t.requests = s.requests.eraseIdx k)

/-! ## Port transactions -/

/-- A byte write to `SECCNT`, `LBA0`, `LBA1` or `LBA2` shifts that field's 2-deep FIFO, `prev <- cur; cur <- v`, and
changes nothing else. -/
def Obligations.FieldWritesShiftFifos : Prop :=
  ∀ (s : State) (v : Byte),
    exec (.out8Seccnt v) s = .next { s with
      dev := { s.dev with seccnt := ⟨s.dev.seccnt.cur, v⟩ }
      trace := .portWrite8 (s.cfg.base + 2#16) v :: s.trace } ∧
    exec (.out8Lba0 v) s = .next { s with
      dev := { s.dev with lba0 := ⟨s.dev.lba0.cur, v⟩ }
      trace := .portWrite8 (s.cfg.base + 3#16) v :: s.trace } ∧
    exec (.out8Lba1 v) s = .next { s with
      dev := { s.dev with lba1 := ⟨s.dev.lba1.cur, v⟩ }
      trace := .portWrite8 (s.cfg.base + 4#16) v :: s.trace } ∧
    exec (.out8Lba2 v) s = .next { s with
      dev := { s.dev with lba2 := ⟨s.dev.lba2.cur, v⟩ }
      trace := .portWrite8 (s.cfg.base + 5#16) v :: s.trace }

/-- A byte write to `DRVHEAD` sets it and selects the drive of bit `DRV_SHIFT`; nothing else changes. -/
def Obligations.DriveHeadWriteSelects : Prop :=
  ∀ (s : State) (v : Byte),
    exec (.out8Drvhead v) s = .next { s with
      dev := { s.dev with drvhead := v }
      trace := .portWrite8 (s.cfg.base + 6#16) v :: s.trace } ∧
    selectedDrive s.cfg { s.dev with drvhead := v } = v.getLsbD s.cfg.drvShift

/-- The command write latches drive, LBA, count and command from the register file and starts the stream at position 0. For
a byte R113 does not name, the LBA and the count are whatever they are (log 14), and everything else is as stated. The
disks of a reference device stay, unless the command takes it outside what the spec defines (log 15). -/
def Obligations.CommandWriteLatches : Prop :=
  ∀ (s : State) (op : Byte), s.cfg.Legal →
    ∃ t p, exec (.out8Command op) s = .next t ∧
      t = { s with dev := t.dev, oracle := t.oracle, trace := .portWrite8 (s.cfg.base + 7#16) op :: s.trace } ∧
      t.dev = { s.dev with command := op, pending := some p, pos := 0, disks := t.dev.disks } ∧
      (t.dev.disks = s.dev.disks ∨ t.dev.disks = none) ∧
      (dirOf s.cfg op ≠ none → p.count ≠ 0 → p.lba.toNat + p.count ≤ capacity s.cfg p.drive →
        t.dev.disks = s.dev.disks) ∧
      p.op = op ∧ p.drive = s.dev.drvhead.getLsbD s.cfg.drvShift ∧
      (op = 0x24#8 ∨ op = 0x34#8 →
        p.count = (s.dev.seccnt.prev ++ s.dev.seccnt.cur).toNat ∧
        p.lba = s.dev.lba2.prev ++ (s.dev.lba1.prev ++ (s.dev.lba0.prev ++
          (s.dev.lba2.cur ++ (s.dev.lba1.cur ++ s.dev.lba0.cur)))) ∧ t.oracle = s.oracle) ∧
      (s.cfg.legacy28 = true ∧ (op = s.cfg.opcRead28 ∨ op = s.cfg.opcWrite28) →
        p.count = (if s.dev.seccnt.cur = 0#8 then 256 else s.dev.seccnt.cur.toNat) ∧
        p.lba = (s.dev.drvhead.extractLsb' 0 4 ++
          (s.dev.lba2.cur ++ (s.dev.lba1.cur ++ s.dev.lba0.cur))).setWidth 48 ∧ t.oracle = s.oracle)

/-- A status read of the general device returns the byte the device supplies and changes no device register; the same for
the error register. Past the listed answers some byte is returned, a free value (log 5, the model's form of a draw). That
executing `IN8_ERROR` answers in `MINIMAL` too, where the sequencer never issues it, is the model's choice (log 24). -/
def Obligations.StatusAndErrorReadsAnswer : Prop :=
  ∀ s : State,
    (∀ v rest, s.dev.disks = none → s.oracle.status = v :: rest →
      exec .in8Status s = .next { s with
        oracle := { s.oracle with status := rest }
        trace := .portRead8 (s.cfg.base + 7#16) v :: s.trace }) ∧
    (∃ v o, exec .in8Status s = .next { s with
      oracle := o, trace := .portRead8 (s.cfg.base + 7#16) v :: s.trace }) ∧
    (∀ v rest, s.oracle.error = v :: rest →
      exec .in8Error s = .next { s with
        oracle := { s.oracle with error := rest }
        trace := .portRead8 (s.cfg.base + s.cfg.errRegOff.setWidth 16) v :: s.trace }) ∧
    (∃ v o, exec .in8Error s = .next { s with
      oracle := o, trace := .portRead8 (s.cfg.base + s.cfg.errRegOff.setWidth 16) v :: s.trace })

/-- A data access of the general device moves its stream position by one word; a read returns the word the device supplies,
a write delivers `w`; nothing else changes. That the position moves at every access and the pending command stays,
whatever the count is, is the model's choice (log 23). -/
def Obligations.DataAccessesMoveStream : Prop :=
  ∀ s : State, s.dev.disks = none →
    (∀ w rest, s.oracle.data = w :: rest →
      exec .in16Data s = .next { s with
        dev := { s.dev with pos := s.dev.pos + 1 }
        oracle := { s.oracle with data := rest }
        trace := .portRead16 s.cfg.base w :: s.trace }) ∧
    (∃ w o, exec .in16Data s = .next { s with
      dev := { s.dev with pos := s.dev.pos + 1 }
      oracle := o
      trace := .portRead16 s.cfg.base w :: s.trace }) ∧
    (∀ w, exec (.out16Data w) s = .next { s with
      dev := { s.dev with pos := s.dev.pos + 1 }
      trace := .portWrite16 s.cfg.base w :: s.trace })

/-- The frame of every port transaction, in every state: it completes, it is one event the block may issue, and it changes
neither the parameters, the sequencer's registers, `BUF` among them, nor the request and response interfaces. Only
`OUT16_DATA` and `OUT8_COMMAND` may touch a reference device's disks. -/
def Obligations.PortTransactionFrame : Prop :=
  ∀ (i : Instr) (s : State), isPort i = true → (i = .in8Error → s.cfg.mode = .hardened) →
    ∃ t e, exec i s = .next t ∧ allowedEvent s.cfg e ∧
      t = { s with dev := t.dev, oracle := t.oracle, trace := e :: s.trace } ∧
      ((∀ w, i ≠ .out16Data w) → (∀ v, i ≠ .out8Command v) → t.dev.disks = s.dev.disks)

/-! ## The preamble and the command write -/

/-- The preamble table: at `PSTEP = k`, `k` from 0 to 8, the step issues row `k` of the table and `PSTEP` becomes `k + 1`;
no other sequencer register changes. -/
def Obligations.PreambleFollowsTable : Prop :=
  ∀ (s : State) (drv : Bool) (cnt : CountWord) (lba : LbaWord) (op : Byte) (k : Nat),
    s.seq.phase = .preamble → s.seq.drv = some drv → s.seq.cnt = some cnt → s.seq.lba = some lba →
    s.seq.op = some op → s.seq.pstep = some k → k ≤ 8 →
    ∃ i u, (preambleInstrs s.cfg drv cnt lba op)[k]? = some i ∧ exec i s = .next u ∧
      step s = .next { u with seq := { s.seq with pstep := some (k + 1) } }

/-- The command write: at `PSTEP = 9` the opcode is written unchanged to `COMMAND`, `PHASE` becomes `CMD_ISSUED`, and in
`HARDENED` `POLLS` becomes 0. -/
def Obligations.CommandWriteIssuesOpcode : Prop :=
  ∀ (s : State) (op : Byte), s.seq.phase = .preamble → s.seq.pstep = some 9 → s.seq.op = some op →
    ∃ u, exec (.out8Command op) s = .next u ∧
      step s = .next { u with seq := { s.seq with
        phase := .cmdIssued
        polls := if s.cfg.mode = .hardened then some 0 else s.seq.polls } }

/-- Every accepted request issues exactly nine port writes in the fixed order before the command byte, and no read among
them. -/
def Obligations.NineWritesBeforeCommand : Prop :=
  ∀ (s : State) (drv : Bool) (cnt : CountWord) (lba : LbaWord) (op : Byte),
    s.seq.phase = .preamble → s.seq.pstep = some 0 → s.seq.drv = some drv → s.seq.cnt = some cnt →
    s.seq.lba = some lba → s.seq.op = some op →
    ∃ t u, run 9 s = .next t ∧
      t.trace = ((preambleWrites s.cfg drv cnt lba op).take 9).reverse ++ s.trace ∧
      t.seq = { s.seq with pstep := some 9 } ∧
      step t = .next u ∧ u.trace = .portWrite8 (s.cfg.base + 7#16) op :: t.trace

/-- After the preamble and the command write the device has latched exactly the request: the FIFOs hold the layout of R27
and the pending command is the request's opcode, drive, LBA and count, for 48-bit and 28-bit commands alike, whatever the
register file held before. -/
def Obligations.DeviceLatchesTheRequest : Prop :=
  ∀ (s : State) (op : Byte) (dir : Dir) (drv : Bool) (lba : LbaWord) (cnt : CountWord) (buf : Buffer),
    s.cfg.Legal → Latched s.cfg s.seq op dir drv lba cnt buf → s.seq.phase = .preamble → s.seq.pstep = some 0 →
    ∃ t, run 10 s = .next t ∧ t.seq.phase = .cmdIssued ∧
      t.dev.seccnt = ⟨cnt.extractLsb' 8 8, cnt.extractLsb' 0 8⟩ ∧
      t.dev.lba0 = ⟨lba.extractLsb' 24 8, lba.extractLsb' 0 8⟩ ∧
      t.dev.lba1 = ⟨lba.extractLsb' 32 8, lba.extractLsb' 8 8⟩ ∧
      t.dev.lba2 = ⟨lba.extractLsb' 40 8, lba.extractLsb' 16 8⟩ ∧
      t.dev.pending = some ⟨op, drv, lba.setWidth 48, cnt.toNat⟩ ∧ t.dev.pos = 0

/-! ## The poll -/

/-- The `MINIMAL` poll: one status read; bit 3 of the byte returned moves `PHASE` to `READY`, else nothing of the sequencer
changes, whatever the other bits are. -/
def Obligations.PollWaitsForDrq : Prop :=
  ∀ s : State, s.seq.phase = .cmdIssued → s.cfg.mode = .minimal →
    ∃ u, exec .in8Status s = .next u ∧ ∃ v, u.trace = .portRead8 (s.cfg.base + 7#16) v :: s.trace ∧
      step s = .next { u with seq := { s.seq with phase := if v.getLsbD 3 then .ready else .cmdIssued } }

/-- The `HARDENED` poll: one status read, `POLLS` counts it, and the byte's error bit is checked first, then `DRQ`, then
the deadline. -/
def Obligations.HardenedPollOrder : Prop :=
  ∀ (s : State) (n : Nat), s.seq.phase = .cmdIssued → s.cfg.mode = .hardened → s.seq.polls = some n →
    ∃ u, exec .in8Status s = .next u ∧ ∃ v, u.trace = .portRead8 (s.cfg.base + 7#16) v :: s.trace ∧
      step s = .next { u with seq := { s.seq with
        polls := some (n + 1)
        phase :=
          if v.getLsbD s.cfg.errBit then .error
          else if v.getLsbD 3 then .ready
          else if n + 1 = s.cfg.pollDeadline then .timeout
          else .cmdIssued } }

/-- In `MINIMAL` a request whose device shows no `DRQ` polls forever: after any number of status reads without bit 3 the
sequencer is still in `CMD_ISSUED`, has changed no register and has given no response. -/
def Obligations.NoDrqNoProgress : Prop :=
  ∀ (n : Nat) (s : State) (vs rest : List Byte), s.seq.phase = .cmdIssued → s.cfg.mode = .minimal →
    s.dev.disks = none → s.oracle.status = vs ++ rest → vs.length = n → (∀ v ∈ vs, v.getLsbD 3 = false) →
    run n s = .next { s with
      oracle := { s.oracle with status := rest }
      trace := (vs.map (BusEvent.portRead8 (s.cfg.base + 7#16))).reverse ++ s.trace }

/-! ## The data words -/

/-- `RD_WORD`: the word the device supplies goes to bytes `2 * WIDX` (low lane) and `2 * WIDX + 1` (high lane) of `BUF`,
every other byte stays, `WIDX` moves by one, and the last word gives the response `OK` with `BUF` in the same step. -/
def Obligations.ReadWordFillsBuffer : Prop :=
  ∀ (s : State) (cnt : CountWord) (i : Nat) (buf : Buffer), Inv s → s.seq.phase = .ready → s.seq.dir = some .rd →
    s.seq.cnt = some cnt → s.seq.widx = some i → s.seq.buf = some buf →
    ∃ u, exec .in16Data s = .next u ∧ ∃ w b, u.trace = .portRead16 s.cfg.base w :: s.trace ∧
      b.len = buf.len ∧
      (∀ a, b.mem.read a =
        if a = 2 * i then w.extractLsb' 0 8 else if a = 2 * i + 1 then w.extractLsb' 8 8 else buf.mem.read a) ∧
      step s = .next { u with
        seq := { s.seq with
          buf := some b
          widx := some (i + 1)
          phase := if i + 1 = cnt.toNat * 256 then .idle else .ready }
        responses := if i + 1 = cnt.toNat * 256 then s.responses ++ [⟨.ok, 0#8, b.bytes⟩] else s.responses }

/-- `WR_WORD`: the word made of bytes `2 * WIDX + 1` and `2 * WIDX` of `BUF` is written, `WIDX` moves by one, `BUF` stays,
and the last word gives the response `OK` with an empty payload in the same step. -/
def Obligations.WriteWordSendsBuffer : Prop :=
  ∀ (s : State) (cnt : CountWord) (i : Nat) (buf : Buffer), Inv s → s.seq.phase = .ready → s.seq.dir = some .wr →
    s.seq.cnt = some cnt → s.seq.widx = some i → s.seq.buf = some buf →
    ∃ u, exec (.out16Data (buf.mem.read (2 * i + 1) ++ buf.mem.read (2 * i))) s = .next u ∧
      step s = .next { u with
        seq := { s.seq with
          widx := some (i + 1)
          phase := if i + 1 = cnt.toNat * 256 then .idle else .ready }
        responses := if i + 1 = cnt.toNat * 256 then s.responses ++ [⟨.ok, 0#8, []⟩] else s.responses }

/-- A data step whose bytes lie outside the buffer stops with the fault `BufferBounds` (R39). Which of the word's two
addresses the fault carries is the model's choice (log 28): on a read from the device the even byte if it does not fit,
else the odd one; on a write to the device the odd one. -/
def Obligations.BufferBoundsFault : Prop :=
  ∀ (s : State) (cnt : CountWord) (i : Nat) (buf : Buffer), s.seq.phase = .ready → s.seq.cnt = some cnt →
    s.seq.widx = some i → i < cnt.toNat * 256 → s.seq.buf = some buf →
    (s.seq.dir = some .rd → buf.len ≤ 2 * i → step s = .fault (.bufferBounds (2 * i))) ∧
    (s.seq.dir = some .rd → buf.len = 2 * i + 1 → step s = .fault (.bufferBounds (2 * i + 1))) ∧
    (s.seq.dir = some .wr → buf.len ≤ 2 * i + 1 → step s = .fault (.bufferBounds (2 * i + 1)))

/-! ## The hardened error and timeout steps -/

/-- The `ERROR` step: the error register is read into `ERRV`; a retry left re-runs the sequence from `PSTEP = 0` with the
latched request, else the response is `E_DEVICE` with the value just read and no payload, and `PHASE` is `IDLE`. No
channel reset is asked for. -/
def Obligations.ErrorStepRetriesOrFails : Prop :=
  ∀ (s : State) (n : Nat), s.seq.phase = .error → s.cfg.mode = .hardened → s.seq.tries = some n →
    ∃ u, exec .in8Error s = .next u ∧
      ∃ v, u.trace = .portRead8 (s.cfg.base + s.cfg.errRegOff.setWidth 16) v :: s.trace ∧
      step s = .next (
        if 0 < n then
          { u with seq := { s.seq with
            errv := some v, tries := some (n - 1), pstep := some 0, widx := some 0, phase := .preamble } }
        else
          { u with
            seq := { s.seq with errv := some v, phase := .idle }
            responses := s.responses ++ [⟨.eDevice, v, []⟩] })

/-- The `TIMEOUT` step: `ChannelReset()` is emitted and no port transaction happens; a retry left re-runs the sequence, else
the response is `E_TIMEOUT` with info 0 and no payload. That a reference device's disks stay across `ChannelReset()` is the
model's choice (log 16). -/
def Obligations.TimeoutStepResetsChannel : Prop :=
  ∀ (s : State) (n : Nat), s.seq.phase = .timeout → s.cfg.mode = .hardened → s.seq.tries = some n →
    ∃ (d : Device) (o : Oracle), d.disks = s.dev.disks ∧ o.status = s.oracle.status ∧
      step s = .next (
        let u := { s with dev := d, oracle := o, trace := BusEvent.channelReset :: s.trace }
        if 0 < n then
          { u with seq := { s.seq with
            tries := some (n - 1), pstep := some 0, widx := some 0, phase := .preamble } }
        else
          { u with
            seq := { s.seq with phase := .idle }
            responses := s.responses ++ [⟨.eTimeout, 0#8, []⟩] })

/-! ## Encoding -/

/-- Decoding undoes encoding: every instruction the configuration admits comes back from its encoded form, with every
operand at every value. A read key carries the value 0, the model's choice (log 12). -/
def Obligations.DecodeUndoesEncode : Prop :=
  ∀ (c : Config) (i : Instr), c.Legal → i.admitted c = true → decode c (encode c i) = .instr i

/-- Encoding undoes decoding: an encoded object that decodes is the encoding of what it decodes to, so no instruction has
two encodings. For the port reads this rests on the model's choice that a read key carries the value 0 and any other
value is rejected (log 12). -/
def Obligations.EncodeUndoesDecode : Prop :=
  ∀ (c : Config) (e : Encoded) (i : Instr), c.Legal → decode c e = .instr i → encode c i = e ∧ i.admitted c = true

/-- Reserved encodings are refused by name: every opcode byte but the admitted ones, and every transaction key outside the
table, whatever the operands. -/
def Obligations.ReservedEncodingsRejected : Prop :=
  (∀ (c : Config) (r : Request), r.op ≠ 0x24#8 → r.op ≠ 0x34#8 →
    (c.legacy28 = true → r.op ≠ c.opcRead28 ∧ r.op ≠ c.opcWrite28) →
    decode c (.req r) = .rejected (.illegalOp r.op)) ∧
  (∀ (c : Config) (key : BitVec 5) (value : DataWord), c.Legal →
    key ∉ [0b01000#5, 0b11000#5, 0b10010#5, 0b10011#5, 0b10100#5, 0b10101#5, 0b10110#5, 0b10111#5, 0b00111#5] →
    ¬ (c.mode = .hardened ∧ key = 0b00001#5) →
    decode c (.pio key value) = .rejected (.keyNotIssued key))

/-- Words of the opcode table, written out from the spec's encodings, decode to the instructions they stand for. How a bare
number is read is the model's choice (log 12): below 32 it is a PIO key, else an opcode byte, in the configuration with the
`REF` opcodes and every option on, and operands that have no bits in the table are 0. -/
def Obligations.TableWordsDecode : Prop :=
  decodeTableWord 8 0b00100100 = some (.readSectorsExt ⟨false, 0#64, 0#16, []⟩) ∧
  decodeTableWord 8 0b00110100 = some (.writeSectorsExt ⟨false, 0#64, 0#16, []⟩) ∧
  decodeTableWord 8 0b10010 = some (.out8Seccnt 0#8) ∧
  decodeTableWord 8 0b00111 = some .in8Status ∧
  decodeTableWord 8 0b01000 = some .in16Data ∧
  decodeTableWord 8 0b11111 = none

/-- A step runs the instruction it fetches: in `IDLE` the one waiting request is decoded and executed with the request off
the interface, a request that is no instruction is answered `E_OP`, and outside `IDLE` the transaction the sequencer
issues is executed and the sequencer advances. -/
def Obligations.StepRunsFetchedInstruction : Prop :=
  (∀ (s : State) (r : Request) (i : Instr), s.seq.phase = .idle → s.requests = [r] →
    decode s.cfg (.req r) = .instr i → step s = exec i { s with requests := [] }) ∧
  (∀ (s : State) (r : Request) (e : DecodeError), s.seq.phase = .idle → s.requests = [r] →
    decode s.cfg (.req r) = .rejected e → step s = .next (rejectedState s .eOp)) ∧
  (∀ (s u t : State) (i : Instr), fetch s = .run i u → exec i u = .next t → step s = advance i u t)

/-! ## Invariants and rules about the whole machine -/

/-- The invariant holds at reset. -/
def Obligations.ResetMeetsInvariant : Prop := Inv State.reset

/-- From every state that meets the invariant a step goes on, never to a fault and never to a refusal, and the next state
meets the invariant; the parameters stay. In particular no rule reads a register before it is written, no buffer access
leaves the buffer, and the memories stay in canonical form. -/
def Obligations.StepKeepsInvariant : Prop :=
  ∀ s : State, Inv s → ∃ t, step s = .next t ∧ Inv t ∧ t.cfg = s.cfg

/-- The host's moves keep the invariant: offering a request, taking a response, reset. -/
def Obligations.HostMovesKeepInvariant : Prop :=
  ∀ (s : State) (r : Request), Inv s → Inv (s.offer r) ∧ Inv s.takeResponse.2 ∧ Inv s.hostReset

/-- Executing any instruction in any state goes on and keeps the buffer's and the disks' canonical form. The canonical form
is the model's (log 6: an unlisted byte reads as 0), and that `IN8_ERROR` goes on in `MINIMAL` too is the model's choice
(log 24). -/
def Obligations.ExecKeepsMemoriesCanonical : Prop :=
  ∀ (i : Instr) (s : State),
    (∀ b, s.seq.buf = some b → b.wf) → (∀ ds, s.dev.disks = some ds → ds.wf) →
    ∃ t, exec i s = .next t ∧ (∀ b, t.seq.buf = some b → b.wf) ∧ (∀ ds, t.dev.disks = some ds → ds.wf)

/-- The registers keep the ranges of R18. In every phase: `PSTEP` 0..9, `WIDX` 24 bits (`NW(CNT)` bounds it only while a
request is in progress, since a failed allocation leaves a new `CNT` beside a dead `WIDX`, log 26), `POLLS` at most `POLL_DEADLINE`,
`TRIES` 0..`RETRIES` and so 2 bits, `LBA` bits [63:48] are 0, `CNT` is not 0, `DIR` is the direction of `OP`. While a
request is in progress moreover: `BUF` has `NB(CNT)` bytes, below 2^25, `WIDX` is below `NW(CNT)`, and the registers of
the phase are written, `POLLS` staying below the deadline during the poll. -/
def Obligations.RegistersFitWidths : Prop :=
  ∀ s : State, Inv s →
    (∀ k, s.seq.pstep = some k → k ≤ 9) ∧ (∀ i, s.seq.widx = some i → i < 2 ^ 24) ∧
    (∀ n, s.seq.polls = some n → n ≤ s.cfg.pollDeadline) ∧
    (∀ n, s.seq.tries = some n → n ≤ s.cfg.retries ∧ n < 2 ^ 2) ∧
    (∀ v, s.seq.lba = some v → v.extractLsb' 48 16 = 0#16) ∧ (∀ v, s.seq.cnt = some v → v ≠ 0#16) ∧
    (∀ op, s.seq.op = some op → s.seq.dir = dirOf s.cfg op) ∧
    (s.seq.phase ≠ .idle → ∃ op dir drv lba cnt buf i, s.seq.op = some op ∧ s.seq.dir = some dir ∧ s.seq.drv = some drv ∧
      s.seq.lba = some lba ∧ s.seq.cnt = some cnt ∧ s.seq.buf = some buf ∧ s.seq.widx = some i ∧
      buf.len = cnt.toNat * 512 ∧ buf.len < 2 ^ 25 ∧ i < cnt.toNat * 256 ∧
      (s.seq.phase = .preamble → ∃ k, s.seq.pstep = some k) ∧
      (s.cfg.mode = .hardened → ∃ n, s.seq.tries = some n) ∧
      (s.seq.phase = .cmdIssued → s.cfg.mode = .hardened → ∃ n, s.seq.polls = some n ∧ n < s.cfg.pollDeadline))

/-- Each step is one row of the transition relation: its phases, its condition, its port transaction with the value sent,
and its response. -/
def Obligations.StepFollowsTransitionTable : Prop :=
  ∀ s t : State, s.cfg.Legal → step s = .next t → transitionRow s t

/-- Every step emits at most one event, and only port accesses of the widths, directions and offsets the block may issue,
or a channel reset in `HARDENED`. -/
def Obligations.StepIssuesAllowedAccess : Prop :=
  ∀ s t : State, step s = .next t → t.trace = s.trace ∨ ∃ e, t.trace = e :: s.trace ∧ allowedEvent s.cfg e

/-- No data-port access comes before a status read that returned `DRQ = 1` after the command write: `CMD_ISSUED` is entered
only by the command write, `READY` is entered only from there by such a read, and a data access happens only in `READY`,
where nothing but data accesses happen. -/
def Obligations.DataOnlyAfterDrq : Prop :=
  (∀ s t : State, step s = .next t → s.seq.phase ≠ .cmdIssued → t.seq.phase = .cmdIssued →
    s.seq.phase = .preamble ∧ s.seq.pstep = some 9 ∧
      ∃ op, s.seq.op = some op ∧ t.trace = .portWrite8 (s.cfg.base + 7#16) op :: s.trace) ∧
  (∀ s t : State, step s = .next t → s.seq.phase ≠ .ready → t.seq.phase = .ready →
    s.seq.phase = .cmdIssued ∧
      ∃ v : Byte, v.getLsbD 3 = true ∧ t.trace = .portRead8 (s.cfg.base + 7#16) v :: s.trace) ∧
  (∀ (s t : State) (e : BusEvent), step s = .next t → t.trace = e :: s.trace →
    (isDataEvent e = true ↔ s.seq.phase = .ready))

/-- The reserved `PHASE` codes: finding one faults with `BadPhase`, and no step enters one. -/
def Obligations.ReservedPhasesFault : Prop :=
  (∀ s : State, (s.seq.phase = .reserved6 → step s = .fault (.badPhase 6#3)) ∧
    (s.seq.phase = .reserved7 → step s = .fault (.badPhase 7#3))) ∧
  (∀ s t : State, step s = .next t → t.seq.phase ≠ .reserved6 ∧ t.seq.phase ≠ .reserved7)

/-- In `MINIMAL` the phases are `IDLE`, `PREAMBLE`, `CMD_ISSUED` and `READY`: no step leaves them. -/
def Obligations.MinimalPhasesClosed : Prop :=
  ∀ s t : State, s.cfg.mode = .minimal → step s = .next t →
    t.cfg.mode = .minimal ∧ t.seq.phase ∈ [Phase.idle, .preamble, .cmdIssued, .ready]

/-- A step gives at most one response, and then the request is over: `PHASE` is `IDLE`. `info` is 0 but with `E_DEVICE`, a
response that is not `OK` carries no payload, `E_DEVICE` and `E_TIMEOUT` come only in `HARDENED`. -/
def Obligations.ResponsesAsTabled : Prop :=
  ∀ s t : State, step s = .next t →
    t.responses = s.responses ∨
      ∃ r, t.responses = s.responses ++ [r] ∧ t.seq.phase = .idle ∧ resultOk s.cfg r

/-- The codes of `PHASE` and of the results. -/
def Obligations.CodesAsTabled : Prop :=
  [Phase.idle, .preamble, .cmdIssued, .ready, .error, .timeout].map Phase.code = [0#3, 1#3, 2#3, 3#3, 4#3, 5#3] ∧
  [ResultCode.ok, .eOp, .eCount, .eLba, .eLen, .eAlloc, .eTimeout, .eDevice].map ResultCode.toByte =
    [0x00#8, 0x01#8, 0x02#8, 0x03#8, 0x04#8, 0x05#8, 0x06#8, 0x07#8]

/-- Between requests the sequencer holds nothing a later request reads: states that differ only in dead registers stop
alike, or step to states that differ only in dead registers, with the same transactions and responses. -/
def Obligations.DeadRegistersDoNotMatter : Prop :=
  ∀ s t : State, LiveEq s t → OutRel LiveEq (step s) (step t)

/-- The sequencer depends on no register of the device: states that differ only in the register file, the pending command
and the stream position of a general device step alike. -/
def Obligations.DeviceRegistersDoNotMatter : Prop :=
  ∀ s t : State, SameButDevice s t → OutRel SameButDevice (step s) (step t)

/-! ## Whole requests -/

/-- A read in `MINIMAL`, from the request on the interface to the response: ten writes, the status reads up to the first
with `DRQ`, `count * 256` data reads, no other transaction, and the response `OK` with the bytes of the words in read
order, low byte first. For both read commands. -/
def Obligations.MinimalReadRunsToResponse : Prop :=
  ∀ (s : State) (r : Request) (init : List Byte) (allocs : List (Option (List Byte))) (bs : List Byte) (b : Byte)
    (rest : List Byte) (ws rest' : List DataWord),
    Inv s → s.cfg.mode = .minimal → s.seq.phase = .idle → s.dev.disks = none → s.requests = [r] →
    check s.cfg r.op r.args = .ok → dirOf s.cfg r.op = some .rd →
    s.oracle.alloc = some init :: allocs → s.oracle.status = bs ++ b :: rest →
    (∀ v ∈ bs, v.getLsbD 3 = false) → b.getLsbD 3 = true →
    s.oracle.data = ws ++ rest' → ws.length = r.args.count.toNat * 256 →
    ∃ t, run (1 + 10 + (bs.length + 1) + r.args.count.toNat * 256) s = .next t ∧
      t.seq.phase = .idle ∧ t.responses = s.responses ++ [⟨.ok, 0#8, streamBytes ws⟩] ∧
      t.trace = (preambleWrites s.cfg r.args.drive r.args.count r.args.lba r.op ++
        (bs ++ [b]).map (BusEvent.portRead8 (s.cfg.base + 7#16)) ++
        ws.map (BusEvent.portRead16 s.cfg.base)).reverse ++ s.trace

/-- A write in `MINIMAL`, from the request to the response: ten writes, the status reads up to the first with `DRQ`, then
the words built from the data's consecutive little-endian byte pairs in input order, no other transaction, and the
response `OK` with no payload. For both write commands. -/
def Obligations.MinimalWriteRunsToResponse : Prop :=
  ∀ (s : State) (r : Request) (bs : List Byte) (b : Byte) (rest : List Byte),
    Inv s → s.cfg.mode = .minimal → s.seq.phase = .idle → s.dev.disks = none → s.requests = [r] →
    check s.cfg r.op r.args = .ok → dirOf s.cfg r.op = some .wr →
    s.oracle.status = bs ++ b :: rest → (∀ v ∈ bs, v.getLsbD 3 = false) → b.getLsbD 3 = true →
    ∃ t, run (1 + 10 + (bs.length + 1) + r.args.count.toNat * 256) s = .next t ∧
      t.seq.phase = .idle ∧ t.responses = s.responses ++ [⟨.ok, 0#8, []⟩] ∧
      t.trace = (preambleWrites s.cfg r.args.drive r.args.count r.args.lba r.op ++
        (bs ++ [b]).map (BusEvent.portRead8 (s.cfg.base + 7#16)) ++
        (streamWords r.args.data).map (BusEvent.portWrite16 s.cfg.base)).reverse ++ s.trace

/-- In `HARDENED` every request in progress ends with one response within `(1 + RETRIES) * (10 + POLL_DEADLINE + 1 +
NW(count))` steps, whatever the device answers. -/
def Obligations.HardenedRequestsFinish : Prop :=
  ∀ (s : State) (cnt : CountWord), Inv s → s.cfg.mode = .hardened → s.seq.phase ≠ .idle → s.seq.cnt = some cnt →
    ∃ (k : Nat) (t : State) (r : Response), k ≤ hardenedBound s.cfg cnt ∧ run k s = .next t ∧
      t.seq.phase = .idle ∧ t.responses = s.responses ++ [r]

/-- The reference device stores what a write streams to it: word `k` of the stream goes to bytes `2j` and `2j + 1` of sector
`lba + floor(k / 256)`, `j = k mod 256`, of the pending drive, and every other byte of both disks stays; a read streams
the words back from the same place. The position moves by one, and at the last word the pending command is cleared. -/
def Obligations.ReferenceDeviceStoresAndStreams : Prop :=
  ∀ (s : State) (ds : Disks) (p : Pending), s.dev.disks = some ds → ds.wf → s.dev.pending = some p →
    s.dev.pos < p.count * 256 →
    let addr := 512 * (p.lba.toNat + s.dev.pos / 256) + 2 * (s.dev.pos % 256)
    let left := if s.dev.pos + 1 = p.count * 256 then none else some p
    (∀ w, dirOf s.cfg p.op = some .wr → ∃ ds', exec (.out16Data w) s = .next { s with
        dev := { s.dev with disks := some ds', pos := s.dev.pos + 1, pending := left }
        trace := .portWrite16 s.cfg.base w :: s.trace } ∧
      ∀ d a, (ds'.disk d).read a =
        if d = p.drive ∧ a = addr then w.extractLsb' 0 8
        else if d = p.drive ∧ a = addr + 1 then w.extractLsb' 8 8
        else (ds.disk d).read a) ∧
    (dirOf s.cfg p.op = some .rd → exec .in16Data s = .next { s with
      dev := { s.dev with pos := s.dev.pos + 1, pending := left }
      trace := .portRead16 s.cfg.base ((ds.disk p.drive).read (addr + 1) ++ (ds.disk p.drive).read addr) :: s.trace })

/-- The reference device's status: `0x08` while a command is pending and words of it are left, `0x00` otherwise; nothing
changes but the trace. -/
def Obligations.ReferenceDeviceShowsDrq : Prop :=
  ∀ (s : State) (ds : Disks), s.dev.disks = some ds → s.oracle.status = [] →
    (∀ p, s.dev.pending = some p → s.dev.pos < p.count * 256 →
      exec .in8Status s = .next { s with trace := .portRead8 (s.cfg.base + 7#16) 0x08#8 :: s.trace }) ∧
    (s.dev.pending = none ∨ (∃ p, s.dev.pending = some p ∧ p.count * 256 ≤ s.dev.pos) →
      exec .in8Status s = .next { s with trace := .portRead8 (s.cfg.base + 7#16) 0x00#8 :: s.trace })

/-- The round trip in `MINIMAL` with the reference device: writing `count * 512` bytes to a place inside the drive and then
reading the same place returns the identical bytes; each request makes exactly one status read. -/
def Obligations.ReferenceRoundTrip : Prop :=
  ∀ (s : State) (ds : Disks) (wr rd : Request) (init : List Byte) (allocs : List (Option (List Byte))),
    Inv s → s.cfg.mode = .minimal → s.seq.phase = .idle → s.dev.disks = some ds → s.oracle.status = [] →
    s.requests = [wr] → check s.cfg wr.op wr.args = .ok → dirOf s.cfg wr.op = some .wr →
    check s.cfg rd.op rd.args = .ok → dirOf s.cfg rd.op = some .rd →
    rd.args.drive = wr.args.drive → rd.args.lba = wr.args.lba → rd.args.count = wr.args.count →
    wr.args.lba.toNat + wr.args.count.toNat ≤ capacity s.cfg wr.args.drive →
    s.oracle.alloc = some init :: allocs →
    ∃ t u, run (1 + 10 + 1 + wr.args.count.toNat * 256) s = .next t ∧
      t.seq.phase = .idle ∧ t.responses = s.responses ++ [⟨.ok, 0#8, []⟩] ∧
      run (1 + 10 + 1 + rd.args.count.toNat * 256) (t.offer rd) = .next u ∧
      u.seq.phase = .idle ∧ u.responses = t.responses ++ [⟨.ok, 0#8, wr.args.data⟩]
end

