-- ==== Sys2Proof/Laws/State.lean ====
section
/-! SUPPORT. One lemma per field per update of the state, so that no later proof unfolds a record update. -/

namespace Sys2Proof.Machine

@[simp] theorem State.withSeq_cfg (s : State) (q : Seq) : (s.withSeq q).cfg = s.cfg := rfl
@[simp] theorem State.withSeq_seq (s : State) (q : Seq) : (s.withSeq q).seq = q := rfl
@[simp] theorem State.withSeq_requests (s : State) (q : Seq) : (s.withSeq q).requests = s.requests := rfl
@[simp] theorem State.withSeq_responses (s : State) (q : Seq) : (s.withSeq q).responses = s.responses := rfl
@[simp] theorem State.withSeq_dev (s : State) (q : Seq) : (s.withSeq q).dev = s.dev := rfl
@[simp] theorem State.withSeq_oracle (s : State) (q : Seq) : (s.withSeq q).oracle = s.oracle := rfl
@[simp] theorem State.withSeq_trace (s : State) (q : Seq) : (s.withSeq q).trace = s.trace := rfl

@[simp] theorem State.withDev_cfg (s : State) (d : Device) : (s.withDev d).cfg = s.cfg := rfl
@[simp] theorem State.withDev_seq (s : State) (d : Device) : (s.withDev d).seq = s.seq := rfl
@[simp] theorem State.withDev_requests (s : State) (d : Device) : (s.withDev d).requests = s.requests := rfl
@[simp] theorem State.withDev_responses (s : State) (d : Device) : (s.withDev d).responses = s.responses := rfl
@[simp] theorem State.withDev_dev (s : State) (d : Device) : (s.withDev d).dev = d := rfl
@[simp] theorem State.withDev_oracle (s : State) (d : Device) : (s.withDev d).oracle = s.oracle := rfl
@[simp] theorem State.withDev_trace (s : State) (d : Device) : (s.withDev d).trace = s.trace := rfl

@[simp] theorem State.withOracle_cfg (s : State) (o : Oracle) : (s.withOracle o).cfg = s.cfg := rfl
@[simp] theorem State.withOracle_seq (s : State) (o : Oracle) : (s.withOracle o).seq = s.seq := rfl
@[simp] theorem State.withOracle_requests (s : State) (o : Oracle) : (s.withOracle o).requests = s.requests := rfl
@[simp] theorem State.withOracle_responses (s : State) (o : Oracle) : (s.withOracle o).responses = s.responses := rfl
@[simp] theorem State.withOracle_dev (s : State) (o : Oracle) : (s.withOracle o).dev = s.dev := rfl
@[simp] theorem State.withOracle_oracle (s : State) (o : Oracle) : (s.withOracle o).oracle = o := rfl
@[simp] theorem State.withOracle_trace (s : State) (o : Oracle) : (s.withOracle o).trace = s.trace := rfl

@[simp] theorem State.withRequests_cfg (s : State) (rs : List Request) : (s.withRequests rs).cfg = s.cfg := rfl
@[simp] theorem State.withRequests_seq (s : State) (rs : List Request) : (s.withRequests rs).seq = s.seq := rfl
@[simp] theorem State.withRequests_requests (s : State) (rs : List Request) : (s.withRequests rs).requests = rs := rfl
@[simp] theorem State.withRequests_responses (s : State) (rs : List Request) : (s.withRequests rs).responses = s.responses := rfl
@[simp] theorem State.withRequests_dev (s : State) (rs : List Request) : (s.withRequests rs).dev = s.dev := rfl
@[simp] theorem State.withRequests_oracle (s : State) (rs : List Request) : (s.withRequests rs).oracle = s.oracle := rfl
@[simp] theorem State.withRequests_trace (s : State) (rs : List Request) : (s.withRequests rs).trace = s.trace := rfl

@[simp] theorem State.emit_cfg (s : State) (e : BusEvent) : (s.emit e).cfg = s.cfg := rfl
@[simp] theorem State.emit_seq (s : State) (e : BusEvent) : (s.emit e).seq = s.seq := rfl
@[simp] theorem State.emit_requests (s : State) (e : BusEvent) : (s.emit e).requests = s.requests := rfl
@[simp] theorem State.emit_responses (s : State) (e : BusEvent) : (s.emit e).responses = s.responses := rfl
@[simp] theorem State.emit_dev (s : State) (e : BusEvent) : (s.emit e).dev = s.dev := rfl
@[simp] theorem State.emit_oracle (s : State) (e : BusEvent) : (s.emit e).oracle = s.oracle := rfl
@[simp] theorem State.emit_trace (s : State) (e : BusEvent) : (s.emit e).trace = e :: s.trace := rfl

@[simp] theorem State.setPhase_cfg (s : State) (p : Phase) : (s.setPhase p).cfg = s.cfg := rfl
@[simp] theorem State.setPhase_seq (s : State) (p : Phase) : (s.setPhase p).seq = { s.seq with phase := p } := rfl
@[simp] theorem State.setPhase_requests (s : State) (p : Phase) : (s.setPhase p).requests = s.requests := rfl
@[simp] theorem State.setPhase_responses (s : State) (p : Phase) : (s.setPhase p).responses = s.responses := rfl
@[simp] theorem State.setPhase_dev (s : State) (p : Phase) : (s.setPhase p).dev = s.dev := rfl
@[simp] theorem State.setPhase_oracle (s : State) (p : Phase) : (s.setPhase p).oracle = s.oracle := rfl
@[simp] theorem State.setPhase_trace (s : State) (p : Phase) : (s.setPhase p).trace = s.trace := rfl

@[simp] theorem State.respond_cfg (s : State) (c : ResultCode) (i : Byte) (p : List Byte) : (s.respond c i p).cfg = s.cfg := rfl
@[simp] theorem State.respond_seq (s : State) (c : ResultCode) (i : Byte) (p : List Byte) : (s.respond c i p).seq = s.seq := rfl
@[simp] theorem State.respond_requests (s : State) (c : ResultCode) (i : Byte) (p : List Byte) : (s.respond c i p).requests = s.requests := rfl
@[simp] theorem State.respond_responses (s : State) (c : ResultCode) (i : Byte) (p : List Byte) : (s.respond c i p).responses = s.responses ++ [⟨c, i, p⟩] := rfl
@[simp] theorem State.respond_dev (s : State) (c : ResultCode) (i : Byte) (p : List Byte) : (s.respond c i p).dev = s.dev := rfl
@[simp] theorem State.respond_oracle (s : State) (c : ResultCode) (i : Byte) (p : List Byte) : (s.respond c i p).oracle = s.oracle := rfl
@[simp] theorem State.respond_trace (s : State) (c : ResultCode) (i : Byte) (p : List Byte) : (s.respond c i p).trace = s.trace := rfl

@[simp] theorem State.offer_cfg (s : State) (r : Request) : (s.offer r).cfg = s.cfg := rfl
@[simp] theorem State.offer_seq (s : State) (r : Request) : (s.offer r).seq = s.seq := rfl
@[simp] theorem State.offer_requests (s : State) (r : Request) : (s.offer r).requests = s.requests ++ [r] := rfl
@[simp] theorem State.offer_responses (s : State) (r : Request) : (s.offer r).responses = s.responses := rfl
@[simp] theorem State.offer_dev (s : State) (r : Request) : (s.offer r).dev = s.dev := rfl
@[simp] theorem State.offer_oracle (s : State) (r : Request) : (s.offer r).oracle = s.oracle := rfl
@[simp] theorem State.offer_trace (s : State) (r : Request) : (s.offer r).trace = s.trace := rfl

@[simp] theorem State.hostReset_cfg (s : State) : (s.hostReset).cfg = s.cfg := rfl
@[simp] theorem State.hostReset_seq (s : State) : (s.hostReset).seq = Seq.reset := rfl
@[simp] theorem State.hostReset_requests (s : State) : (s.hostReset).requests = s.requests := rfl
@[simp] theorem State.hostReset_responses (s : State) : (s.hostReset).responses = [] := rfl
@[simp] theorem State.hostReset_dev (s : State) : (s.hostReset).dev = s.dev.scramble s.oracle.draws := rfl
@[simp] theorem State.hostReset_oracle (s : State) : (s.hostReset).oracle = s.oracle.skip := rfl
@[simp] theorem State.hostReset_trace (s : State) : (s.hostReset).trace = s.trace := rfl

@[simp] theorem endRequest_cfg (s : State) (c : ResultCode) (i : Byte) (p : List Byte) : (endRequest s c i p).cfg = s.cfg := rfl
@[simp] theorem endRequest_seq (s : State) (c : ResultCode) (i : Byte) (p : List Byte) : (endRequest s c i p).seq = { s.seq with phase := .idle } := rfl
@[simp] theorem endRequest_requests (s : State) (c : ResultCode) (i : Byte) (p : List Byte) : (endRequest s c i p).requests = s.requests := rfl
@[simp] theorem endRequest_responses (s : State) (c : ResultCode) (i : Byte) (p : List Byte) : (endRequest s c i p).responses = s.responses ++ [⟨c, i, p⟩] := rfl
@[simp] theorem endRequest_dev (s : State) (c : ResultCode) (i : Byte) (p : List Byte) : (endRequest s c i p).dev = s.dev := rfl
@[simp] theorem endRequest_oracle (s : State) (c : ResultCode) (i : Byte) (p : List Byte) : (endRequest s c i p).oracle = s.oracle := rfl
@[simp] theorem endRequest_trace (s : State) (c : ResultCode) (i : Byte) (p : List Byte) : (endRequest s c i p).trace = s.trace := rfl

@[simp] theorem raise_cfg (s : State) (c : ResultCode) (i : Byte) : (raise s c i).cfg = s.cfg := rfl
@[simp] theorem raise_seq (s : State) (c : ResultCode) (i : Byte) : (raise s c i).seq = { s.seq with phase := .idle } := rfl
@[simp] theorem raise_requests (s : State) (c : ResultCode) (i : Byte) : (raise s c i).requests = s.requests := rfl
@[simp] theorem raise_responses (s : State) (c : ResultCode) (i : Byte) : (raise s c i).responses = s.responses ++ [⟨c, i, []⟩] := rfl
@[simp] theorem raise_dev (s : State) (c : ResultCode) (i : Byte) : (raise s c i).dev = s.dev := rfl
@[simp] theorem raise_oracle (s : State) (c : ResultCode) (i : Byte) : (raise s c i).oracle = s.oracle := rfl
@[simp] theorem raise_trace (s : State) (c : ResultCode) (i : Byte) : (raise s c i).trace = s.trace := rfl

@[simp] theorem retry_cfg (s : State) (n : Nat) : (retry s n).cfg = s.cfg := rfl
@[simp] theorem retry_seq (s : State) (n : Nat) : (retry s n).seq = { s.seq with tries := some (n - 1), pstep := some 0, widx := some 0, phase := .preamble } := rfl
@[simp] theorem retry_requests (s : State) (n : Nat) : (retry s n).requests = s.requests := rfl
@[simp] theorem retry_responses (s : State) (n : Nat) : (retry s n).responses = s.responses := rfl
@[simp] theorem retry_dev (s : State) (n : Nat) : (retry s n).dev = s.dev := rfl
@[simp] theorem retry_oracle (s : State) (n : Nat) : (retry s n).oracle = s.oracle := rfl
@[simp] theorem retry_trace (s : State) (n : Nat) : (retry s n).trace = s.trace := rfl

@[simp] theorem channelReset_cfg (s : State) : (channelReset s).cfg = s.cfg := rfl
@[simp] theorem channelReset_seq (s : State) : (channelReset s).seq = s.seq := rfl
@[simp] theorem channelReset_requests (s : State) : (channelReset s).requests = s.requests := rfl
@[simp] theorem channelReset_responses (s : State) : (channelReset s).responses = s.responses := rfl
@[simp] theorem channelReset_dev (s : State) : (channelReset s).dev = s.dev.scramble s.oracle.draws := rfl
@[simp] theorem channelReset_oracle (s : State) : (channelReset s).oracle = s.oracle.skip := rfl
@[simp] theorem channelReset_trace (s : State) : (channelReset s).trace = .channelReset :: s.trace := rfl

@[simp] theorem portWrite8_cfg (s : State) (off : PortOff) (v : Byte) (d : Device) : (portWrite8 s off v d).cfg = s.cfg := rfl
@[simp] theorem portWrite8_seq (s : State) (off : PortOff) (v : Byte) (d : Device) : (portWrite8 s off v d).seq = s.seq := rfl
@[simp] theorem portWrite8_requests (s : State) (off : PortOff) (v : Byte) (d : Device) : (portWrite8 s off v d).requests = s.requests := rfl
@[simp] theorem portWrite8_responses (s : State) (off : PortOff) (v : Byte) (d : Device) : (portWrite8 s off v d).responses = s.responses := rfl
@[simp] theorem portWrite8_dev (s : State) (off : PortOff) (v : Byte) (d : Device) : (portWrite8 s off v d).dev = d := rfl
@[simp] theorem portWrite8_oracle (s : State) (off : PortOff) (v : Byte) (d : Device) : (portWrite8 s off v d).oracle = s.oracle := rfl
@[simp] theorem portWrite8_trace (s : State) (off : PortOff) (v : Byte) (d : Device) : (portWrite8 s off v d).trace = .portWrite8 (portAddr s.cfg off) v :: s.trace := rfl

@[simp] theorem portRead8_cfg (s : State) (off : PortOff) (ans : Byte × Oracle) : (portRead8 s off ans).cfg = s.cfg := rfl
@[simp] theorem portRead8_seq (s : State) (off : PortOff) (ans : Byte × Oracle) : (portRead8 s off ans).seq = s.seq := rfl
@[simp] theorem portRead8_requests (s : State) (off : PortOff) (ans : Byte × Oracle) : (portRead8 s off ans).requests = s.requests := rfl
@[simp] theorem portRead8_responses (s : State) (off : PortOff) (ans : Byte × Oracle) : (portRead8 s off ans).responses = s.responses := rfl
@[simp] theorem portRead8_dev (s : State) (off : PortOff) (ans : Byte × Oracle) : (portRead8 s off ans).dev = s.dev := rfl
@[simp] theorem portRead8_oracle (s : State) (off : PortOff) (ans : Byte × Oracle) : (portRead8 s off ans).oracle = ans.2 := rfl
@[simp] theorem portRead8_trace (s : State) (off : PortOff) (ans : Byte × Oracle) : (portRead8 s off ans).trace = .portRead8 (portAddr s.cfg off) ans.1 :: s.trace := rfl

/-! Registers. -/

@[simp] theorem readReg_some {α β : Type} (stop : Fault → β) (r : SeqReg) (a : α) (k : α → β) :
    readReg stop r (some a) k = k a := rfl

@[simp] theorem readReg_none {α β : Type} (stop : Fault → β) (r : SeqReg) (k : α → β) :
    readReg stop r none k = stop (.unwritten r) := rfl

/-- A register read that goes on to a next state read a written register. -/
theorem readReg_fault_eq_next {α : Type} {r : SeqReg} {v : Option α} {k : α → Out State} {t : State}
    (h : readReg .fault r v k = .next t) : ∃ a, v = some a ∧ k a = .next t := by
  cases v with
  | none => cases h
  | some a => exact ⟨a, rfl, h⟩

/-- A register read on the way to an instruction read a written register. -/
theorem readReg_stop_eq_run {α : Type} {r : SeqReg} {v : Option α} {k : α → Fetch} {i : Instr} {t : State}
    (h : readReg .stop r v k = .run i t) : ∃ a, v = some a ∧ k a = .run i t := by
  cases v with
  | none => cases h
  | some a => exact ⟨a, rfl, h⟩

end Sys2Proof.Machine
end

