-- ==== Sys2Proof/Laws/Memory.lean ====
section
/-! SUPPORT. Laws of byte memory, of the transfer buffer and of the reference disks: read after write, and that every operation keeps the canonical form. -/

namespace Sys2Proof.Machine

/-- A cell list that starts above `a` reads as unlisted at `a`. -/
theorem readCells_of_lt {l : List Host.Cell} {a : Nat} (h : ∀ x ∈ l, a < x.1) :
    readCells l a = Memory.unlisted := by
  induction l with
  | nil => rfl
  | cons c t ih =>
    have hc := h c (by simp)
    rw [readCells, if_neg (by omega)]
    exact ih fun x hx => h x (by simp [hx])

/-- The addresses of a written cell list. -/
theorem mem_writeCells {l : List Host.Cell} {a : Nat} {v : Byte} {x : Host.Cell} (h : x ∈ writeCells l a v) :
    x ∈ l ∨ (x = (a, v) ∧ v ≠ Memory.unlisted) := by
  induction l with
  | nil =>
    unfold writeCells at h
    split at h
    · simp at h
    · next hv => exact .inr ⟨by simpa using h, hv⟩
  | cons c t ih =>
    obtain ⟨b, w⟩ := c
    unfold writeCells at h
    split_ifs at h with h1 h2 h3 h4 <;> simp only [List.mem_cons] at h ⊢
    · tauto
    · rcases h with h | h | h <;> tauto
    · tauto
    · rcases h with h | h <;> tauto
    · rcases h with h | h
      · tauto
      · rcases ih h with h | h <;> tauto

theorem writeCells_wf {l : List Host.Cell} {a : Nat} {v : Byte} (h : (⟨l⟩ : Memory).wf) :
    (⟨writeCells l a v⟩ : Memory).wf := by
  refine ⟨?_, fun x hx => ?_⟩
  · have hp := h.1
    clear h
    induction l with
    | nil =>
      unfold writeCells
      split <;> simp
    | cons c t ih =>
      obtain ⟨b, w⟩ := c
      simp only [List.pairwise_cons] at hp
      simp only [writeCells]
      split_ifs with h1 h2 h3 h4 <;> try simp only [List.pairwise_cons, List.mem_cons]
      · exact hp
      · refine ⟨fun x hx => ?_, hp⟩
        rcases hx with rfl | hx
        · exact h1
        · exact lt_trans h1 (hp.1 x hx)
      · exact hp.2
      · subst h3
        exact ⟨fun x hx => hp.1 x hx, hp.2⟩
      · refine ⟨fun x hx => ?_, ih hp.2⟩
        rcases mem_writeCells hx with hx | ⟨rfl, -⟩
        · exact hp.1 x hx
        · simp only
          omega
  · rcases mem_writeCells hx with hx | ⟨rfl, hv⟩
    · exact h.2 x hx
    · exact hv

/-- Writing a byte keeps the canonical form. -/
theorem Memory.write_wf {m : Memory} (h : m.wf) (a : Nat) (v : Byte) : (m.write a v).wf := writeCells_wf h

theorem readCells_writeCells {l : List Host.Cell} (h : l.Pairwise (fun x y => x.1 < y.1)) (a : Nat) (v : Byte)
    (b : Nat) : readCells (writeCells l a v) b = if b = a then v else readCells l b := by
  induction l with
  | nil =>
    unfold writeCells
    split_ifs with h1 h2 h2 <;> simp_all [readCells, eq_comm]
  | cons c t ih =>
    obtain ⟨x, w⟩ := c
    simp only [List.pairwise_cons] at h
    have hx : ∀ y, y ≤ x → readCells t y = Memory.unlisted := fun y hy =>
      readCells_of_lt fun z hz => lt_of_le_of_lt hy (h.1 z hz)
    have hih := ih h.2
    simp only [writeCells]
    rcases lt_trichotomy a x with h1 | h1 | h1
    · rw [if_pos h1]
      by_cases hv : v = Memory.unlisted
      · rw [if_pos hv]
        by_cases hb : b = a
        · rw [if_pos hb, hb, hv, readCells, if_neg (by omega), hx a (by omega)]
        · rw [if_neg hb]
      · rw [if_neg hv, readCells]
        simp only [eq_comm]
    · subst h1
      rw [if_neg (lt_irrefl a), if_pos rfl, readCells]
      by_cases hv : v = Memory.unlisted
      · rw [if_pos hv]
        by_cases hb : b = a
        · rw [if_pos hb, hb, hv, hx a le_rfl]
        · rw [if_neg hb, if_neg (Ne.symm hb)]
      · rw [if_neg hv, readCells]
        by_cases hb : b = a
        · rw [if_pos hb, if_pos hb.symm]
        · rw [if_neg hb, if_neg (Ne.symm hb), if_neg (Ne.symm hb)]
    · rw [if_neg (by omega), if_neg (by omega), readCells, readCells, hih]
      by_cases hb : x = b
      · rw [if_pos hb, if_pos hb, if_neg (by omega)]
      · rw [if_neg hb, if_neg hb]

/-- Read after write: the written byte, and every other byte as before. -/
theorem Memory.read_write {m : Memory} (h : m.wf) (a : Nat) (v : Byte) (b : Nat) :
    (m.write a v).read b = if b = a then v else m.read b := readCells_writeCells h.1 a v b

/-- Two memories in canonical form that read alike are equal. -/
theorem Memory.eq_of_read {m n : Memory} (hm : m.wf) (hn : n.wf) (h : ∀ a, m.read a = n.read a) : m = n := by
  obtain ⟨l⟩ := m
  obtain ⟨k⟩ := n
  congr 1
  simp only [Memory.read] at h
  induction l generalizing k with
  | nil =>
    cases k with
    | nil => rfl
    | cons c t =>
      obtain ⟨b, w⟩ := c
      have hw := hn.2 (b, w) (by simp)
      have hb := h b
      simp [readCells] at hb
      exact absurd hb.symm hw
  | cons c t ih =>
    obtain ⟨b, w⟩ := c
    have hp := hm.1
    simp only [List.pairwise_cons] at hp
    have hw := hm.2 (b, w) (by simp)
    cases k with
    | nil =>
      have hb := h b
      simp [readCells] at hb
      exact absurd hb hw
    | cons c' t' =>
      obtain ⟨b', w'⟩ := c'
      have hp' := hn.1
      simp only [List.pairwise_cons] at hp'
      have hw' := hn.2 (b', w') (by simp)
      have hlt : ∀ y, y ≤ b → readCells t y = Memory.unlisted := fun y hy =>
        readCells_of_lt fun z hz => lt_of_le_of_lt hy (hp.1 z hz)
      have hlt' : ∀ y, y ≤ b' → readCells t' y = Memory.unlisted := fun y hy =>
        readCells_of_lt fun z hz => lt_of_le_of_lt hy (hp'.1 z hz)
      have hbb : b = b' := by
        rcases lt_trichotomy b b' with hl | he | hl
        · have := h b
          simp only [readCells, if_true, if_neg (by omega : ¬ b' = b), hlt' b (by omega)] at this
          exact absurd this hw
        · exact he
        · have := h b'
          simp only [readCells, if_true, if_neg (by omega : ¬ b = b'), hlt b' (by omega)] at this
          exact absurd this.symm hw'
      subst hbb
      have hww := h b
      simp only [readCells, if_true] at hww
      subst hww
      rw [ih ⟨hp.2, fun x hx => hm.2 x (by simp [hx])⟩ t' ⟨hp'.2, fun x hx => hn.2 x (by simp [hx])⟩]
      intro a
      by_cases hab : b = a
      · subst hab
        rw [hlt b le_rfl, hlt' b le_rfl]
      · have := h a
        simpa only [readCells, if_neg hab] using this

theorem cellsOf_ge {i : Nat} {bs : List Byte} {x : Host.Cell} (h : x ∈ cellsOf i bs) :
    i ≤ x.1 ∧ x.1 < i + bs.length ∧ x.2 ≠ Memory.unlisted := by
  induction bs generalizing i with
  | nil => simp [cellsOf] at h
  | cons v t ih =>
    unfold cellsOf at h
    split at h
    · obtain ⟨h1, h2, h3⟩ := ih h
      simp only [List.length_cons]
      exact ⟨by omega, by omega, h3⟩
    · next hv =>
      rcases List.mem_cons.1 h with rfl | h
      · simp_all
      · obtain ⟨h1, h2, h3⟩ := ih h
        simp only [List.length_cons]
        exact ⟨by omega, by omega, h3⟩

theorem cellsOf_pairwise (i : Nat) (bs : List Byte) : (cellsOf i bs).Pairwise (fun x y => x.1 < y.1) := by
  induction bs generalizing i with
  | nil => simp [cellsOf]
  | cons v t ih =>
    unfold cellsOf
    split
    · exact ih _
    · refine List.pairwise_cons.2 ⟨fun x hx => ?_, ih _⟩
      have := (cellsOf_ge hx).1
      simp only
      omega

theorem readCells_cellsOf (i : Nat) (bs : List Byte) (a : Nat) :
    readCells (cellsOf i bs) (i + a) = bs.getD a Memory.unlisted := by
  induction bs generalizing i a with
  | nil => rfl
  | cons v t ih =>
    unfold cellsOf
    cases a with
    | zero =>
      split
      · next hv =>
        rw [readCells_of_lt fun x hx => by have := (cellsOf_ge hx).1; omega]
        simp [hv]
      · simp [readCells]
    | succ a =>
      have h1 : i + (a + 1) = (i + 1) + a := by omega
      split
      · rw [h1, ih]
        simp
      · rw [readCells, if_neg (by omega), h1, ih]
        simp

/-- A buffer filled from bytes is in canonical form. -/
theorem Buffer.ofBytes_wf (n : Nat) (bs : List Byte) : (Buffer.ofBytes n bs).wf := by
  refine ⟨⟨cellsOf_pairwise _ _, fun x hx => (cellsOf_ge hx).2.2⟩, fun x hx => ?_⟩
  have := (cellsOf_ge hx).2.1
  simp only [List.length_take] at this
  simp only [Buffer.ofBytes]
  omega

@[simp] theorem Buffer.ofBytes_len (n : Nat) (bs : List Byte) : (Buffer.ofBytes n bs).len = n := rfl

/-- A buffer filled from bytes reads as those bytes. -/
theorem Buffer.ofBytes_read (n : Nat) (bs : List Byte) (a : Nat) :
    (Buffer.ofBytes n bs).mem.read a = (bs.take n).getD a Memory.unlisted := by
  have := readCells_cellsOf 0 (bs.take n) a
  rwa [Nat.zero_add] at this

/-- A read inside the buffer gives its byte. -/
theorem Buffer.read_of_lt {b : Buffer} {a : Nat} (h : a < b.len) : b.read a = some (b.mem.read a) := if_pos h

/-- A write inside the buffer happens. -/
theorem Buffer.write_of_lt {b : Buffer} {a : Nat} (h : a < b.len) (v : Byte) :
    b.write a v = some ⟨b.len, b.mem.write a v⟩ := if_pos h

/-- What a buffer write that happens does. -/
theorem Buffer.write_eq_some {b c : Buffer} {a : Nat} {v : Byte} (h : b.write a v = some c) :
    a < b.len ∧ c = ⟨b.len, b.mem.write a v⟩ := by
  unfold Buffer.write at h
  split at h
  · exact ⟨‹_›, by simpa using h.symm⟩
  · cases h

/-- A write inside the buffer keeps its canonical form. -/
theorem Buffer.write_wf {b c : Buffer} {a : Nat} {v : Byte} (hb : b.wf) (h : b.write a v = some c) : c.wf := by
  obtain ⟨ha, rfl⟩ := Buffer.write_eq_some h
  refine ⟨Memory.write_wf hb.1 a v, fun x hx => ?_⟩
  rcases mem_writeCells hx with hx | ⟨rfl, -⟩
  · exact hb.2 x hx
  · exact ha

@[simp] theorem Buffer.bytes_length (b : Buffer) : b.bytes.length = b.len := by simp [Buffer.bytes]

theorem Buffer.bytes_getElem (b : Buffer) (a : Nat) (h : a < b.bytes.length) : b.bytes[a] = b.mem.read a := by
  simp [Buffer.bytes]

/-- A buffer filled with exactly its length of bytes holds those bytes. -/
theorem Buffer.bytes_ofBytes {n : Nat} {bs : List Byte} (h : bs.length = n) : (Buffer.ofBytes n bs).bytes = bs := by
  refine List.ext_getElem (by simp [h]) fun a h1 h2 => ?_
  rw [Buffer.bytes_getElem, Buffer.ofBytes_read, ← h, List.take_length, List.getD_eq_getElem _ _ h2]

/-- Storing a stream word keeps the disks' canonical form. -/
theorem Disks.putWord_wf {ds : Disks} (h : ds.wf) (p : Pending) (k : Nat) (w : DataWord) : (ds.putWord p k w).wf := by
  unfold Disks.putWord Disks.setDisk Disks.disk
  split
  · exact ⟨h.1, Memory.write_wf (Memory.write_wf h.2 _ _) _ _⟩
  · exact ⟨Memory.write_wf (Memory.write_wf h.1 _ _) _ _, h.2⟩

theorem Disks.disk_wf {ds : Disks} (h : ds.wf) (d : Bool) : (ds.disk d).wf := by
  cases d
  · exact h.1
  · exact h.2

@[simp] theorem Disks.disk_setDisk_same (ds : Disks) (d : Bool) (m : Memory) : (ds.setDisk d m).disk d = m := by
  cases d <;> rfl

theorem Disks.disk_setDisk_other (ds : Disks) {d e : Bool} (h : e ≠ d) (m : Memory) :
    (ds.setDisk d m).disk e = ds.disk e := by
  cases d <;> cases e <;> simp_all [Disks.setDisk, Disks.disk]

/-- Word `k` of a transfer sits at byte `2k` past the first byte of its first sector. -/
theorem diskAddr_eq (lba k : Nat) : diskAddr lba k = 512 * lba + 2 * k := by
  unfold diskAddr Config.sectorBytes Config.wordsPerSector
  omega

/-- The bytes of the reference disks after one stream word is stored. -/
theorem Disks.read_putWord {ds : Disks} (h : ds.wf) (p : Pending) (k : Nat) (w : DataWord) (d : Bool) (a : Nat) :
    ((ds.putWord p k w).disk d).read a =
      if d = p.drive ∧ a = diskAddr p.lba.toNat k then lane0 w
      else if d = p.drive ∧ a = diskAddr p.lba.toNat k + 1 then lane1 w
      else (ds.disk d).read a := by
  unfold Disks.putWord
  by_cases hd : d = p.drive
  · subst hd
    rw [Disks.disk_setDisk_same, Memory.read_write (Memory.write_wf (Disks.disk_wf h _) _ _),
      Memory.read_write (Disks.disk_wf h _)]
    simp only [true_and]
    split_ifs <;> first | rfl | omega
  · rw [Disks.disk_setDisk_other _ hd]
    simp [hd]

/-- The memory that lists nothing is in canonical form. -/
theorem Memory.empty_wf : Memory.empty.wf := ⟨List.Pairwise.nil, fun x hx => by simp [Memory.empty] at hx⟩

/-- Every memory of the state after reset is in canonical form: there is none yet. -/
theorem reset_memories_wf :
    (∀ b, State.reset.seq.buf = some b → b.wf) ∧ (∀ ds, State.reset.dev.disks = some ds → ds.wf) :=
  ⟨fun _ h => (by cases h), fun _ h => (by cases h)⟩

end Sys2Proof.Machine
end

