-- ==== Sys2Proof/Laws/Operands.lean ====
section
/-! SUPPORT. Laws of operand assembly: lanes and words, the bytes of a count and of an LBA put together again, and the acceptance checks. -/

namespace Sys2Proof.Machine

/-- The bits of byte `k` of a field. -/
theorem getLsbD_byteOf {n : Nat} (k : Nat) (v : BitVec n) (i : Nat) :
    (byteOf k v).getLsbD i = (decide (i < 8) && v.getLsbD (8 * k + i)) := by
  simp [byteOf, BitVec.getLsbD_extractLsb']

/-- The bits of a word made of two lanes. -/
theorem getLsbD_joinLanes (hi lo : Byte) (i : Nat) :
    (joinLanes hi lo).getLsbD i = if i < 8 then lo.getLsbD i else hi.getLsbD (i - 8) := BitVec.getLsbD_append

@[simp] theorem lane0_joinLanes (hi lo : Byte) : lane0 (joinLanes hi lo) = lo := by
  refine BitVec.eq_of_getLsbD_eq fun i h => ?_
  rw [lane0, getLsbD_byteOf, getLsbD_joinLanes]
  simp [h]

@[simp] theorem lane1_joinLanes (hi lo : Byte) : lane1 (joinLanes hi lo) = hi := by
  refine BitVec.eq_of_getLsbD_eq fun i h => ?_
  rw [lane1, getLsbD_byteOf, getLsbD_joinLanes]
  simp [h]

/-- A word is its two lanes (R100, R105). -/
@[simp] theorem joinLanes_lanes (w : DataWord) : joinLanes (lane1 w) (lane0 w) = w := by
  refine BitVec.eq_of_getLsbD_eq fun i h => ?_
  rw [lane0, lane1, getLsbD_joinLanes, getLsbD_byteOf, getLsbD_byteOf]
  by_cases h8 : i < 8
  · simp [h8]
  · rw [if_neg h8, show 8 * 1 + (i - 8) = i by omega, decide_eq_true (by omega), Bool.true_and]

/-- The count is its two bytes (R27, R67). -/
theorem count_bytes (cnt : CountWord) : countHi cnt ++ countLo cnt = cnt := joinLanes_lanes cnt

/-- The low 48 bits of an LBA are its six bytes (R27, R68). -/
theorem lba_bytes (lba : LbaWord) :
    (lbaHi 2 lba ++ (lbaHi 1 lba ++ (lbaHi 0 lba ++ (lbaLo 2 lba ++ (lbaLo 1 lba ++ lbaLo 0 lba)))) : BitVec 48)
      = lba.setWidth 48 := by
  refine BitVec.eq_of_getLsbD_eq fun i h => ?_
  have append : ∀ {n m : Nat} (x : BitVec n) (y : BitVec m) (i : Nat),
      (x ++ y).getLsbD i = if i < m then y.getLsbD i else x.getLsbD (i - m) := fun _ _ _ => BitVec.getLsbD_append
  rw [show (lba.setWidth 48).getLsbD i = lba.getLsbD i by simp [h]]
  refine Eq.trans (append _ _ _) ?_
  rw [append, append, append, append]
  simp only [lbaHi, lbaLo, getLsbD_byteOf]
  split_ifs <;> rw [decide_eq_true (by omega), Bool.true_and] <;> congr 1 <;> omega

/-- The low 24 bits of an LBA are the three bytes of its low triplet (R68). -/
theorem lba_low_bytes (lba : LbaWord) :
    (lbaLo 2 lba ++ (lbaLo 1 lba ++ lbaLo 0 lba) : BitVec 24) = lba.setWidth 24 := by
  refine BitVec.eq_of_getLsbD_eq fun i h => ?_
  have append : ∀ {n m : Nat} (x : BitVec n) (y : BitVec m) (i : Nat),
      (x ++ y).getLsbD i = if i < m then y.getLsbD i else x.getLsbD (i - m) := fun _ _ _ => BitVec.getLsbD_append
  rw [show (lba.setWidth 24).getLsbD i = lba.getLsbD i by simp [h]]
  refine Eq.trans (append _ _ _) ?_
  rw [append]
  simp only [lbaLo, getLsbD_byteOf]
  split_ifs <;> rw [decide_eq_true (by omega), Bool.true_and] <;> congr 1 <;> omega

theorem nb_eq (cnt : CountWord) : nb cnt = 2 * nw cnt := by
  unfold nb nw Config.sectorBytes Config.wordsPerSector
  omega

/-- What a passed check says (R71, R123). -/
theorem check_ok {c : Config} {op : Byte} {a : ReqArgs} (h : check c op a = .ok) :
    ∃ d, dirOf c op = some d ∧ 1 ≤ a.count.toNat ∧ a.lba.toNat < 2 ^ 48 ∧
      (is28 c op = true → a.lba.toNat < 2 ^ 24 ∧ a.count.toNat ≤ 256) ∧
      (d = .wr → a.data.length = nb a.count) ∧ (d = .rd → a.data = []) := by
  unfold check at h
  split at h
  · cases h
  · next d hd =>
    split_ifs at h with h1 h2 h3
    simp only [not_or, not_and, not_not, not_le, not_lt] at h1 h2 h3
    refine ⟨d, hd, ?_, h2.1, fun h28 => ⟨h2.2 h28, h1.2 h28⟩, h3.1, h3.2⟩
    rcases Nat.eq_zero_or_pos a.count.toNat with h0 | h0
    · exact absurd (BitVec.eq_of_toNat_eq (by simpa using h0)) h1.1
    · exact h0

/-- A request that keeps the contract passes the check (R71). -/
theorem check_eq_ok {c : Config} {op : Byte} {a : ReqArgs} {d : Dir} (hd : dirOf c op = some d)
    (h1 : 1 ≤ a.count.toNat) (h2 : a.lba.toNat < 2 ^ 48)
    (h28 : is28 c op = true → a.lba.toNat < 2 ^ 24 ∧ a.count.toNat ≤ 256)
    (hw : d = .wr → a.data.length = nb a.count) (hr : d = .rd → a.data = []) : check c op a = .ok := by
  have h0 : a.count ≠ 0#16 := by
    rintro h
    simp [h] at h1
  rw [check, hd]
  simp only
  rw [if_neg, if_neg, if_neg]
  · rintro (⟨h, hn⟩ | ⟨h, hn⟩)
    · exact hn (hw h)
    · exact hn (hr h)
  · rintro (h | ⟨h, hn⟩)
    · omega
    · exact absurd (h28 h).1 (by omega)
  · rintro (h | ⟨h, hn⟩)
    · exact h0 h
    · exact absurd (h28 h).2 (by omega)

/-- In a legal configuration the 48-bit opcodes are not 28-bit ones. -/
theorem is28_ext {c : Config} (h : c.Legal) : is28 c Config.opcReadExt = false ∧ is28 c Config.opcWriteExt = false := by
  constructor <;> simp only [is28, Bool.and_eq_false_iff, Bool.or_eq_false_iff, decide_eq_false_iff_not] <;> right
  · exact ⟨Ne.symm h.read28.1, Ne.symm h.write28.1⟩
  · exact ⟨Ne.symm h.read28.2.1, Ne.symm h.write28.2⟩

/-- The directions of the four opcodes in a legal configuration (R65). -/
theorem dirOf_opcodes {c : Config} (h : c.Legal) :
    dirOf c Config.opcReadExt = some .rd ∧ dirOf c Config.opcWriteExt = some .wr ∧
      (c.legacy28 = true → dirOf c c.opcRead28 = some .rd ∧ dirOf c c.opcWrite28 = some .wr) := by
  refine ⟨if_pos (.inl rfl), ?_, fun hl => ⟨if_pos (.inr ⟨hl, rfl⟩), ?_⟩⟩
  · rw [dirOf, if_neg, if_pos (.inl rfl)]
    rintro (h' | ⟨-, h'⟩)
    · cases h'
    · exact h.read28.2.1 h'.symm
  · rw [dirOf, if_neg, if_pos (.inr ⟨hl, rfl⟩)]
    rintro (h' | ⟨-, h'⟩)
    · exact h.write28.1 h'
    · exact h.read28.2.2 h'.symm

end Sys2Proof.Machine
end

