-- ==== Sys2Proof/Laws/Step.lean ====
section
/-! SUPPORT. What one step can do: one equation per kind of step, and one inversion lemma (`step_cases`) that lists the rows of 40_protocol.md R95 with the state each leaves. -/

namespace Sys2Proof.Machine

/-! Choosing and accepting a request. -/

theorem chooseRequest_none {s : State} : chooseRequest s = none ↔ s.requests = [] := by
  unfold chooseRequest
  split <;> simp_all

/-- What choosing a request leaves (R140): one waiting request is off the interface, and at most the arbitration's answers
have moved. -/
theorem chooseRequest_some {s s1 : State} {r : Request} (h : chooseRequest s = some (r, s1)) :
    ∃ (k : Nat) (o : Oracle), k < s.requests.length ∧ s.requests[k]? = some r ∧
      s1 = (s.withOracle o).withRequests (s.requests.eraseIdx k) := by
  unfold chooseRequest at h
  split at h
  · cases h
  · next r' hr =>
    obtain ⟨rfl, rfl⟩ : r' = r ∧ s.withRequests [] = s1 := by simpa using h
    exact ⟨0, s.oracle, by simp [hr], by simp [hr], by simp [hr, State.withRequests, State.withOracle]⟩
  · next r' t _ hr =>
    simp only [Option.some.injEq, Prod.mk.injEq] at h
    obtain ⟨h1, rfl⟩ := h
    have hlt : s.oracle.drawPick.1 % (r' :: t).length < (r' :: t).length := Nat.mod_lt _ (by simp)
    refine ⟨s.oracle.drawPick.1 % (r' :: t).length, s.oracle.drawPick.2, by rw [hr]; exact hlt, ?_, by rw [hr]⟩
    rw [hr, ← h1, List.getElem?_eq_getElem hlt, Option.getD_some]

/-- Choosing a request moves only the arbitration's answers: the listed picks and the count of free values (U29). -/
theorem chooseRequest_oracle {s s1 : State} {r : Request} (h : chooseRequest s = some (r, s1)) :
    ∃ picks n, s.oracle.draws ≤ n ∧ n ≤ s.oracle.draws + 1 ∧
      s1.oracle = { s.oracle with pick := picks, draws := n } := by
  unfold chooseRequest at h
  split at h
  · cases h
  · simp only [Option.some.injEq, Prod.mk.injEq] at h
    exact ⟨s.oracle.pick, s.oracle.draws, le_rfl, Nat.le_succ _, by rw [← h.2]; rfl⟩
  · simp only [Option.some.injEq, Prod.mk.injEq] at h
    rw [← h.2]
    show ∃ picks n, _ ∧ _ ∧ s.oracle.drawPick.2 = _
    unfold Oracle.drawPick
    split
    · next v t _ => exact ⟨t, s.oracle.draws, le_rfl, Nat.le_succ _, rfl⟩
    · exact ⟨s.oracle.pick, s.oracle.draws + 1, Nat.le_succ _, le_rfl, rfl⟩

/-- A request whose opcode the decoder does not know has no direction, and the other way round (R65, R70). -/
theorem decodeRequest_cases (c : Config) (r : Request) :
    (decodeRequest c r = .rejected (.illegalOp r.op) ∧ dirOf c r.op = none) ∨
    (∃ i, decodeRequest c r = .instr i ∧ dirOf c r.op ≠ none ∧
      ((i = .readSectorsExt r.args ∧ r.op = Config.opcReadExt) ∨
        (i = .writeSectorsExt r.args ∧ r.op = Config.opcWriteExt) ∨
        (i = .readSectors28 r.args ∧ c.legacy28 = true ∧ r.op = c.opcRead28) ∨
        (i = .writeSectors28 r.args ∧ c.legacy28 = true ∧ r.op = c.opcWrite28))) := by
  unfold decodeRequest dirOf
  by_cases h1 : r.op = Config.opcReadExt
  · exact .inr ⟨_, if_pos h1, by simp [h1], .inl ⟨rfl, h1⟩⟩
  by_cases h2 : r.op = Config.opcWriteExt
  · refine .inr ⟨_, by rw [if_neg h1, if_pos h2], ?_, .inr (.inl ⟨rfl, h2⟩)⟩
    split_ifs <;> simp_all
  by_cases h3 : c.legacy28 = true ∧ r.op = c.opcRead28
  · exact .inr ⟨_, by rw [if_neg h1, if_neg h2, if_pos h3], by simp [h3], .inr (.inr (.inl ⟨rfl, h3⟩))⟩
  by_cases h4 : c.legacy28 = true ∧ r.op = c.opcWrite28
  · refine .inr ⟨_, by rw [if_neg h1, if_neg h2, if_neg h3, if_pos h4], ?_, .inr (.inr (.inr ⟨rfl, h4⟩))⟩
    split_ifs <;> simp_all
  · exact .inl ⟨by rw [if_neg h1, if_neg h2, if_neg h3, if_neg h4], by
      rw [if_neg (not_or.2 ⟨h1, h3⟩), if_neg (not_or.2 ⟨h2, h4⟩)]⟩

/-- Acceptance answers a next state, whatever the request. -/
theorem accept_next (op : Byte) (a : ReqArgs) (s : State) : ∃ t, accept op a s = .next t := by
  unfold accept
  split
  · split <;> exact ⟨_, rfl⟩
  · exact ⟨_, rfl⟩

/-- The outcomes of acceptance in `IDLE` (R77, R124): a rejection, a failed allocation, or a latched request. -/
theorem accept_idle_cases {op : Byte} {a : ReqArgs} {s t : State} (hp : s.seq.phase = .idle)
    (h : accept op a s = .next t) :
    (∃ c, check s.cfg op a = c ∧ c ≠ .ok ∧ t = raise s c 0#8) ∨
    (check s.cfg op a = .ok ∧ dirOf s.cfg op = some .rd ∧ s.oracle.drawAlloc.1 = none ∧
      t = raise ((s.withOracle s.oracle.drawAlloc.2).withSeq (s.seq.latchRequest op .rd a)) .eAlloc 0#8) ∨
    (∃ init, check s.cfg op a = .ok ∧ dirOf s.cfg op = some .rd ∧ s.oracle.drawAlloc.1 = some init ∧
      t = (s.withOracle s.oracle.drawAlloc.2).withSeq
        (s.seq.latch s.cfg op .rd a (Buffer.ofBytes (nb a.count) init))) ∨
    (check s.cfg op a = .ok ∧ dirOf s.cfg op = some .wr ∧
      t = s.withSeq (s.seq.latch s.cfg op .wr a (Buffer.ofBytes (nb a.count) a.data))) := by
  unfold accept at h
  rw [if_pos hp] at h
  split at h
  · next d hc hd =>
    injection h with h
    cases d with
    | wr => exact .inr (.inr (.inr ⟨hc, hd, h.symm⟩))
    | rd =>
      simp only [startRequest] at h
      split at h
      · next init o ho => exact .inr (.inr (.inl ⟨init, hc, hd, by rw [ho], by rw [ho]; exact h.symm⟩))
      · next o ho => exact .inr (.inl ⟨hc, hd, by rw [ho], by rw [ho]; exact h.symm⟩)
  · next hno =>
    injection h with h
    refine .inl ⟨_, rfl, fun hok => ?_, h.symm⟩
    obtain ⟨d, hd, -⟩ := check_ok hok
    exact hno d hok hd

/-- A step runs the instruction the sequencer issues next, and then advances. -/
theorem step_of_run {s u t : State} {i : Instr} (hf : fetch s = .run i u) (he : exec i u = .next t) :
    step s = advance i u t := by
  unfold step
  rw [hf]
  simp only [he]

/-- A step in `IDLE` with a request is that request's acceptance; an opcode that is not admitted is its first check
(R77, R123). -/
theorem step_idle_request {s s1 : State} {r : Request} (hp : s.seq.phase = .idle)
    (h : chooseRequest s = some (r, s1)) : step s = accept r.op r.args s1 := by
  have hp1 : s1.seq.phase = .idle := by
    obtain ⟨k, o, -, -, rfl⟩ := chooseRequest_some h
    exact hp
  have hc1 : s1.cfg = s.cfg := by
    obtain ⟨k, o, -, -, rfl⟩ := chooseRequest_some h
    rfl
  rcases decodeRequest_cases s.cfg r with ⟨hd, hn⟩ | ⟨i, hd, hn, hi⟩
  · have hck : check s1.cfg r.op r.args = .eOp := by rw [hc1, check, hn]
    simp [step, fetch, fetchRequest, hp, h, hd, accept, hp1, hck]
  · have hf : fetch s = .run i s1 := by simp [fetch, fetchRequest, hp, h, hd]
    obtain ⟨t, ht⟩ := accept_next r.op r.args s1
    rcases hi with ⟨rfl, ho⟩ | ⟨rfl, ho⟩ | ⟨rfl, -, ho⟩ | ⟨rfl, -, ho⟩
    · rw [step_of_run hf (by rw [exec, execReadSectorsExt, ← ho, ht]), ht, advance]
    · rw [step_of_run hf (by rw [exec, execWriteSectorsExt, ← ho, ht]), ht, advance]
    · rw [step_of_run hf (by rw [exec, execReadSectors28, hc1, ← ho, ht]), ht, advance]
    · rw [step_of_run hf (by rw [exec, execWriteSectors28, hc1, ← ho, ht]), ht, advance]

/-! The other kinds of step. -/

/-- One row of the preamble table below the command write (R79): offset, value and what the device becomes. -/
inductive PreambleWrite (s : State) : Nat → PortOff → Byte → Device → Prop
  | dh (drv : Bool) (h : s.seq.drv = some drv) :
      PreambleWrite s 0 6#3 (driveHead s.cfg drv) { s.dev with drvhead := driveHead s.cfg drv }
  | scHi (cnt : CountWord) (h : s.seq.cnt = some cnt) :
      PreambleWrite s 1 2#3 (countHi cnt) { s.dev with seccnt := s.dev.seccnt.shift (countHi cnt) }
  | lba0Hi (lba : LbaWord) (h : s.seq.lba = some lba) :
      PreambleWrite s 2 3#3 (lbaHi 0 lba) { s.dev with lba0 := s.dev.lba0.shift (lbaHi 0 lba) }
  | lba1Hi (lba : LbaWord) (h : s.seq.lba = some lba) :
      PreambleWrite s 3 4#3 (lbaHi 1 lba) { s.dev with lba1 := s.dev.lba1.shift (lbaHi 1 lba) }
  | lba2Hi (lba : LbaWord) (h : s.seq.lba = some lba) :
      PreambleWrite s 4 5#3 (lbaHi 2 lba) { s.dev with lba2 := s.dev.lba2.shift (lbaHi 2 lba) }
  | scLo (cnt : CountWord) (h : s.seq.cnt = some cnt) :
      PreambleWrite s 5 2#3 (countLo cnt) { s.dev with seccnt := s.dev.seccnt.shift (countLo cnt) }
  | lba0Lo (lba : LbaWord) (h : s.seq.lba = some lba) :
      PreambleWrite s 6 3#3 (lbaLo 0 lba) { s.dev with lba0 := s.dev.lba0.shift (lbaLo 0 lba) }
  | lba1Lo (lba : LbaWord) (h : s.seq.lba = some lba) :
      PreambleWrite s 7 4#3 (lbaLo 1 lba) { s.dev with lba1 := s.dev.lba1.shift (lbaLo 1 lba) }
  | lba2Lo (lba : LbaWord) (h : s.seq.lba = some lba) :
      PreambleWrite s 8 5#3 (lbaLo 2 lba) { s.dev with lba2 := s.dev.lba2.shift (lbaLo 2 lba) }

/-- The state after row `k` of the preamble. -/
def afterPreamble (s : State) (k : Nat) (off : PortOff) (v : Byte) (d : Device) : State :=
  (portWrite8 s off v d).withSeq { s.seq with pstep := some (k + 1) }

/-- The state after the command write (R89, R113). -/
def afterCommand (s : State) (op : Byte) : State :=
  ((portWrite8 s 7#3 op (s.dev.takeCommand s.cfg s.oracle.draws op)).withOracle
    (if latchStated s.cfg op then s.oracle else s.oracle.skip)).withSeq
      { s.seq with
        phase := .cmdIssued
        polls := if s.cfg.mode = .hardened then some 0 else s.seq.polls }

/-- The state after a status read, before the sequencer uses the byte (R114). -/
def afterStatus (s : State) : State := portRead8 s 7#3 (statusAnswer s)

/-- The state after a data read, before the sequencer stores the word (R115). -/
def afterDataRead (s : State) : State :=
  ((s.withDev s.dev.nextWord).withOracle (dataAnswer s).2).emit (.portRead16 (portAddr s.cfg 0#3) (dataAnswer s).1)

/-- The state after a data write, before the sequencer moves on (R116). -/
def afterDataWrite (s : State) (w : DataWord) : State :=
  (s.withDev (s.dev.takeWord s.cfg w)).emit (.portWrite16 (portAddr s.cfg 0#3) w)

/-- The state after word `i`: `WIDX` has moved, and the last word ends the request (R99, R104). -/
def afterWord (s : State) (i : Nat) (cnt : CountWord) (payload : List Byte) : State :=
  if i + 1 = nw cnt then endRequest (s.withSeq { s.seq with widx := some (i + 1) }) .ok 0#8 payload
  else s.withSeq { s.seq with widx := some (i + 1) }

theorem step_preamble {s : State} {k : Nat} {off : PortOff} {v : Byte} {d : Device} (hp : s.seq.phase = .preamble)
    (hk : s.seq.pstep = some k) (hw : PreambleWrite s k off v d) : step s = .next (afterPreamble s k off v d) := by
  cases hw <;>
    simp_all [step, fetch, preambleRow, exec, execOut8Drvhead, execOut8Seccnt, execOut8Lba0, execOut8Lba1, execOut8Lba2,
      advance, advancePreamble, afterPreamble]

theorem step_command {s : State} {op : Byte} (hp : s.seq.phase = .preamble) (hk : s.seq.pstep = some 9)
    (hop : s.seq.op = some op) : step s = .next (afterCommand s op) := by
  rw [step_of_run (i := .out8Command op) (u := s) (by simp [fetch, hp, hk, hop, preambleRow]) rfl]
  rfl

theorem step_poll_minimal {s : State} (hp : s.seq.phase = .cmdIssued) (hm : s.cfg.mode = .minimal) :
    step s = .next (if drqSet (statusAnswer s).1 then (afterStatus s).setPhase .ready else afterStatus s) := by
  simp [step, fetch, hp, exec, execIn8Status, advance, polled, hm, afterStatus]

theorem step_poll_hardened {s : State} {n : Nat} (hp : s.seq.phase = .cmdIssued) (hm : s.cfg.mode = .hardened)
    (hn : s.seq.polls = some n) :
    step s = .next ((afterStatus s).withSeq
      { s.seq with polls := some (n + 1), phase := hardenedPhase s.cfg (statusAnswer s).1 (n + 1) }) := by
  simp [step, fetch, hp, exec, execIn8Status, advance, polled, hm, hn, afterStatus]

theorem step_dataRead {s : State} {cnt : CountWord} {i : Nat} {buf b1 b2 : Buffer} (hp : s.seq.phase = .ready)
    (hd : s.seq.dir = some .rd) (hc : s.seq.cnt = some cnt) (hi : s.seq.widx = some i) (hlt : i < nw cnt)
    (hb : s.seq.buf = some buf) (h1 : buf.write (2 * i) (lane0 (dataAnswer s).1) = some b1)
    (h2 : b1.write (2 * i + 1) (lane1 (dataAnswer s).1) = some b2) :
    step s = .next (afterWord ((afterDataRead s).withSeq { s.seq with buf := some b2 }) i cnt b2.bytes) := by
  simp [step, fetch, fetchData, hp, hd, hc, hi, hlt, exec, execIn16Data, advance, wordRead, hb, h1, h2, wordDone,
    afterDataRead, afterWord]

theorem step_dataWrite {s : State} {cnt : CountWord} {i : Nat} {buf : Buffer} {lo hi : Byte}
    (hp : s.seq.phase = .ready) (hd : s.seq.dir = some .wr) (hc : s.seq.cnt = some cnt) (hi' : s.seq.widx = some i)
    (hlt : i < nw cnt) (hb : s.seq.buf = some buf) (h1 : buf.read (2 * i) = some lo)
    (h2 : buf.read (2 * i + 1) = some hi) :
    step s = .next (afterWord (afterDataWrite s (joinLanes hi lo)) i cnt []) := by
  simp [step, fetch, fetchData, hp, hd, hc, hi', hlt, exec, execOut16Data, advance, wordWritten, hb, h1, h2, wordDone,
    afterDataWrite, afterWord]

theorem step_error {s : State} {n : Nat} (hp : s.seq.phase = .error) (hm : s.cfg.mode = .hardened)
    (hn : s.seq.tries = some n) :
    step s = .next (retryOrRaise ((portRead8 s s.cfg.errRegOff (errorAnswer s)).withSeq
      { s.seq with errv := some (errorAnswer s).1 }) n .eDevice (errorAnswer s).1) := by
  simp [step, fetch, hp, hm, exec, execIn8Error, advance, errorRead, hn]

theorem step_timeout {s : State} {n : Nat} (hp : s.seq.phase = .timeout) (hm : s.cfg.mode = .hardened)
    (hn : s.seq.tries = some n) : step s = .next (retryOrRaise (channelReset s) n .eTimeout 0#8) := by
  simp [step, fetch, hp, hm, timedOut, hn]

theorem step_wait {s : State} (hp : s.seq.phase = .idle) (hr : s.requests = []) : step s = .next s := by
  simp [step, fetch, hp, fetchRequest, chooseRequest_none.2 hr]

/-- Everything a step that goes on can be: one case per row of R95 (and waiting in `IDLE`, R144). -/
inductive StepCase (s t : State) : Prop
  | wait (hp : s.seq.phase = .idle) (hr : s.requests = []) (ht : t = s)
  | request (r : Request) (s1 : State) (hp : s.seq.phase = .idle) (hc : chooseRequest s = some (r, s1))
      (ht : accept r.op r.args s1 = .next t)
  | preamble (k : Nat) (off : PortOff) (v : Byte) (d : Device) (hp : s.seq.phase = .preamble)
      (hk : s.seq.pstep = some k) (hw : PreambleWrite s k off v d) (ht : t = afterPreamble s k off v d)
  | command (op : Byte) (hp : s.seq.phase = .preamble) (hk : s.seq.pstep = some 9) (hop : s.seq.op = some op)
      (ht : t = afterCommand s op)
  | pollMinimal (hp : s.seq.phase = .cmdIssued) (hm : s.cfg.mode = .minimal)
      (ht : t = if drqSet (statusAnswer s).1 then (afterStatus s).setPhase .ready else afterStatus s)
  | pollHardened (n : Nat) (hp : s.seq.phase = .cmdIssued) (hm : s.cfg.mode = .hardened) (hn : s.seq.polls = some n)
      (ht : t = (afterStatus s).withSeq
        { s.seq with polls := some (n + 1), phase := hardenedPhase s.cfg (statusAnswer s).1 (n + 1) })
  | dataRead (cnt : CountWord) (i : Nat) (buf b1 b2 : Buffer) (hp : s.seq.phase = .ready) (hd : s.seq.dir = some .rd)
      (hc : s.seq.cnt = some cnt) (hi : s.seq.widx = some i) (hlt : i < nw cnt) (hb : s.seq.buf = some buf)
      (h1 : buf.write (2 * i) (lane0 (dataAnswer s).1) = some b1)
      (h2 : b1.write (2 * i + 1) (lane1 (dataAnswer s).1) = some b2)
      (ht : t = afterWord ((afterDataRead s).withSeq { s.seq with buf := some b2 }) i cnt b2.bytes)
  | dataWrite (cnt : CountWord) (i : Nat) (buf : Buffer) (lo hi : Byte) (hp : s.seq.phase = .ready)
      (hd : s.seq.dir = some .wr) (hc : s.seq.cnt = some cnt) (hi' : s.seq.widx = some i) (hlt : i < nw cnt)
      (hb : s.seq.buf = some buf) (h1 : buf.read (2 * i) = some lo) (h2 : buf.read (2 * i + 1) = some hi)
      (ht : t = afterWord (afterDataWrite s (joinLanes hi lo)) i cnt [])
  | errorStep (n : Nat) (hp : s.seq.phase = .error) (hm : s.cfg.mode = .hardened) (hn : s.seq.tries = some n)
      (ht : t = retryOrRaise ((portRead8 s s.cfg.errRegOff (errorAnswer s)).withSeq
        { s.seq with errv := some (errorAnswer s).1 }) n .eDevice (errorAnswer s).1)
  | timeoutStep (n : Nat) (hp : s.seq.phase = .timeout) (hm : s.cfg.mode = .hardened) (hn : s.seq.tries = some n)
      (ht : t = retryOrRaise (channelReset s) n .eTimeout 0#8)

theorem step_cases_preamble {s t : State} (h : step s = .next t) (hp : s.seq.phase = .preamble) : StepCase s t := by
  have row : ∀ {k off v d}, s.seq.pstep = some k → PreambleWrite s k off v d → StepCase s t := by
    intro k off v d hk hw
    rw [step_preamble hp hk hw] at h
    injection h with h
    exact .preamble k off v d hp hk hw h.symm
  cases hk : s.seq.pstep with
  | none => simp [step, fetch, hp, hk] at h
  | some k =>
    match k, hk with
    | 0, hk =>
      cases hr : s.seq.drv with
      | none => simp [step, fetch, hp, hk, preambleRow, hr] at h
      | some v => exact row hk (.dh v hr)
    | 1, hk =>
      cases hr : s.seq.cnt with
      | none => simp [step, fetch, hp, hk, preambleRow, hr] at h
      | some v => exact row hk (.scHi v hr)
    | 2, hk =>
      cases hr : s.seq.lba with
      | none => simp [step, fetch, hp, hk, preambleRow, hr] at h
      | some v => exact row hk (.lba0Hi v hr)
    | 3, hk =>
      cases hr : s.seq.lba with
      | none => simp [step, fetch, hp, hk, preambleRow, hr] at h
      | some v => exact row hk (.lba1Hi v hr)
    | 4, hk =>
      cases hr : s.seq.lba with
      | none => simp [step, fetch, hp, hk, preambleRow, hr] at h
      | some v => exact row hk (.lba2Hi v hr)
    | 5, hk =>
      cases hr : s.seq.cnt with
      | none => simp [step, fetch, hp, hk, preambleRow, hr] at h
      | some v => exact row hk (.scLo v hr)
    | 6, hk =>
      cases hr : s.seq.lba with
      | none => simp [step, fetch, hp, hk, preambleRow, hr] at h
      | some v => exact row hk (.lba0Lo v hr)
    | 7, hk =>
      cases hr : s.seq.lba with
      | none => simp [step, fetch, hp, hk, preambleRow, hr] at h
      | some v => exact row hk (.lba1Lo v hr)
    | 8, hk =>
      cases hr : s.seq.lba with
      | none => simp [step, fetch, hp, hk, preambleRow, hr] at h
      | some v => exact row hk (.lba2Lo v hr)
    | 9, hk =>
      cases hr : s.seq.op with
      | none => simp [step, fetch, hp, hk, preambleRow, hr] at h
      | some v =>
        rw [step_command hp hk hr] at h
        injection h with h
        exact .command v hp hk hr h.symm
    | n + 10, hk => simp [step, fetch, hp, hk, preambleRow] at h

theorem step_cases_ready {s t : State} (h : step s = .next t) (hp : s.seq.phase = .ready) : StepCase s t := by
  cases hc : s.seq.cnt with
  | none => simp [step, fetch, hp, fetchData, hc] at h
  | some cnt =>
  cases hi : s.seq.widx with
  | none => simp [step, fetch, hp, fetchData, hc, hi] at h
  | some i =>
  cases hd : s.seq.dir with
  | none => simp [step, fetch, hp, fetchData, hc, hi, hd] at h
  | some dir =>
  by_cases hlt : i < nw cnt
  case neg => simp [step, fetch, hp, fetchData, hc, hi, hd, hlt] at h
  cases dir with
  | rd =>
    cases hb : s.seq.buf with
    | none =>
      simp [step, fetch, hp, fetchData, hc, hi, hd, hlt, exec, execIn16Data, advance, wordRead, hb] at h
    | some buf =>
    cases h1 : buf.write (2 * i) (lane0 (dataAnswer s).1) with
    | none =>
      simp [step, fetch, hp, fetchData, hc, hi, hd, hlt, exec, execIn16Data, advance, wordRead, hb, h1] at h
    | some b1 =>
    cases h2 : b1.write (2 * i + 1) (lane1 (dataAnswer s).1) with
    | none =>
      simp [step, fetch, hp, fetchData, hc, hi, hd, hlt, exec, execIn16Data, advance, wordRead, hb, h1, h2] at h
    | some b2 =>
    rw [step_dataRead hp hd hc hi hlt hb h1 h2] at h
    injection h with h
    exact .dataRead cnt i buf b1 b2 hp hd hc hi hlt hb h1 h2 h.symm
  | wr =>
    cases hb : s.seq.buf with
    | none => simp [step, fetch, hp, fetchData, hc, hi, hd, hlt, hb] at h
    | some buf =>
    cases h1 : buf.read (2 * i) with
    | none => simp [step, fetch, hp, fetchData, hc, hi, hd, hlt, hb, h1] at h
    | some lo =>
    cases h2 : buf.read (2 * i + 1) with
    | none => simp [step, fetch, hp, fetchData, hc, hi, hd, hlt, hb, h1, h2] at h
    | some hib =>
    rw [step_dataWrite hp hd hc hi hlt hb h1 h2] at h
    injection h with h
    exact .dataWrite cnt i buf lo hib hp hd hc hi hlt hb h1 h2 h.symm

/-- The inversion lemma of `step`: a step that goes on is one of the rows of R95. -/
theorem step_cases {s t : State} (h : step s = .next t) : StepCase s t := by
  cases hp : s.seq.phase with
  | idle =>
    cases hc : chooseRequest s with
    | none =>
      have hr := chooseRequest_none.1 hc
      rw [step_wait hp hr] at h
      injection h with h
      exact .wait hp hr h.symm
    | some rs =>
      obtain ⟨r, s1⟩ := rs
      exact .request r s1 hp hc (by rw [← step_idle_request hp hc, h])
  | preamble => exact step_cases_preamble h hp
  | cmdIssued =>
    cases hm : s.cfg.mode with
    | minimal =>
      rw [step_poll_minimal hp hm] at h
      injection h with h
      exact .pollMinimal hp hm h.symm
    | hardened =>
      cases hn : s.seq.polls with
      | none => simp [step, fetch, hp, exec, execIn8Status, advance, polled, hm, hn] at h
      | some n =>
        rw [step_poll_hardened hp hm hn] at h
        injection h with h
        exact .pollHardened n hp hm hn h.symm
  | ready => exact step_cases_ready h hp
  | error =>
    by_cases hm : s.cfg.mode = .hardened
    · cases hn : s.seq.tries with
      | none => simp [step, fetch, hp, exec, execIn8Error, advance, errorRead, hm, hn] at h
      | some n =>
        rw [step_error hp hm hn] at h
        injection h with h
        exact .errorStep n hp hm hn h.symm
    · simp [step, fetch, hp, hm] at h
  | timeout =>
    by_cases hm : s.cfg.mode = .hardened
    · cases hn : s.seq.tries with
      | none => simp [step, fetch, hp, timedOut, hm, hn] at h
      | some n =>
        rw [step_timeout hp hm hn] at h
        injection h with h
        exact .timeoutStep n hp hm hn h.symm
    · simp [step, fetch, hp, hm] at h
  | reserved6 => simp [step, fetch, hp] at h
  | reserved7 => simp [step, fetch, hp] at h

end Sys2Proof.Machine
end

