-- ==== Sys2Proof/Laws/Ops.lean ====
section
/-! SUPPORT. Laws of the shared operations: port addresses, draws, the device's side of a data access and of a command, the ends of an attempt, and what keeps a latched request latched. -/

namespace Sys2Proof.Machine

/-! Ports and operands. -/

/-- The data port is at `BASE` itself (R25). -/
@[simp] theorem portAddr_zero (c : Config) : portAddr c 0#3 = c.base := by simp [portAddr]

/-- The drive/head byte, drive by drive (R61). -/
theorem driveHead_eq (c : Config) (d : Bool) :
    driveHead c d = c.dhPattern ||| ((if d then 1#8 else 0#8) <<< c.drvShift) := by
  cases d <;> rfl

/-! Draws: a listed answer is used up. -/

theorem drawStatus_cons {o : Oracle} {v : Byte} {t : List Byte} (h : o.status = v :: t) :
    o.drawStatus = (v, { o with status := t }) := by
  simp [Oracle.drawStatus, h]

theorem drawData_cons {o : Oracle} {w : DataWord} {t : List DataWord} (h : o.data = w :: t) :
    o.drawData = (w, { o with data := t }) := by
  simp [Oracle.drawData, h]

theorem drawError_cons {o : Oracle} {v : Byte} {t : List Byte} (h : o.error = v :: t) :
    o.drawError = (v, { o with error := t }) := by
  simp [Oracle.drawError, h]

theorem drawAlloc_cons {o : Oracle} {b : Option (List Byte)} {t : List (Option (List Byte))} (h : o.alloc = b :: t) :
    o.drawAlloc = (b, { o with alloc := t }) := by
  simp [Oracle.drawAlloc, h]

/-- A listed status byte is the answer, whatever the device (R121). -/
theorem statusAnswer_cons {s : State} {v : Byte} {t : List Byte} (h : s.oracle.status = v :: t) :
    statusAnswer s = (v, { s.oracle with status := t }) := by
  simp [statusAnswer, h, Oracle.drawStatus]

/-- The general device's data answer is a draw (R118). -/
theorem dataAnswer_general {s : State} (h : s.dev.disks = none) : dataAnswer s = s.oracle.drawData := by
  simp [dataAnswer, referenceStream, h]

/-! The device. -/

/-- A stream position move keeps the disks. -/
@[simp] theorem Device.nextWord_disks (d : Device) : d.nextWord.disks = d.disks := by
  unfold Device.nextWord
  split
  · split <;> rfl
  · rfl

/-- A stream with words left belongs to the disks and to the pending command (R121). -/
theorem referenceStream_eq_some {c : Config} {dir : Dir} {d : Device} {ds : Disks} {p : Pending}
    (h : referenceStream c dir d = some (ds, p)) :
    d.disks = some ds ∧ d.pending = some p ∧ dirOf c p.op = some dir ∧ d.pos < p.count * Config.wordsPerSector := by
  unfold referenceStream at h
  split at h
  · next hd hp =>
    split at h
    · next hc =>
      simp only [Option.some.injEq, Prod.mk.injEq] at h
      obtain ⟨rfl, rfl⟩ := h
      exact ⟨hd, hp, hc.1, hc.2⟩
    · cases h
  · cases h

/-- Taking a data word keeps the disks in canonical form. -/
theorem Device.takeWord_wf {c : Config} {d : Device} {w : DataWord} (h : ∀ ds, d.disks = some ds → ds.wf) :
    ∀ ds, (d.takeWord c w).disks = some ds → ds.wf := by
  intro ds hd
  unfold Device.takeWord at hd
  split at hd
  · next ds' p hr =>
    rw [Device.nextWord_disks] at hd
    injection hd with hd
    rw [← hd]
    exact Disks.putWord_wf (h ds' (referenceStream_eq_some hr).1) p _ w
  · rw [Device.nextWord_disks] at hd
    cases hd

/-- A command keeps the disks or drops them (R121, log 15). -/
theorem Device.takeCommand_disks (c : Config) (n : Nat) (d : Device) (op : Byte) :
    (d.takeCommand c n op).disks = d.disks ∨ (d.takeCommand c n op).disks = none := ite_eq_or_eq _ _ _

/-- A command keeps the disks in canonical form. -/
theorem Device.takeCommand_wf {c : Config} {n : Nat} {d : Device} {op : Byte} (h : ∀ ds, d.disks = some ds → ds.wf) :
    ∀ ds, (d.takeCommand c n op).disks = some ds → ds.wf := by
  intro ds hd
  rcases Device.takeCommand_disks c n d op with he | he <;> rw [he] at hd
  · exact h ds hd
  · cases hd

/-! Acceptance and the ends of an attempt. -/

/-- Acceptance leaves the parameters alone. -/
theorem accept_cfg {op : Byte} {a : ReqArgs} {s t : State} (h : accept op a s = .next t) : t.cfg = s.cfg := by
  by_cases hp : s.seq.phase = .idle
  · rcases accept_idle_cases hp h with ⟨c, -, -, rfl⟩ | ⟨-, -, -, rfl⟩ | ⟨init, -, -, -, rfl⟩ | ⟨-, -, rfl⟩ <;> rfl
  · rw [accept, if_neg hp] at h
    injection h with h
    rw [← h]
    rfl

/-- The last act of an `ERROR` or `TIMEOUT` step: a retry while one is left, else the response (R126, R127). -/
theorem retryOrRaise_cases (s : State) (n : Nat) (c : ResultCode) (v : Byte) :
    (0 < n ∧ retryOrRaise s n c v = retry s n) ∨ (n = 0 ∧ retryOrRaise s n c v = raise s c v) := by
  unfold retryOrRaise
  split
  · exact .inl ⟨‹_›, rfl⟩
  · exact .inr ⟨by omega, rfl⟩

/-- After a data word: the end of the request at the last one, else the next position (R99, R104). -/
theorem afterWord_cases (s : State) (i : Nat) (cnt : CountWord) (payload : List Byte) :
    (i + 1 = nw cnt ∧
      afterWord s i cnt payload = endRequest (s.withSeq { s.seq with widx := some (i + 1) }) .ok 0#8 payload) ∨
    (i + 1 ≠ nw cnt ∧ afterWord s i cnt payload = s.withSeq { s.seq with widx := some (i + 1) }) := by
  unfold afterWord
  split
  · exact .inl ⟨‹_›, rfl⟩
  · exact .inr ⟨‹_›, rfl⟩

end Sys2Proof.Machine

namespace Sys2Proof.Safety

open Sys2Proof.Machine

/-- A request stays latched while its registers keep their values, the buffer its length and `TRIES` its bound. -/
theorem Latched.mono {c : Config} {q q' : Seq} {op : Byte} {dir : Dir} {drv : Bool} {lba : LbaWord} {cnt : CountWord}
    {buf buf' : Buffer} (h : Latched c q op dir drv lba cnt buf) (h1 : q'.op = q.op) (h2 : q'.dir = q.dir)
    (h3 : q'.drv = q.drv) (h4 : q'.lba = q.lba) (h5 : q'.cnt = q.cnt) (h6 : q'.buf = some buf')
    (hl : buf'.len = buf.len)
    (h7 : c.mode = .hardened → ∀ n, q.tries = some n → n ≤ c.retries → ∃ m, q'.tries = some m ∧ m ≤ c.retries) :
    Latched c q' op dir drv lba cnt buf' where
  opReg := h1.trans h.opReg
  dirReg := h2.trans h.dirReg
  drvReg := h3.trans h.drvReg
  lbaReg := h4.trans h.lbaReg
  cntReg := h5.trans h.cntReg
  bufReg := h6
  dirOf := h.dirOf
  count := h.count
  lbaBound := h.lbaBound
  bound28 := h.bound28
  bufLen := hl.trans h.bufLen
  tries := fun hm => by
    obtain ⟨n, hn, hle⟩ := h.tries hm
    exact h7 hm n hn hle

/-- The ranges of R18 hold on while each register keeps its value or takes one in its range. -/
theorem RangesOk.mono {c : Config} {q q' : Seq} (h : RangesOk c q) (h1 : q'.op = q.op) (h2 : q'.dir = q.dir)
    (h3 : q'.lba = q.lba) (h4 : q'.cnt = q.cnt) (h5 : ∀ k, q'.pstep = some k → q.pstep = some k ∨ k ≤ 9)
    (h6 : ∀ i, q'.widx = some i → q.widx = some i ∨ i < 2 ^ 24)
    (h7 : ∀ n, q'.polls = some n → q.polls = some n ∨ n ≤ c.pollDeadline)
    (h8 : ∀ n, q'.tries = some n → q.tries = some n ∨ n ≤ c.retries) : RangesOk c q' where
  pstep := fun k e => (h5 k e).elim (h.pstep k) id
  widx := fun i e => (h6 i e).elim (h.widx i) id
  polls := fun n e => (h7 n e).elim (h.polls n) id
  tries := fun n e => (h8 n e).elim (h.tries n) id
  lba := fun v e => h.lba v (h3 ▸ e)
  cnt := fun v e => h.cnt v (h4 ▸ e)
  dir := fun op e => h2.trans (h.dir op (h1 ▸ e))

end Sys2Proof.Safety
end

