-- ==== Sys2Proof/Laws/PerInstr.lean ====
section
/-! SUPPORT. Per instruction: the bits of an instruction's encoding in the table's configuration are the ones its row of spec/opcode_table.json gives (30_encoding.md R64, R66). -/

namespace Sys2Proof.Laws.TableBits

/-- The bits that an encoded object puts into the table: the opcode byte or the 5-bit key. -/
def bitsOf : Encoded → Nat
  | .req r => r.op.toNat
  | .pio key _ => key.toNat

/-- The `match` column of spec/opcode_table.json, copied row by row. -/
def rowBits : Instr → Nat
  | .readSectorsExt _ => 0x24
  | .writeSectorsExt _ => 0x34
  | .readSectors28 _ => 0x20
  | .writeSectors28 _ => 0x30
  | .in16Data => 0b01000
  | .out16Data _ => 0b11000
  | .out8Seccnt _ => 0b10010
  | .out8Lba0 _ => 0b10011
  | .out8Lba1 _ => 0b10100
  | .out8Lba2 _ => 0b10101
  | .out8Drvhead _ => 0b10110
  | .out8Command _ => 0b10111
  | .in8Status => 0b00111
  | .in8Error => 0b00001

/-- The instruction's encoding has the bits of its row. -/
def Statement (i : Instr) : Prop := bitsOf (encode Config.table i) = rowBits i

theorem readSectorsExt (a : ReqArgs) : Statement (.readSectorsExt a) := rfl
theorem writeSectorsExt (a : ReqArgs) : Statement (.writeSectorsExt a) := rfl
theorem readSectors28 (a : ReqArgs) : Statement (.readSectors28 a) := rfl
theorem writeSectors28 (a : ReqArgs) : Statement (.writeSectors28 a) := rfl
theorem in16Data : Statement .in16Data := rfl
theorem out16Data (w : DataWord) : Statement (.out16Data w) := rfl
theorem out8Seccnt (v : Byte) : Statement (.out8Seccnt v) := rfl
theorem out8Lba0 (v : Byte) : Statement (.out8Lba0 v) := rfl
theorem out8Lba1 (v : Byte) : Statement (.out8Lba1 v) := rfl
theorem out8Lba2 (v : Byte) : Statement (.out8Lba2 v) := rfl
theorem out8Drvhead (v : Byte) : Statement (.out8Drvhead v) := rfl
theorem out8Command (v : Byte) : Statement (.out8Command v) := rfl
theorem in8Status : Statement .in8Status := rfl
theorem in8Error : Statement .in8Error := rfl

end Sys2Proof.Laws.TableBits
end

