-- ==== Sys2Proof/Laws/Run.lean ====
section
/-! SUPPORT. Runs of several steps: a run is its first step and the rest, runs add up, and the host's run is this one. -/

namespace Sys2Proof.Safety

open Sys2Proof.Machine

@[simp] theorem run_zero (s : State) : run 0 s = .next s := rfl

/-- A run whose first step goes on is the run from there. -/
theorem run_succ {n : Nat} {s t : State} (h : step s = .next t) : run (n + 1) s = run n t := by
  rw [run, h]

/-- Runs add up. -/
theorem run_add {m n : Nat} {s t : State} (h : run m s = .next t) : run (m + n) s = run n t := by
  induction m generalizing s with
  | zero =>
    injection h with h
    rw [Nat.zero_add, h]
  | succ m ih =>
    cases hs : step s with
    | next u =>
      rw [run_succ hs] at h
      rw [Nat.add_right_comm, run_succ hs, ih h]
    | fault f => simp [run, hs] at h
    | refused r => simp [run, hs] at h

/-- A run of two parts. -/
theorem run_trans {m n : Nat} {s t u : State} (h : run m s = .next t) (h' : run n t = .next u) :
    run (m + n) s = .next u := (run_add h).trans h'

/-- The host's run, one step and the rest, for any machine. -/
theorem host_run_succ (M : Host.Core) (n : Nat) (s : M.State) : Host.Core.run M (n + 1) s =
    match M.step s with
    | .next t => Host.Core.run M n t
    | .fault f => .fault f
    | .refused r => .refused r := by
  cases h : M.step s <;> simp only [Host.Core.run, h]

/-- The host's run of the machine is `run`. -/
theorem core_run (n : Nat) (s : State) : Host.Core.run core n s = run n s := by
  induction n generalizing s with
  | zero => rfl
  | succ n ih =>
    refine (host_run_succ core n s).trans ?_
    rw [run, show core.step s = step s from rfl]
    cases step s with
    | next t => exact ih t
    | fault f => rfl
    | refused r => rfl

end Sys2Proof.Safety
end

