-- ==== Sys2Proof/Tests/Slice0.lean ====
section
/-! SUPPORT. The model's own tests. Expected values are the spec's: the encodings of 30_encoding.md R64 and R66, and the vectors of 95_test_vectors.md, named beside each test. The second half shows, for every statement with hypotheses, states and operands that meet them. -/

namespace Sys2Proof.Tests

open Sys2Proof.Machine
open Sys2Proof.Safety

/-! ## Helpers -/

/-- A configuration with the options `m` and `l`. -/
def cfgOf (m : Mode) (l : Bool) : Config := { Config.ref with mode := m, legacy28 := l }

/-- A request's operands. -/
def args (drive : Bool) (lba : LbaWord) (count : CountWord) (data : List Byte) : ReqArgs := ⟨drive, lba, count, data⟩

/-- The LBA of the worked examples (L1-1). -/
def lba0 : LbaWord := 0x000102030405#64

/-- A latched read of one sector, at the start of the preamble. -/
def qRd : Machine.Seq where
  phase := .preamble
  pstep := some 0
  op := some 0x24#8
  dir := some .rd
  drv := some false
  lba := some lba0
  cnt := some 1#16
  widx := some 0
  buf := some (Buffer.ofBytes 512 [])
  polls := some 0
  tries := some 1
  errv := none

/-- A latched write of one sector. -/
def qWr : Machine.Seq := { qRd with op := some 0x34#8, dir := some .wr, buf := some (Buffer.ofBytes 512 [0x11#8, 0x22#8]) }

/-- A state with given registers and parameters. -/
def st (c : Config) (q : Machine.Seq) : State := { State.reset with cfg := c, seq := q }

/-- `st` with listed answers. -/
def ans (s : State) (status : List Byte) (data : List DataWord) (error : List Byte) : State :=
  { s with oracle := { s.oracle with status := status, data := data, error := error } }

/-- A state in `IDLE` with one request and one allocator answer. -/
def asks (c : Config) (r : Request) (alloc : Option (List Byte)) : State :=
  { State.reset with cfg := c, requests := [r], oracle := { Oracle.reset with alloc := [alloc] } }

/-- The outcome is a next state that passes `p`. -/
def goesTo (o : Out State) (p : State → Bool) : Bool :=
  match o with
  | .next t => p t
  | .fault _ => false
  | .refused _ => false

/-- The response codes and the trace length of a state. -/
def answered (c : ResultCode) (t : State) : Bool :=
  decide (t.responses.map Response.code = [c]) && decide (t.trace = []) && decide (t.seq.phase = .idle)

/-! ## Well-formedness refuses each ill-formed term -/

/-- `count = 0` (R71). -/
theorem test_wf_count_zero : (Instr.readSectorsExt (args false 0#64 0#16 [])).wellFormed Config.table = false := by decide

/-- A 28-bit command with `count = 257` (R71). -/
theorem test_wf_count_28 : (Instr.readSectors28 (args false 0#64 257#16 [])).wellFormed Config.table = false := by decide

/-- `lba = 2^48` (R71). -/
theorem test_wf_lba : (Instr.readSectorsExt (args false 0x1000000000000#64 1#16 [])).wellFormed Config.table = false := by
  decide

/-- A 28-bit command with `lba = 2^24` (R71). -/
theorem test_wf_lba_28 : (Instr.readSectors28 (args false 0x1000000#64 1#16 [])).wellFormed Config.table = false := by
  decide

/-- A write whose data is short (R71). -/
theorem test_wf_write_data : (Instr.writeSectorsExt (args false 0#64 1#16 [0#8])).wellFormed Config.table = false := by
  decide

/-- A read with data (R71). -/
theorem test_wf_read_data : (Instr.readSectorsExt (args false 0#64 1#16 [0#8])).wellFormed Config.table = false := by
  decide

/-- 28-bit commands without `LEGACY28` (R70). -/
theorem test_wf_legacy : (Instr.readSectors28 (args false 0#64 1#16 [])).wellFormed Config.ref = false ∧
    (Instr.writeSectors28 (args false 0#64 1#16 [])).wellFormed Config.ref = false := by decide

/-- A drive/head byte that is not of format `DH8` (R61), an opcode that is not admitted (R70), the error register read in
`MINIMAL` (R66). -/
theorem test_wf_ports : (Instr.out8Drvhead 0xE0#8).wellFormed Config.ref = false ∧
    (Instr.out8Command 0x25#8).wellFormed Config.table = false ∧ Instr.in8Error.wellFormed Config.ref = false := by
  decide

/-- Well-formed terms pass, both drives' `DH8` bytes among them. -/
theorem test_wf_accepts : (Instr.readSectorsExt (args true 0xFFFFFFFFFFFF#64 65535#16 [])).wellFormed Config.ref = true ∧
    (Instr.readSectors28 (args false 0xFFFFFF#64 256#16 [])).wellFormed Config.table = true ∧
    (Instr.out8Drvhead 0x40#8).wellFormed Config.ref = true ∧ (Instr.out8Drvhead 0x50#8).wellFormed Config.ref = true := by
  decide

/-! ## Decoding: every constructor from a word written out from the spec's encoding -/

/-- The four opcodes (R64), with operands. -/
theorem test_decode_commands :
    decode Config.table (.req ⟨0b00100100#8, args true lba0 2#16 []⟩) = .instr (.readSectorsExt (args true lba0 2#16 [])) ∧
    decode Config.table (.req ⟨0b00110100#8, args false 5#64 1#16 [1#8]⟩) =
      .instr (.writeSectorsExt (args false 5#64 1#16 [1#8])) ∧
    decode Config.table (.req ⟨0b00100000#8, args false 16#64 1#16 []⟩) = .instr (.readSectors28 (args false 16#64 1#16 [])) ∧
    decode Config.table (.req ⟨0b00110000#8, args true 16#64 1#16 []⟩) =
      .instr (.writeSectors28 (args true 16#64 1#16 [])) := by
  decide

/-- The ten keys `d w ooo` (R66). -/
theorem test_decode_keys :
    decode Config.table (.pio 0b01000#5 0#16) = .instr .in16Data ∧
    decode Config.table (.pio 0b11000#5 0x2211#16) = .instr (.out16Data 0x2211#16) ∧
    decode Config.table (.pio 0b10010#5 0x01#16) = .instr (.out8Seccnt 0x01#8) ∧
    decode Config.table (.pio 0b10011#5 0x05#16) = .instr (.out8Lba0 0x05#8) ∧
    decode Config.table (.pio 0b10100#5 0x04#16) = .instr (.out8Lba1 0x04#8) ∧
    decode Config.table (.pio 0b10101#5 0x03#16) = .instr (.out8Lba2 0x03#8) ∧
    decode Config.table (.pio 0b10110#5 0x50#16) = .instr (.out8Drvhead 0x50#8) ∧
    decode Config.table (.pio 0b10111#5 0x24#16) = .instr (.out8Command 0x24#8) ∧
    decode Config.table (.pio 0b00111#5 0#16) = .instr .in8Status ∧
    decode Config.table (.pio 0b00001#5 0#16) = .instr .in8Error := by
  decide

/-- Reserved forms: an unknown opcode and `0x20` without `LEGACY28` (R70), a read of `BASE+2`, an 8-bit access to `BASE+0`,
a 16-bit access to `BASE+2` (R74), the error register key in `MINIMAL` (R66), a byte write of 9 bits (R63). -/
theorem test_decode_reserved :
    decode Config.table (.req ⟨0x25#8, args false 0#64 1#16 []⟩) = .rejected (.illegalOp 0x25#8) ∧
    decode Config.ref (.req ⟨0x20#8, args false 0#64 1#16 []⟩) = .rejected (.illegalOp 0x20#8) ∧
    decode Config.table (.pio 0b00010#5 0#16) = .rejected (.keyNotIssued 0b00010#5) ∧
    decode Config.table (.pio 0b10000#5 0#16) = .rejected (.keyNotIssued 0b10000#5) ∧
    decode Config.table (.pio 0b11010#5 0#16) = .rejected (.keyNotIssued 0b11010#5) ∧
    decode Config.ref (.pio 0b00001#5 0#16) = .rejected (.keyNotIssued 0b00001#5) ∧
    decode Config.table (.pio 0b10010#5 0x100#16) = .rejected (.valueTooWide 0x100#16) ∧
    decode Config.table (.pio 0b00111#5 1#16) = .rejected (.valueOnRead 1#16) := by
  decide

/-- Every row of spec/opcode_table.json decodes, and its instruction is the first the machine runs after reset. -/
theorem test_table_rows_run :
    ([0x24, 0x34, 0x20, 0x30, 0b01000, 0b11000, 0b10010, 0b10011, 0b10100, 0b10101, 0b10110, 0b10111, 0b00111,
      0b00001].all fun w =>
        (decodeTableWord 8 w).isSome && goesTo (step (State.reset.withFetchWord 8 w)) fun _ => true) = true := by
  decide +kernel

/-! ## Commands -/

/-- L2-1 row 7: the largest LBA is accepted, the preamble starts, and no port is touched. -/
theorem test_read_ext_accepted :
    goesTo (exec (.readSectorsExt (args false 0xFFFFFFFFFFFF#64 1#16 [])) (asks Config.ref ⟨0#8, args false 0#64 0#16 []⟩ (some [])))
      (fun t => decide (t.seq.phase = .preamble) && decide (t.seq.pstep = some 0) && decide (t.seq.op = some 0x24#8)
        && decide (t.seq.dir = some .rd) && decide (t.trace = [])) = true := by
  decide +kernel

/-- L2-1 rows 3, 4 and 5: `E_COUNT` before `E_LEN` and before `E_LBA`, and `E_LBA`. -/
theorem test_read_ext_rejected :
    goesTo (exec (.readSectorsExt (args false 0#64 0#16 [0#8])) State.reset) (answered .eCount) = true ∧
    goesTo (exec (.readSectorsExt (args false 0x1000000000000#64 0#16 [])) State.reset) (answered .eCount) = true ∧
    goesTo (exec (.readSectorsExt (args false 0x1000000000000#64 1#16 [])) State.reset) (answered .eLba) = true := by
  decide +kernel

/-- L1-5: a write of 511 bytes and one of 513 bytes end with `E_LEN`, no port touched. -/
theorem test_write_ext_length :
    goesTo (exec (.writeSectorsExt (args false 0#64 1#16 (List.replicate 511 0#8))) State.reset) (answered .eLen) = true ∧
    goesTo (exec (.writeSectorsExt (args false 0#64 1#16 (List.replicate 513 0#8))) State.reset) (answered .eLen) = true := by
  decide +kernel

/-- L2-1 row 10: a write is accepted although the allocator would fail. -/
theorem test_write_ext_accepted :
    goesTo (step (asks Config.ref ⟨0x34#8, args false 0#64 1#16 (List.replicate 512 0#8)⟩ none))
      (fun t => decide (t.seq.phase = .preamble) && decide (t.seq.dir = some .wr) && decide (t.requests = [])) = true := by
  decide +kernel

/-- L2-1 rows 11 and 13: `lba = 2^24` and `count = 257`; row 2: `LEGACY28` off. -/
theorem test_read_28_rejected :
    goesTo (exec (.readSectors28 (args false 0x1000000#64 1#16 [])) (st (cfgOf .minimal true) Seq.reset)) (answered .eLba) = true ∧
    goesTo (exec (.readSectors28 (args false 0#64 257#16 [])) (st (cfgOf .minimal true) Seq.reset)) (answered .eCount) = true ∧
    goesTo (exec (.readSectors28 (args false 0#64 1#16 [])) State.reset) (answered .eOp) = true := by
  decide +kernel

/-- L2-1 row 12: both bounds of a 28-bit command at their limit. -/
theorem test_read_28_accepted :
    goesTo (step (asks (cfgOf .minimal true) ⟨0x20#8, args false 0xFFFFFF#64 256#16 []⟩ (some [])))
      (fun t => decide (t.seq.phase = .preamble) && decide (t.seq.op = some 0x20#8)) = true := by
  decide +kernel

/-- L2-2 row 9's request is accepted as a write with opcode `0x30`. -/
theorem test_write_28_accepted :
    goesTo (exec (.writeSectors28 (args true 0x0A0B0C#64 1#16 (List.replicate 512 7#8))) (st (cfgOf .minimal true) Seq.reset))
      (fun t => decide (t.seq.phase = .preamble) && decide (t.seq.op = some 0x30#8) && decide (t.seq.drv = some true)
        && decide (t.seq.dir = some .wr)) = true := by
  decide +kernel

/-- L2-1 row 9: `E_ALLOC` when the allocator fails. -/
theorem test_alloc_fails :
    goesTo (step (asks Config.ref ⟨0x24#8, args false 0#64 1#16 []⟩ none)) (answered .eAlloc) = true := by
  decide +kernel

/-! ## Port transactions and sequencer steps -/

/-- L2-3: `0x07` after `0x03` leaves (`03`, `07`) in `SECCNT`. -/
theorem test_seccnt_fifo :
    goesTo (exec (.out8Seccnt 0x07#8) { State.reset with dev := { Device.reset with seccnt := ⟨0#8, 0x03#8⟩ } })
      (fun t => decide (t.dev.seccnt = ⟨0x03#8, 0x07#8⟩) && decide (t.trace = [.portWrite8 0x1F2#16 0x07#8])) = true := by
  decide +kernel

/-- R109, R110, R111: the examples' second writes. -/
theorem test_lba_fifos :
    goesTo (exec (.out8Lba0 0x05#8) { State.reset with dev := { Device.reset with lba0 := ⟨0#8, 0x02#8⟩ } })
      (fun t => decide (t.dev.lba0 = ⟨0x02#8, 0x05#8⟩) && decide (t.trace = [.portWrite8 0x1F3#16 0x05#8])) = true ∧
    goesTo (exec (.out8Lba1 0x04#8) { State.reset with dev := { Device.reset with lba1 := ⟨0#8, 0x01#8⟩ } })
      (fun t => decide (t.dev.lba1 = ⟨0x01#8, 0x04#8⟩) && decide (t.trace = [.portWrite8 0x1F4#16 0x04#8])) = true ∧
    goesTo (exec (.out8Lba2 0x03#8) { State.reset with dev := { Device.reset with lba2 := ⟨0#8, 0#8⟩ } })
      (fun t => decide (t.dev.lba2 = ⟨0#8, 0x03#8⟩) && decide (t.trace = [.portWrite8 0x1F5#16 0x03#8])) = true := by
  decide +kernel

/-- R112: `0x50` selects drive 1. -/
theorem test_drvhead :
    goesTo (exec (.out8Drvhead 0x50#8) State.reset)
      (fun t => decide (t.dev.drvhead = 0x50#8) && selectedDrive t.cfg t.dev) = true := by
  decide +kernel

/-- L2-3 row 3: what the device latches for a 48-bit command. -/
theorem test_command_latch_48 :
    goesTo (exec (.out8Command 0x24#8) { State.reset with dev := { Device.reset with
        drvhead := 0x40#8, seccnt := ⟨0#8, 1#8⟩, lba0 := ⟨2#8, 5#8⟩, lba1 := ⟨1#8, 4#8⟩, lba2 := ⟨0#8, 3#8⟩ } })
      (fun t => decide (t.dev.pending = some ⟨0x24#8, false, 0x000102030405#48, 1⟩) && decide (t.dev.pos = 0)) = true := by
  decide +kernel

/-- L2-3 row 7: a 28-bit count byte of 0 means 256. -/
theorem test_command_latch_28 :
    goesTo (exec (.out8Command 0x20#8) { State.reset with
        cfg := cfgOf .minimal true, dev := { Device.reset with drvhead := 0x40#8, seccnt := ⟨1#8, 0#8⟩ } })
      (fun t => decide (t.dev.pending = some ⟨0x20#8, false, 0#48, 256⟩)) = true := by
  decide +kernel

/-- L2-4 rows 3 and 6: `0xFF` is ready, `0xF7` is not. -/
theorem test_poll_minimal :
    goesTo (step (ans (st Config.ref { qRd with phase := .cmdIssued }) [0xFF#8] [] []))
      (fun t => decide (t.seq.phase = .ready)) = true ∧
    goesTo (step (ans (st Config.ref { qRd with phase := .cmdIssued }) [0xF7#8] [] []))
      (fun t => decide (t.seq.phase = .cmdIssued) && decide (t.trace = [.portRead8 0x1F7#16 0xF7#8])) = true := by
  decide +kernel

/-- L2-5 rows 3, 8, and the deadline: `0x09` is an error, `0xFE` is ready, the last status read without either times out. -/
theorem test_poll_hardened :
    goesTo (step (ans (st (cfgOf .hardened false) { qRd with phase := .cmdIssued }) [0x09#8] [] []))
      (fun t => decide (t.seq.phase = .error) && decide (t.seq.polls = some 1)) = true ∧
    goesTo (step (ans (st (cfgOf .hardened false) { qRd with phase := .cmdIssued }) [0xFE#8] [] []))
      (fun t => decide (t.seq.phase = .ready)) = true ∧
    goesTo (step (ans (st (cfgOf .hardened false) { qRd with phase := .cmdIssued, polls := some 3 }) [0x80#8] [] []))
      (fun t => decide (t.seq.phase = .timeout) && decide (t.seq.polls = some 4)) = true := by
  decide +kernel

/-- L2-7 rows 1 and 8: the low byte goes first, and the last word answers in the same step. -/
theorem test_read_word :
    goesTo (step (ans (st Config.ref { qRd with phase := .ready }) [] [0xBBAA#16] []))
      (fun t => decide (t.seq.widx = some 1)
        && decide (t.seq.buf.map (fun b => (b.read 0, b.read 1)) = some (some 0xAA#8, some 0xBB#8))) = true ∧
    goesTo (step (ans (st Config.ref { qRd with phase := .ready, widx := some 255 }) [] [0xCAFE#16] []))
      (fun t => decide (t.seq.phase = .idle)
        && decide (t.responses.map (fun r => (r.code, r.payload.length, r.payload.getLast?)) = [(.ok, 512, some 0xCA#8)]))
      = true := by
  decide +kernel

/-- L2-8 rows 1 and 5: the word of bytes `0x11`, `0x22`, and the last word of a write. -/
theorem test_write_word :
    goesTo (step (st Config.ref { qWr with phase := .ready }))
      (fun t => decide (t.trace = [.portWrite16 0x1F0#16 0x2211#16]) && decide (t.seq.widx = some 1)) = true ∧
    goesTo (step (st Config.ref { qWr with
        phase := .ready, widx := some 255, buf := some (Buffer.ofBytes 512 (List.replicate 510 0#8 ++ [0xEF#8, 0xBE#8])) }))
      (fun t => decide (t.trace = [.portWrite16 0x1F0#16 0xBEEF#16]) && decide (t.responses = [⟨.ok, 0#8, []⟩])
        && decide (t.seq.phase = .idle)) = true := by
  decide +kernel

/-- L2-6 rows 2 and 5: with a retry left the sequence restarts, without one the value just read is reported. -/
theorem test_error_step :
    goesTo (step (ans (st (cfgOf .hardened false) { qRd with phase := .error, pstep := some 9 }) [] [] [0x04#8]))
      (fun t => decide (t.seq.phase = .preamble) && decide (t.seq.pstep = some 0) && decide (t.seq.tries = some 0)
        && decide (t.trace = [.portRead8 0x1F1#16 0x04#8]) && decide (t.responses = [])) = true ∧
    goesTo (step (ans (st (cfgOf .hardened false) { qRd with phase := .error, tries := some 0 }) [] [] [0xCD#8]))
      (fun t => decide (t.responses = [⟨.eDevice, 0xCD#8, []⟩]) && decide (t.seq.phase = .idle)) = true := by
  decide +kernel

/-- L2-6 row 3: the last timeout reports `E_TIMEOUT` after its channel reset, with no port transaction. -/
theorem test_timeout_step :
    goesTo (step (st (cfgOf .hardened false) { qRd with phase := .timeout, tries := some 0 }))
      (fun t => decide (t.responses = [⟨.eTimeout, 0#8, []⟩]) && decide (t.trace = [.channelReset])
        && decide (t.seq.phase = .idle)) = true := by
  decide +kernel

/-- L2-10 row 2: reading `CNT` before anything wrote it faults; R73: the reserved code 6 faults. -/
theorem test_faults :
    step (st Config.ref { Seq.reset with phase := .ready }) = .fault (.unwritten .cnt) ∧
    step (st Config.ref { Seq.reset with phase := .reserved6 }) = .fault (.badPhase 6#3) := ⟨rfl, rfl⟩

/-- L2-2 row 4: count and LBA bytes of the preamble line `40 01 56 34 12 00 BC 9A 78 24`. -/
theorem test_preamble_line :
    preambleInstrs Config.ref false 0x0100#16 0x123456789ABC#64 0x24#8 =
      [.out8Drvhead 0x40#8, .out8Seccnt 0x01#8, .out8Lba0 0x56#8, .out8Lba1 0x34#8, .out8Lba2 0x12#8,
       .out8Seccnt 0x00#8, .out8Lba0 0xBC#8, .out8Lba1 0x9A#8, .out8Lba2 0x78#8, .out8Command 0x24#8] := by
  decide +kernel

/-! ## Hypotheses that can be met

One theorem per statement with hypotheses, and within it one line per clause. -/

/-- The reference parameters, with every choice of `MODE` and `LEGACY28`, are legal. -/
theorem legal (m : Mode) (l : Bool) : (cfgOf m l).Legal := by
  cases m <;> cases l <;> constructor <;> decide

/-- A request that keeps the contract. -/
def rd0 : Request := ⟨0x24#8, args false lba0 1#16 []⟩

/-- A write request that keeps the contract. -/
def wr0 : Request := ⟨0x34#8, args false lba0 1#16 (List.replicate 512 7#8)⟩

theorem latchedRd (m : Mode) (l : Bool) (q : Machine.Seq) (h : q.op = qRd.op ∧ q.dir = qRd.dir ∧ q.drv = qRd.drv ∧
    q.lba = qRd.lba ∧ q.cnt = qRd.cnt ∧ q.buf = qRd.buf ∧ q.tries = qRd.tries) :
    Latched (cfgOf m l) q 0x24#8 .rd false lba0 1#16 (Buffer.ofBytes 512 []) where
  opReg := h.1
  dirReg := h.2.1
  drvReg := h.2.2.1
  lbaReg := h.2.2.2.1
  cntReg := h.2.2.2.2.1
  bufReg := h.2.2.2.2.2.1
  dirOf := if_pos (.inl rfl)
  count := by decide
  lbaBound := by decide
  bound28 := fun _ => (by cases m <;> cases l <;> simp_all [is28, cfgOf, Config.ref])
  bufLen := rfl
  tries := fun _ => ⟨1, h.2.2.2.2.2.2, le_rfl⟩

theorem latchedWr (m : Mode) (l : Bool) (q : Machine.Seq) (h : q.op = qWr.op ∧ q.dir = qWr.dir ∧ q.drv = qWr.drv ∧
    q.lba = qWr.lba ∧ q.cnt = qWr.cnt ∧ q.buf = qWr.buf ∧ q.tries = qWr.tries) :
    Latched (cfgOf m l) q 0x34#8 .wr false lba0 1#16 (Buffer.ofBytes 512 [0x11#8, 0x22#8]) where
  opReg := h.1
  dirReg := h.2.1
  drvReg := h.2.2.1
  lbaReg := h.2.2.2.1
  cntReg := h.2.2.2.2.1
  bufReg := h.2.2.2.2.2.1
  dirOf := by cases l <;> rfl
  count := by decide
  lbaBound := by decide
  bound28 := fun _ => (by cases m <;> cases l <;> simp_all [is28, cfgOf, Config.ref])
  bufLen := rfl
  tries := fun _ => ⟨1, h.2.2.2.2.2.2, le_rfl⟩

theorem progressRd (m : Mode) (l : Bool) (p : Phase) (w n : Option Nat) :
    InProgress (cfgOf m l) { qRd with phase := p, widx := w, pstep := n } :=
  ⟨_, _, _, _, _, _, latchedRd m l _ ⟨rfl, rfl, rfl, rfl, rfl, rfl, rfl⟩⟩

/-- The registers of the test requests are in their ranges. -/
theorem ranges_of {m : Mode} {l : Bool} {q : Machine.Seq} {w : Nat} (hw : w < 2 ^ 24)
    (h : q.pstep = some 0 ∧ q.widx = some w ∧ q.polls = some 0 ∧ q.tries = some 1 ∧ q.lba = some lba0 ∧
      q.cnt = some 1#16)
    (hd : ∀ op, q.op = some op → q.dir = dirOf (cfgOf m l) op) : RangesOk (cfgOf m l) q where
  pstep := fun k hk => by rw [h.1] at hk; injection hk with hk; omega
  widx := fun i hi => by rw [h.2.1] at hi; injection hi with hi; omega
  polls := fun n hn => by rw [h.2.2.1] at hn; injection hn with hn; omega
  tries := fun n hn => by
    rw [h.2.2.2.1] at hn
    injection hn with hn
    rw [← hn]
    exact le_rfl
  lba := fun v hv => by rw [h.2.2.2.2.1] at hv; injection hv with hv; rw [← hv]; decide
  cnt := fun v hv => by rw [h.2.2.2.2.2] at hv; injection hv with hv; rw [← hv]; decide
  dir := hd

theorem rangesRd (m : Mode) (l : Bool) (p : Phase) (w : Nat) (hw : w < 2 ^ 24) :
    RangesOk (cfgOf m l) { qRd with phase := p, widx := some w } :=
  ranges_of hw ⟨rfl, rfl, rfl, rfl, rfl, rfl⟩ fun op h => by
    obtain rfl : 0x24#8 = op := by injection h
    cases l <;> rfl

theorem rangesWr (m : Mode) (l : Bool) (p : Phase) (w : Nat) (hw : w < 2 ^ 24) :
    RangesOk (cfgOf m l) { qWr with phase := p, widx := some w } :=
  ranges_of hw ⟨rfl, rfl, rfl, rfl, rfl, rfl⟩ fun op h => by
    obtain rfl : 0x34#8 = op := by injection h
    cases l <;> rfl

/-- The invariant of a state whose control state is consistent and whose buffer comes from bytes. -/
theorem inv_st (m : Mode) (l : Bool) (q : Machine.Seq) (bs : List Byte) (hq : q.buf = some (Buffer.ofBytes 512 bs))
    (h : PhaseOk (cfgOf m l) q) (hr : RangesOk (cfgOf m l) q) :
    Inv (st (cfgOf m l) q) where
  legal := legal m l
  phase := h
  ranges := hr
  bufWf := fun b hb => by
    obtain rfl : Buffer.ofBytes 512 bs = b := by
      have := hq.symm.trans hb
      injection this
    exact Buffer.ofBytes_wf _ _
  diskWf := fun ds hd => by cases hd

/-- The invariant in `READY`, `ERROR`, `TIMEOUT`, the poll and the preamble. -/
theorem inv_ready_rd (m : Mode) (l : Bool) : Inv (st (cfgOf m l) { qRd with phase := .ready }) :=
  inv_st m l _ [] rfl ⟨progressRd m l .ready (some 0) (some 0), 0, 1#16, rfl, rfl, by decide⟩ (rangesRd m l .ready 0 (by decide))

theorem inv_ready_wr (m : Mode) (l : Bool) : Inv (st (cfgOf m l) { qWr with phase := .ready }) :=
  inv_st m l _ [0x11#8, 0x22#8] rfl
    ⟨⟨_, _, _, _, _, _, latchedWr m l _ ⟨rfl, rfl, rfl, rfl, rfl, rfl, rfl⟩⟩, 0, 1#16, rfl, rfl, by decide⟩
    (rangesWr m l .ready 0 (by decide))

theorem inv_last_word (m : Mode) (l : Bool) : Inv (st (cfgOf m l) { qRd with phase := .ready, widx := some 255 }) :=
  inv_st m l _ [] rfl ⟨progressRd m l .ready (some 255) (some 0), 255, 1#16, rfl, rfl, by decide⟩
    (rangesRd m l .ready 255 (by decide))

theorem inv_preamble (m : Mode) (l : Bool) : Inv (st (cfgOf m l) qRd) :=
  inv_st m l _ [] rfl ⟨progressRd m l .preamble (some 0) (some 0), ⟨0, rfl, by decide⟩, rfl⟩
    (rangesRd m l .preamble 0 (by decide))

theorem inv_poll (m : Mode) (l : Bool) : Inv (st (cfgOf m l) { qRd with phase := .cmdIssued }) :=
  inv_st m l _ [] rfl ⟨progressRd m l .cmdIssued (some 0) (some 0), rfl, fun _ => ⟨0, rfl, (by show 0 < 4; decide)⟩⟩
    (rangesRd m l .cmdIssued 0 (by decide))

theorem inv_error (l : Bool) : Inv (st (cfgOf .hardened l) { qRd with phase := .error }) :=
  inv_st .hardened l _ [] rfl ⟨progressRd .hardened l .error (some 0) (some 0), rfl, rfl⟩
    (rangesRd .hardened l .error 0 (by decide))

theorem inv_timeout (l : Bool) : Inv (st (cfgOf .hardened l) { qRd with phase := .timeout }) :=
  inv_st .hardened l _ [] rfl ⟨progressRd .hardened l .timeout (some 0) (some 0), rfl, rfl⟩
    (rangesRd .hardened l .timeout 0 (by decide))

/-- A state in `IDLE` whose disks, if any, list nothing meets the invariant. -/
theorem inv_idle (s : State) (m : Mode) (l : Bool) (hc : s.cfg = cfgOf m l) (hp : s.seq = Seq.reset)
    (hd : ∀ ds, s.dev.disks = some ds → ds = ⟨Memory.empty, Memory.empty⟩) : Inv s where
  legal := hc ▸ legal m l
  phase := by rw [hp]; trivial
  ranges := by rw [hp]; constructor <;> exact fun _ h => nomatch h
  bufWf := fun b hb => by rw [hp] at hb; cases hb
  diskWf := fun ds h => by rw [hd ds h]; exact ⟨Memory.empty_wf, Memory.empty_wf⟩

/-- UnwrittenReadFaults: each clause's hypotheses are met, and the step stops as stated. -/
theorem witness_unwritten_preamble :
    step (st Config.ref { qRd with pstep := none }) = .fault (.unwritten .pstep) ∧
    step (st Config.ref { qRd with drv := none }) = .fault (.unwritten .drv) ∧
    step (st Config.ref { qRd with pstep := some 1, cnt := none }) = .fault (.unwritten .cnt) ∧
    step (st Config.ref { qRd with pstep := some 5, cnt := none }) = .fault (.unwritten .cnt) ∧
    step (st Config.ref { qRd with pstep := some 2, lba := none }) = .fault (.unwritten .lba) ∧
    step (st Config.ref { qRd with pstep := some 8, lba := none }) = .fault (.unwritten .lba) ∧
    step (st Config.ref { qRd with pstep := some 9, op := none }) = .fault (.unwritten .op) :=
  ⟨rfl, rfl, rfl, rfl, rfl, rfl, rfl⟩

theorem witness_unwritten_ready :
    step (st Config.ref { qRd with phase := .ready, cnt := none }) = .fault (.unwritten .cnt) ∧
    step (st Config.ref { qRd with phase := .ready, widx := none }) = .fault (.unwritten .widx) ∧
    step (st Config.ref { qRd with phase := .ready, dir := none }) = .fault (.unwritten .dir) ∧
    step (st Config.ref { qRd with phase := .ready, buf := none }) = .fault (.unwritten .buf) ∧
    step (st Config.ref { qWr with phase := .ready, buf := none }) = .fault (.unwritten .buf) ∧
    step (st (cfgOf .hardened false) { qRd with phase := .cmdIssued, polls := none }) = .fault (.unwritten .polls) ∧
    step (st (cfgOf .hardened false) { qRd with phase := .error, tries := none }) = .fault (.unwritten .tries) ∧
    step (st (cfgOf .hardened false) { qRd with phase := .timeout, tries := none }) = .fault (.unwritten .tries) :=
  ⟨rfl, rfl, rfl, rfl, rfl, rfl, rfl, rfl⟩

/-- IdleWaitsForRequest. -/
theorem witness_idle : State.reset.seq.phase = .idle ∧ State.reset.requests = [] := ⟨rfl, rfl⟩

/-- ReadCommandsAccepted, both clauses at their limits. -/
theorem witness_read_accepted :
    let s := asks (cfgOf .minimal true) rd0 (some [])
    s.cfg.Legal ∧ s.seq.phase = .idle ∧ s.oracle.alloc = some [] :: [] ∧
      (1 ≤ (args true 0xFFFFFFFFFFFF#64 65535#16 []).count.toNat ∧
        (args true 0xFFFFFFFFFFFF#64 65535#16 []).lba.toNat < 2 ^ 48) ∧
      (s.cfg.legacy28 = true ∧ (args true 0xFFFFFF#64 256#16 []).lba.toNat < 2 ^ 24 ∧
        (args true 0xFFFFFF#64 256#16 []).count.toNat ≤ 256) :=
  ⟨legal _ _, rfl, rfl, by decide, by decide⟩

/-- WriteCommandsAccepted, both clauses. -/
theorem witness_write_accepted :
    let s := st (cfgOf .minimal true) Seq.reset
    let a := args true 0xFFFFFF#64 1#16 (List.replicate 512 7#8)
    s.cfg.Legal ∧ s.seq.phase = .idle ∧ 1 ≤ a.count.toNat ∧ a.data.length = a.count.toNat * 512 ∧
      a.lba.toNat < 2 ^ 48 ∧ s.cfg.legacy28 = true ∧ a.lba.toNat < 2 ^ 24 ∧ a.count.toNat ≤ 256 :=
  ⟨legal _ _, rfl, by decide, by decide +kernel, by decide, rfl, by decide, by decide⟩

/-- RequestChecksInOrder: a request for each clause, at the bounds of the checks. -/
theorem witness_checks :
    (cfgOf .minimal true).Legal ∧
    ([(0x25#8, args false 0#64 1#16 [], ResultCode.eOp), (0x24#8, args false 0#64 0#16 [0#8], .eCount),
      (0x20#8, args false 0#64 257#16 [], .eCount), (0x30#8, args false 0x1000000#64 0#16 [], .eCount),
      (0x34#8, args false 0x1000000000000#64 1#16 [], .eLba), (0x20#8, args false 0x1000000#64 256#16 [], .eLba),
      (0x30#8, args false 0xFFFFFF#64 1#16 [], .eLen), (0x24#8, args false 0xFFFFFFFFFFFF#64 65535#16 [0#8], .eLen)].all fun x =>
        goesTo (step (asks (cfgOf .minimal true) ⟨x.1, x.2.1⟩ none)) (answered x.2.2)) = true :=
  ⟨legal _ _, by decide +kernel⟩

/-- AllocationFailureRejects, with a 48-bit and a 28-bit read. -/
theorem witness_alloc_failure :
    let s := asks (cfgOf .minimal true) rd0 none
    (s.seq.phase = .idle ∧ s.requests = [rd0] ∧ s.oracle.alloc = none :: []) ∧
      (dirOf s.cfg rd0.op = some .rd ∧ check s.cfg rd0.op rd0.args = .ok) ∧
      (dirOf s.cfg 0x20#8 = some .rd ∧ check s.cfg 0x20#8 (args true 0xFFFFFF#64 256#16 []) = .ok) := by
  decide +kernel

/-- BusyRequestWaits. -/
theorem witness_busy : (st Config.ref qRd).seq.phase ≠ .idle ∧ goesTo (step (st Config.ref qRd)) (fun _ => true) = true :=
  ⟨by decide, by decide +kernel⟩

/-- OneWaitingRequestServed: two waiting requests, a read and a write, and each of them can be the one that is latched while
the other is left waiting. -/
theorem witness_two_waiting :
    let s := { asks Config.ref rd0 (some []) with requests := [rd0, wr0] }
    s.seq.phase = .idle ∧ s.requests ≠ [] ∧ 0 < s.requests.length ∧ 1 < s.requests.length ∧
      ([(0, rd0, wr0), (1, wr0, rd0)].all fun x => goesTo (step { s with oracle := { s.oracle with pick := [x.1] } })
        (fun t => decide (t.seq.op = some x.2.1.op) && decide (t.requests = [x.2.2]))) = true :=
  ⟨rfl, by decide, by decide, by decide, by decide +kernel⟩

/-- CommandWriteLatches: a legal state; a 48-bit and a 28-bit opcode; a command inside a reference device's contract. -/
theorem witness_command :
    let s := { st (cfgOf .minimal true) Seq.reset with dev := { Device.reset with
      seccnt := ⟨0#8, 1#8⟩, disks := some ⟨Memory.empty, Memory.empty⟩ } }
    s.cfg.Legal ∧ (s.cfg.legacy28 = true ∧ (0x20#8 = s.cfg.opcRead28 ∨ 0x20#8 = s.cfg.opcWrite28)) ∧
      dirOf s.cfg 0x24#8 ≠ none ∧ referenceCovers s.cfg (latchedPending s.cfg 0 s.dev 0x24#8) = true :=
  ⟨legal _ _, ⟨rfl, .inl rfl⟩, by decide, by decide⟩

/-- StatusAndErrorReadsAnswer and DataAccessesMoveStream: the general device with listed answers. -/
theorem witness_answers :
    let s := ans State.reset [0x08#8] [0xBBAA#16] [0x04#8]
    s.dev.disks = none ∧ s.oracle.status = 0x08#8 :: [] ∧ s.oracle.data = 0xBBAA#16 :: [] ∧
      s.oracle.error = 0x04#8 :: [] := ⟨rfl, rfl, rfl, rfl⟩

/-- PortTransactionFrame. -/
theorem witness_port : isPort .in8Error = true ∧ (Instr.in8Error = .in8Error → (st (cfgOf .hardened false) qRd).cfg.mode = .hardened) :=
  ⟨rfl, fun _ => rfl⟩

/-- PreambleFollowsTable at both ends of the table, CommandWriteIssuesOpcode, NineWritesBeforeCommand. -/
theorem witness_preamble :
    ([0, 8, 9].all fun k => goesTo (step (st Config.ref { qRd with pstep := some k })) (fun _ => true)) = true ∧
    (st Config.ref qRd).seq.phase = .preamble ∧ (st Config.ref qRd).seq.pstep = some 0 ∧
    (st Config.ref qRd).seq.drv = some false ∧ (st Config.ref qRd).seq.cnt = some 1#16 ∧
    (st Config.ref qRd).seq.lba = some lba0 ∧ (st Config.ref qRd).seq.op = some 0x24#8 :=
  ⟨by decide +kernel, rfl, rfl, rfl, rfl, rfl, rfl⟩

/-- DeviceLatchesTheRequest, for a 48-bit command and for a 28-bit one at its largest count. -/
theorem witness_latched :
    (cfgOf .minimal true).Legal ∧ (∃ op dir drv lba cnt buf, Latched (cfgOf .minimal true) qRd op dir drv lba cnt buf) ∧
    Latched (cfgOf .minimal true) { qRd with op := some 0x20#8, lba := some 0xFFFFFF#64, cnt := some 256#16, buf := some (Buffer.ofBytes 131072 []) }
      0x20#8 .rd false 0xFFFFFF#64 256#16 (Buffer.ofBytes 131072 []) :=
  ⟨legal _ _, ⟨_, _, _, _, _, _, latchedRd _ _ _ ⟨rfl, rfl, rfl, rfl, rfl, rfl, rfl⟩⟩,
    ⟨rfl, rfl, rfl, rfl, rfl, rfl, rfl, by decide, by decide, fun _ => by decide, rfl, fun _ => ⟨1, rfl, le_rfl⟩⟩⟩

/-- PollWaitsForDrq, HardenedPollOrder, NoDrqNoProgress. -/
theorem witness_poll :
    (st Config.ref { qRd with phase := .cmdIssued }).seq.phase = .cmdIssued ∧ Config.ref.mode = .minimal ∧
    (cfgOf .hardened false).mode = .hardened ∧ qRd.polls = some 0 ∧
    (ans (st Config.ref { qRd with phase := .cmdIssued }) [0x80#8, 0xF7#8, 0x08#8] [] []).oracle.status =
      [0x80#8, 0xF7#8] ++ [0x08#8] ∧ (∀ v ∈ [0x80#8, 0xF7#8], v.getLsbD 3 = false) ∧ Device.reset.disks = none :=
  ⟨rfl, rfl, rfl, rfl, rfl, by decide, rfl⟩

/-- ReadWordFillsBuffer at the first and at the last word, WriteWordSendsBuffer. -/
theorem witness_words :
    (Inv (st Config.ref { qRd with phase := .ready }) ∧ qRd.dir = some .rd ∧ qRd.cnt = some 1#16 ∧ qRd.widx = some 0 ∧
      qRd.buf = some (Buffer.ofBytes 512 [])) ∧
    Inv (st Config.ref { qRd with phase := .ready, widx := some 255 }) ∧
    (Inv (st Config.ref { qWr with phase := .ready }) ∧ qWr.dir = some .wr ∧ qWr.widx = some 0) :=
  ⟨⟨inv_ready_rd .minimal false, rfl, rfl, rfl, rfl⟩, inv_last_word .minimal false, inv_ready_wr .minimal false, rfl, rfl⟩

/-- BufferBoundsFault: a buffer that is too short, for each clause. -/
theorem witness_short_buffer :
    step (st Config.ref { qRd with phase := .ready, buf := some (Buffer.ofBytes 0 []) }) = .fault (.bufferBounds 0) ∧
    step (ans (st Config.ref { qRd with phase := .ready, buf := some (Buffer.ofBytes 1 []) }) [] [0#16] []) =
      .fault (.bufferBounds 1) ∧
    step (st Config.ref { qWr with phase := .ready, buf := some (Buffer.ofBytes 1 []) }) = .fault (.bufferBounds 1) :=
  ⟨rfl, rfl, rfl⟩

/-- ErrorStepRetriesOrFails and TimeoutStepResetsChannel, with and without a retry left. -/
theorem witness_error_timeout :
    ([(Phase.error, 0), (.error, 1), (.timeout, 0), (.timeout, 1)].all fun x =>
      goesTo (step (st (cfgOf .hardened false) { qRd with phase := x.1, tries := some x.2 })) (fun _ => true)) = true := by
  decide +kernel

/-- DecodeUndoesEncode: every instruction is admitted in the table's configuration; EncodeUndoesDecode: an encoded object
that decodes. -/
theorem witness_encoding :
    Config.table.Legal ∧ (Instr.readSectors28 rd0.args).admitted Config.table = true ∧
    Instr.in8Error.admitted Config.table = true ∧
    decode Config.table (.pio 0b00001#5 0#16) = .instr .in8Error :=
  ⟨legal .hardened true, rfl, rfl, by decide⟩

/-- ReservedEncodingsRejected, both clauses. -/
theorem witness_reserved :
    (0x25#8 ≠ 0x24#8 ∧ 0x25#8 ≠ 0x34#8 ∧ (Config.table.legacy28 = true → 0x25#8 ≠ Config.table.opcRead28 ∧
      0x25#8 ≠ Config.table.opcWrite28)) ∧
    ((cfgOf .minimal false).Legal ∧
      0b00001#5 ∉ [0b01000#5, 0b11000#5, 0b10010#5, 0b10011#5, 0b10100#5, 0b10101#5, 0b10110#5, 0b10111#5, 0b00111#5] ∧
      ¬ ((cfgOf .minimal false).mode = .hardened ∧ 0b00001#5 = 0b00001#5)) :=
  ⟨by decide, legal _ _, by decide, by decide⟩

/-- StepRunsFetchedInstruction, the three clauses. -/
theorem witness_fetch :
    (decode Config.ref (.req rd0) = .instr (.readSectorsExt rd0.args) ∧ (asks Config.ref rd0 none).requests = [rd0]) ∧
    decode Config.ref (.req ⟨0x25#8, rd0.args⟩) = .rejected (.illegalOp 0x25#8) ∧
    (∃ u t, fetch (st Config.ref qRd) = .run (.out8Drvhead 0x40#8) u ∧ exec (.out8Drvhead 0x40#8) u = .next t) :=
  ⟨⟨by decide, rfl⟩, by decide, _, _, rfl, rfl⟩

/-- StepKeepsInvariant and HostMovesKeepInvariant: the invariant holds in every phase of a request. -/
theorem witness_inv :
    Inv (st (cfgOf .hardened true) qRd) ∧ Inv (st (cfgOf .hardened true) { qRd with phase := .cmdIssued }) ∧
    Inv (st (cfgOf .hardened true) { qRd with phase := .error }) ∧
    Inv (st (cfgOf .hardened true) { qRd with phase := .timeout }) :=
  ⟨inv_preamble _ _, inv_poll _ _, inv_error _, inv_timeout _⟩

/-- ExecKeepsMemoriesCanonical: a buffer and disks in canonical form. -/
theorem witness_memories :
    let s := { st Config.ref qWr with dev := { Device.reset with disks := some ⟨Memory.empty, Memory.empty⟩ } }
    (∀ b, s.seq.buf = some b → b.wf) ∧ ∀ ds, s.dev.disks = some ds → ds.wf :=
  ⟨fun b hb => by
    obtain rfl : Buffer.ofBytes 512 [0x11#8, 0x22#8] = b := by injection hb
    exact Buffer.ofBytes_wf _ _,
   fun ds hd => by
    obtain rfl : (⟨Memory.empty, Memory.empty⟩ : Disks) = ds := by injection hd
    exact ⟨Memory.empty_wf, Memory.empty_wf⟩⟩

/-- RegistersFitWidths: the invariant after reset and while a request is in progress, the last word among the states. -/
theorem witness_widths :
    Inv State.reset ∧
    (Inv (st (cfgOf .hardened false) { qRd with phase := .cmdIssued }) ∧ Phase.cmdIssued ≠ .idle) ∧
    Inv (st (cfgOf .hardened false) { qRd with phase := .ready, widx := some 255 }) ∧
    Inv (st (cfgOf .hardened false) qRd) :=
  ⟨inv_idle _ .minimal false rfl rfl (fun _ h => (by cases h)), ⟨inv_poll _ _, by decide⟩, inv_last_word _ _, inv_preamble _ _⟩

/-- StepFollowsTransitionTable, StepIssuesAllowedAccess, DataOnlyAfterDrq, ReservedPhasesFault, MinimalPhasesClosed and
ResponsesAsTabled: steps that go on, the entries of `CMD_ISSUED` and of `READY` and a data access among them. -/
theorem witness_steps :
    (cfgOf .minimal false).Legal ∧ (cfgOf .minimal false).mode = .minimal ∧
    goesTo (step (st (cfgOf .minimal false) { qRd with pstep := some 9 }))
      (fun t => decide (t.seq.phase = .cmdIssued)) = true ∧
    goesTo (step (ans (st (cfgOf .minimal false) { qRd with phase := .cmdIssued }) [0x08#8] [] []))
      (fun t => decide (t.seq.phase = .ready)) = true ∧
    goesTo (step (ans (st (cfgOf .minimal false) { qRd with phase := .ready }) [] [0xBBAA#16] []))
      (fun t => decide (t.trace = [.portRead16 0x1F0#16 0xBBAA#16])) = true ∧
    (st Config.ref { qRd with phase := .reserved6 }).seq.phase = .reserved6 ∧
    (st Config.ref { qRd with phase := .reserved7 }).seq.phase = .reserved7 :=
  ⟨legal _ _, rfl, by decide +kernel, by decide +kernel, by decide +kernel, rfl, rfl⟩

/-- DeadRegistersDoNotMatter: two states that differ in dead registers, in `IDLE` and during a request. -/
theorem witness_dead :
    LiveEq (st Config.ref Seq.reset) (st Config.ref { qRd with phase := .idle }) ∧
    LiveEq (st Config.ref qRd) (st Config.ref { qRd with tries := none, polls := none, errv := some 1#8 }) :=
  ⟨⟨rfl, rfl, rfl, rfl, rfl, rfl, rfl, fun h => absurd rfl h, fun h => absurd rfl h, fun h => (by cases h)⟩,
   ⟨rfl, rfl, rfl, rfl, rfl, rfl, rfl, fun _ => ⟨rfl, rfl, rfl, rfl, rfl, rfl, rfl, rfl⟩, fun _ h => (by cases h),
    fun h => (by cases h)⟩⟩

/-- DeviceRegistersDoNotMatter: two states that differ in the register file. -/
theorem witness_device :
    SameButDevice (st Config.ref qRd) { st Config.ref qRd with dev := { Device.reset with drvhead := 0xFF#8, pos := 7 } } :=
  ⟨rfl, rfl, rfl, rfl, rfl, rfl, rfl, rfl⟩

/-- MinimalReadRunsToResponse: a one-sector read, a status byte without `DRQ`, then one with it. -/
theorem witness_minimal_read :
    let s := ans (asks (cfgOf .minimal false) rd0 (some [])) [0x80#8, 0x08#8] (List.replicate 256 0xAAAA#16) []
    Inv s ∧ s.cfg.mode = .minimal ∧ s.seq.phase = .idle ∧ s.dev.disks = none ∧ s.requests = [rd0] ∧
    check s.cfg rd0.op rd0.args = .ok ∧ dirOf s.cfg rd0.op = some .rd ∧ s.oracle.alloc = some [] :: [] ∧
    s.oracle.status = [0x80#8] ++ 0x08#8 :: [] ∧ (∀ v ∈ [0x80#8], v.getLsbD 3 = false) ∧
    (0x08#8).getLsbD 3 = true ∧ s.oracle.data = List.replicate 256 0xAAAA#16 ++ [] ∧
    (List.replicate 256 0xAAAA#16).length = rd0.args.count.toNat * 256 :=
  ⟨inv_idle _ .minimal false rfl rfl (fun _ h => (by cases h)), rfl, rfl, rfl, rfl, by decide +kernel, by decide, rfl, rfl,
    by decide, by decide, (List.append_nil _).symm, List.length_replicate⟩

/-- MinimalWriteRunsToResponse: a one-sector write. -/
theorem witness_minimal_write :
    let s := ans (asks (cfgOf .minimal false) wr0 none) [0x80#8, 0x08#8] [] []
    Inv s ∧ s.cfg.mode = .minimal ∧ s.seq.phase = .idle ∧ s.dev.disks = none ∧ s.requests = [wr0] ∧
    check s.cfg wr0.op wr0.args = .ok ∧ dirOf s.cfg wr0.op = some .wr ∧ s.oracle.status = [0x80#8] ++ 0x08#8 :: [] :=
  ⟨inv_idle _ .minimal false rfl rfl (fun _ h => (by cases h)), rfl, rfl, rfl, rfl, by decide +kernel, by decide, rfl⟩

/-- HardenedRequestsFinish, in every phase of a request. -/
theorem witness_hardened :
    ((cfgOf .hardened false).mode = .hardened ∧ qRd.cnt = some 1#16) ∧
    ([Phase.preamble, .cmdIssued, .ready, .error, .timeout].all fun p => decide (p ≠ .idle)) = true ∧
    Inv (st (cfgOf .hardened false) qRd) ∧ Inv (st (cfgOf .hardened false) { qRd with phase := .cmdIssued }) ∧
    Inv (st (cfgOf .hardened false) { qRd with phase := .ready }) ∧
    Inv (st (cfgOf .hardened false) { qRd with phase := .error }) ∧
    Inv (st (cfgOf .hardened false) { qRd with phase := .timeout }) :=
  ⟨⟨rfl, rfl⟩, by decide, inv_preamble _ _, inv_poll _ _, inv_ready_rd _ _, inv_error _, inv_timeout _⟩

/-- ReferenceDeviceStoresAndStreams and ReferenceDeviceShowsDrq: a pending write and a pending read with words left, and
commands with none left. -/
theorem witness_reference :
    let ds : Disks := ⟨Memory.empty, Memory.empty⟩
    let dev := fun (op : Byte) (pos : Nat) => { Device.reset with pending := some ⟨op, true, 5#48, 1⟩, pos := pos, disks := some ds }
    (dev 0x34#8 255).disks = some ds ∧ ds.wf ∧ (dev 0x34#8 255).pending = some ⟨0x34#8, true, 5#48, 1⟩ ∧
    (dev 0x34#8 255).pos < 1 * 256 ∧ dirOf Config.ref 0x34#8 = some .wr ∧ dirOf Config.ref 0x24#8 = some .rd ∧
    State.reset.oracle.status = [] ∧ 1 * 256 ≤ (dev 0x24#8 256).pos ∧ Device.reset.pending = none :=
  ⟨rfl, ⟨Memory.empty_wf, Memory.empty_wf⟩, rfl, by decide, by decide, by decide, rfl, by decide, rfl⟩

/-- ReferenceRoundTrip: a write and a read of the same sector. -/
theorem witness_round_trip :
    let s := { asks (cfgOf .minimal false) wr0 (some []) with
      dev := { Device.reset with disks := some ⟨Memory.empty, Memory.empty⟩ } }
    Inv s ∧ s.cfg.mode = .minimal ∧ s.seq.phase = .idle ∧ s.dev.disks = some ⟨Memory.empty, Memory.empty⟩ ∧
    s.oracle.status = [] ∧ s.requests = [wr0] ∧ check s.cfg wr0.op wr0.args = .ok ∧ dirOf s.cfg wr0.op = some .wr ∧
    check s.cfg rd0.op rd0.args = .ok ∧ dirOf s.cfg rd0.op = some .rd ∧ rd0.args.drive = wr0.args.drive ∧
    rd0.args.lba = wr0.args.lba ∧ rd0.args.count = wr0.args.count ∧
    wr0.args.lba.toNat + wr0.args.count.toNat ≤ capacity s.cfg wr0.args.drive ∧ s.oracle.alloc = some [] :: [] :=
  ⟨inv_idle _ .minimal false rfl rfl (fun ds h => by injection h with h; exact h.symm), rfl, rfl, rfl, rfl, rfl,
    by decide +kernel, by decide, by decide +kernel, by decide, rfl, rfl, rfl, by decide +kernel, rfl⟩

end Sys2Proof.Tests
end

/-! The rules of the invariant, row by row of 40_protocol.md R95: a state that meets it goes on (`step_goesOn`), and every
step that goes on keeps it (`Inv.step_inv`). The same fetch equations give the stops of an unwritten register (R13). -/

namespace Sys2Proof.Machine

/-! What the sequencer issues next, phase by phase. -/

/-- A stop of the sequencer is the step's fault. -/
theorem step_of_stop {s : State} {f : Fault} (h : fetch s = .stop f) : step s = .fault f := by
  rw [step, h]

theorem fetch_preamble {s : State} {k : Nat} (hp : s.seq.phase = .preamble) (hk : s.seq.pstep = some k) :
    fetch s = preambleRow s k := by
  simp only [fetch, hp, hk, readReg_some]

theorem fetch_cmdIssued {s : State} (hp : s.seq.phase = .cmdIssued) : fetch s = .run .in8Status s := by
  simp only [fetch, hp]

theorem fetch_ready {s : State} (hp : s.seq.phase = .ready) : fetch s = fetchData s := by
  simp only [fetch, hp]

theorem fetch_error {s : State} (hp : s.seq.phase = .error) (hm : s.cfg.mode = .hardened) :
    fetch s = .run .in8Error s := by
  simp only [fetch, hp, hm, if_true]

theorem fetch_timeout {s : State} (hp : s.seq.phase = .timeout) (hm : s.cfg.mode = .hardened) :
    fetch s = .timeoutStep := by
  simp only [fetch, hp, hm, if_true]

/-! Steps that read an unwritten register (R13). -/

/-- Rows 1 and 5 of the preamble read `CNT` (R79). -/
theorem preambleRow_cnt_unwritten {s : State} {k : Nat} (hk : k = 1 ∨ k = 5) (hc : s.seq.cnt = none) :
    preambleRow s k = .stop (.unwritten .cnt) := by
  rcases hk with rfl | rfl <;> simp only [preambleRow, hc, readReg_none]

/-- Rows 2, 3, 4, 6, 7 and 8 of the preamble read `LBA` (R79). -/
theorem preambleRow_lba_unwritten {s : State} {k : Nat} (hk : k ∈ [2, 3, 4, 6, 7, 8]) (hl : s.seq.lba = none) :
    preambleRow s k = .stop (.unwritten .lba) := by
  simp only [List.mem_cons, List.not_mem_nil, or_false] at hk
  rcases hk with rfl | rfl | rfl | rfl | rfl | rfl <;> simp only [preambleRow, hl, readReg_none]

/-- A data step with a word left needs `BUF`: a write before its port access, a read after it (log 30). -/
theorem step_ready_buf_unwritten {s : State} {cnt : CountWord} {i : Nat} {d : Dir} (hp : s.seq.phase = .ready)
    (hc : s.seq.cnt = some cnt) (hi : s.seq.widx = some i) (hlt : i < nw cnt) (hd : s.seq.dir = some d)
    (hb : s.seq.buf = none) : step s = .fault (.unwritten .buf) := by
  cases d with
  | rd =>
    have hf : fetch s = .run .in16Data s := by simp [fetch_ready hp, fetchData, hc, hi, hd, hlt]
    rw [step_of_run hf rfl]
    simp [advance, wordRead, hc, hi, hb]
  | wr => exact step_of_stop (by simp [fetch_ready hp, fetchData, hc, hi, hd, hlt, hb])

theorem step_poll_unwritten {s : State} (hp : s.seq.phase = .cmdIssued) (hm : s.cfg.mode = .hardened)
    (hn : s.seq.polls = none) : step s = .fault (.unwritten .polls) := by
  rw [step_of_run (fetch_cmdIssued hp) rfl]
  simp [advance, polled, hm, hn]

/-- The `ERROR` and the `TIMEOUT` step read `TRIES` (R126, R127). -/
theorem step_tries_unwritten {s : State} (hp : s.seq.phase = .error ∨ s.seq.phase = .timeout)
    (hm : s.cfg.mode = .hardened) (hn : s.seq.tries = none) : step s = .fault (.unwritten .tries) := by
  rcases hp with hp | hp
  · rw [step_of_run (fetch_error hp hm) rfl]
    simp [advance, errorRead, hn]
  · simp [step, fetch_timeout hp hm, timedOut, hn]

/-! The buffer, the parameters and the disks across a step. -/

/-- The two byte writes of a word inside the buffer happen (R99). -/
theorem Buffer.write_word_of_lt {b : Buffer} {i : Nat} (h : 2 * i + 1 < b.len) (lo hi : Byte) :
    ∃ b1 b2, b.write (2 * i) lo = some b1 ∧ b1.write (2 * i + 1) hi = some b2 :=
  ⟨_, ⟨b.len, _⟩, Buffer.write_of_lt (Nat.lt_of_succ_lt h) lo, if_pos h⟩

theorem PreambleWrite.le_eight {s : State} {k : Nat} {off : PortOff} {v : Byte} {d : Device}
    (h : PreambleWrite s k off v d) : k ≤ 8 := by
  cases h <;> decide

/-- A preamble row leaves the disks alone. -/
theorem PreambleWrite.disks_eq {s : State} {k : Nat} {off : PortOff} {v : Byte} {d : Device}
    (h : PreambleWrite s k off v d) : d.disks = s.dev.disks := by
  cases h <;> rfl

theorem retryOrRaise_cfg (s : State) (n : Nat) (c : ResultCode) (v : Byte) : (retryOrRaise s n c v).cfg = s.cfg := by
  rcases retryOrRaise_cases s n c v with ⟨-, h⟩ | ⟨-, h⟩ <;> rw [h] <;> rfl

theorem afterWord_cfg (s : State) (i : Nat) (cnt : CountWord) (payload : List Byte) :
    (afterWord s i cnt payload).cfg = s.cfg := by
  rcases afterWord_cases s i cnt payload with ⟨-, h⟩ | ⟨-, h⟩ <;> rw [h] <;> rfl

/-- No step writes the parameters (log 1). -/
theorem step_cfg {s t : State} (h : step s = .next t) : t.cfg = s.cfg := by
  cases step_cases h with
  | wait _ _ ht => rw [ht]
  | request r s1 _ hc ht =>
    obtain ⟨k, o, -, -, rfl⟩ := chooseRequest_some hc
    exact (accept_cfg ht).trans rfl
  | preamble k off v d _ _ _ ht => rw [ht]; rfl
  | command op _ _ _ ht => rw [ht]; rfl
  | pollMinimal _ _ ht => rw [ht]; split <;> rfl
  | pollHardened n _ _ _ ht => rw [ht]; rfl
  | dataRead cnt i buf b1 b2 _ _ _ _ _ _ _ _ ht => rw [ht]; exact afterWord_cfg _ _ _ _
  | dataWrite cnt i buf lo hi _ _ _ _ _ _ _ _ ht => rw [ht]; exact afterWord_cfg _ _ _ _
  | errorStep n _ _ _ ht => rw [ht]; exact retryOrRaise_cfg _ _ _ _
  | timeoutStep n _ _ _ ht => rw [ht]; exact retryOrRaise_cfg _ _ _ _

end Sys2Proof.Machine

namespace Sys2Proof.Safety

open Sys2Proof.Machine

/-! What the invariant says in each phase. -/

theorem phaseOk_idle {c : Config} {q : Seq} (hp : q.phase = .idle) : PhaseOk c q := by
  simp only [PhaseOk, hp]

theorem phaseOk_preamble {c : Config} {q : Seq} (hp : q.phase = .preamble) :
    PhaseOk c q ↔ InProgress c q ∧ (∃ k, q.pstep = some k ∧ k ≤ 9) ∧ q.widx = some 0 := by
  simp only [PhaseOk, hp]

theorem phaseOk_cmdIssued {c : Config} {q : Seq} (hp : q.phase = .cmdIssued) :
    PhaseOk c q ↔ InProgress c q ∧ q.widx = some 0 ∧
      (c.mode = .hardened → ∃ n, q.polls = some n ∧ n < c.pollDeadline) := by
  simp only [PhaseOk, hp]

theorem phaseOk_ready {c : Config} {q : Seq} (hp : q.phase = .ready) :
    PhaseOk c q ↔ InProgress c q ∧ ∃ i cnt, q.widx = some i ∧ q.cnt = some cnt ∧ i < nw cnt := by
  simp only [PhaseOk, hp]

/-- `ERROR` and `TIMEOUT` say the same (R92). -/
theorem phaseOk_failed {c : Config} {q : Seq} (hp : q.phase = .error ∨ q.phase = .timeout) :
    PhaseOk c q ↔ InProgress c q ∧ q.widx = some 0 ∧ c.mode = .hardened := by
  rcases hp with hp | hp <;> simp only [PhaseOk, hp]

theorem phaseOk_not_reserved {c : Config} {q : Seq} (h : PhaseOk c q) :
    q.phase ≠ .reserved6 ∧ q.phase ≠ .reserved7 := by
  constructor <;> intro hp <;> simp only [PhaseOk, hp] at h

/-- `NW(CNT)` words fit the 24 bits of `WIDX` (R18). -/
theorem nw_lt (cnt : CountWord) : nw cnt < 2 ^ 24 := by
  have := cnt.isLt
  unfold nw Config.wordsPerSector
  omega

/-- A request stays in progress while the registers that acceptance writes from it, its buffer and `TRIES` keep their
values. -/
theorem InProgress.of_eq {c : Config} {q q' : Seq} (h : InProgress c q)
    (he : (q'.op, q'.dir, q'.drv, q'.lba, q'.cnt, q'.buf, q'.tries) =
      (q.op, q.dir, q.drv, q.lba, q.cnt, q.buf, q.tries)) : InProgress c q' := by
  obtain ⟨op, dir, drv, lba, cnt, buf, h⟩ := h
  simp only [Prod.mk.injEq] at he
  obtain ⟨h1, h2, h3, h4, h5, h6, h7⟩ := he
  exact ⟨op, dir, drv, lba, cnt, buf,
    h.mono h1 h2 h3 h4 h5 (h6.trans h.bufReg) rfl fun _ n hn hle => ⟨n, h7.trans hn, hle⟩⟩

/-- A checked request is latched with its buffer (R71, R77). -/
theorem InProgress.of_latch {c : Config} {q : Seq} {op : Byte} {d : Dir} {a : ReqArgs} {b : Buffer}
    (hc : check c op a = .ok) (hd : dirOf c op = some d) (hb : b.len = nb a.count) :
    InProgress c (q.latch c op d a b) := by
  obtain ⟨_, _, h1, h2, h28, -, -⟩ := check_ok hc
  exact ⟨op, d, a.drive, a.lba, a.count, b, rfl, rfl, rfl, rfl, rfl, rfl, hd, h1, h2, h28, hb,
    fun hm => ⟨c.retries, if_pos hm, le_rfl⟩⟩

/-- The registers that a checked request writes are in their ranges (R18, R71). -/
theorem RangesOk.latchRequest {c : Config} {q : Seq} {op : Byte} {d : Dir} {a : ReqArgs} (h : RangesOk c q)
    (hc : check c op a = .ok) (hd : dirOf c op = some d) : RangesOk c (q.latchRequest op d a) := by
  obtain ⟨_, _, h1, h2, -, -, -⟩ := check_ok hc
  exact { h with
    lba := fun v e => by obtain rfl : a.lba = v := Option.some.inj e; exact h2
    cnt := fun v e => by obtain rfl : a.count = v := Option.some.inj e; exact h1
    dir := fun v e => by obtain rfl : op = v := Option.some.inj e; exact hd.symm }

/-- The registers that acceptance writes are in their ranges (R77). -/
theorem RangesOk.latch {c : Config} {q : Seq} {op : Byte} {d : Dir} {a : ReqArgs} {b : Buffer} (h : RangesOk c q)
    (hc : check c op a = .ok) (hd : dirOf c op = some d) : RangesOk c (q.latch c op d a b) := by
  refine (h.latchRequest hc hd).mono rfl rfl rfl rfl ?_ ?_ (fun _ e => .inl e) ?_
  · intro k e
    obtain rfl : 0 = k := Option.some.inj e
    exact .inr (Nat.zero_le _)
  · intro i e
    obtain rfl : 0 = i := Option.some.inj e
    exact .inr (by decide)
  · intro n e
    simp only [Seq.latch] at e
    split at e
    · obtain rfl : c.retries = n := Option.some.inj e
      exact .inr le_rfl
    · exact .inl e

/-! What keeps the invariant. -/

/-- The invariant depends on the parameters, the sequencer and the disks only. -/
theorem Inv.of_eq {s t : State} (h : Inv s) (hc : t.cfg = s.cfg) (hq : t.seq = s.seq)
    (hd : t.dev.disks = s.dev.disks) : Inv t where
  legal := hc ▸ h.legal
  phase := hc ▸ hq ▸ h.phase
  ranges := hc ▸ hq ▸ h.ranges
  bufWf := hq ▸ h.bufWf
  diskWf := hd ▸ h.diskWf

theorem Inv.chooseRequest_inv {s s1 : State} {r : Request} (h : Inv s) (hc : chooseRequest s = some (r, s1)) : Inv s1 := by
  obtain ⟨k, o, -, -, rfl⟩ := chooseRequest_some hc
  exact h.of_eq rfl rfl rfl

/-- The end of a request keeps the invariant (R131). -/
theorem Inv.endRequest_inv {s : State} (h : Inv s) (c : ResultCode) (v : Byte) (p : List Byte) :
    Inv (endRequest s c v p) :=
  ⟨h.legal, phaseOk_idle rfl, { h.ranges with }, h.bufWf, h.diskWf⟩

/-- Latching a checked request with a well-formed buffer of its size keeps the invariant (R77). -/
theorem Inv.latch_inv {s : State} {op : Byte} {d : Dir} {a : ReqArgs} {b : Buffer} (h : Inv s)
    (hc : check s.cfg op a = .ok) (hd : dirOf s.cfg op = some d) (hb : b.len = nb a.count) (hw : b.wf) :
    Inv (s.withSeq (s.seq.latch s.cfg op d a b)) where
  legal := h.legal
  phase := (phaseOk_preamble rfl).2 ⟨.of_latch hc hd hb, ⟨0, rfl, by decide⟩, rfl⟩
  ranges := h.ranges.latch hc hd
  bufWf := fun b' e => by obtain rfl : b = b' := Option.some.inj e; exact hw
  diskWf := h.diskWf

/-- Acceptance in `IDLE` keeps the invariant, whether it rejects the request or latches it (R77, R124). -/
theorem Inv.accept_inv {op : Byte} {a : ReqArgs} {s t : State} (h : Inv s) (hp : s.seq.phase = .idle)
    (ht : accept op a s = .next t) : Inv t := by
  have ho : Inv (s.withOracle s.oracle.drawAlloc.2) := h.of_eq rfl rfl rfl
  rcases accept_idle_cases hp ht with ⟨c, -, -, rfl⟩ | ⟨hc, hd, -, rfl⟩ | ⟨init, hc, hd, -, rfl⟩ | ⟨hc, hd, rfl⟩
  · exact h.endRequest_inv c 0#8 []
  · exact ⟨h.legal, phaseOk_idle rfl, { h.ranges.latchRequest hc hd with }, h.bufWf, h.diskWf⟩
  · exact ho.latch_inv hc hd rfl (Buffer.ofBytes_wf _ _)
  · exact h.latch_inv hc hd rfl (Buffer.ofBytes_wf _ _)

/-- A preamble row keeps the invariant: `PSTEP` stays at most 9 (R80 to R88). -/
theorem Inv.afterPreamble_inv {s : State} {k : Nat} {off : PortOff} {v : Byte} {d : Device} (h : Inv s)
    (hp : s.seq.phase = .preamble) (hw : PreambleWrite s k off v d) : Inv (afterPreamble s k off v d) := by
  obtain ⟨hq, -, hi⟩ := (phaseOk_preamble hp).1 h.phase
  have hk : k + 1 ≤ 9 := Nat.succ_le_succ hw.le_eight
  exact {
    legal := h.legal
    phase := (phaseOk_preamble (by exact hp)).2 ⟨hq.of_eq rfl, ⟨k + 1, rfl, hk⟩, hi⟩
    ranges := { h.ranges with pstep := fun k' e => by obtain rfl : k + 1 = k' := Option.some.inj e; exact hk }
    bufWf := h.bufWf
    diskWf := fun ds e => h.diskWf ds (hw.disks_eq ▸ e) }

/-- The command write keeps the invariant: a deadline of at least 1 allows the first poll (R8, R89). -/
theorem Inv.afterCommand_inv {s : State} {op : Byte} (h : Inv s) (hp : s.seq.phase = .preamble) :
    Inv (afterCommand s op) := by
  obtain ⟨hq, -, hi⟩ := (phaseOk_preamble hp).1 h.phase
  have hpolls : ∀ n, (if s.cfg.mode = .hardened then some 0 else s.seq.polls) = some n → n ≤ s.cfg.pollDeadline := by
    intro n e
    split at e
    · obtain rfl : 0 = n := Option.some.inj e
      exact Nat.zero_le _
    · exact h.ranges.polls n e
  exact {
    legal := h.legal
    phase := (phaseOk_cmdIssued rfl).2 ⟨hq.of_eq rfl, hi, fun hm => ⟨0, if_pos hm, h.legal.pollDeadline⟩⟩
    ranges := { h.ranges with polls := hpolls }
    bufWf := h.bufWf
    diskWf := Device.takeCommand_wf h.diskWf }

/-- `READY` may be entered at word 0, as a count is at least 1 (R18). -/
theorem InProgress.first_word {c : Config} {q : Seq} (h : InProgress c q) (hi : q.widx = some 0) :
    ∃ i cnt, q.widx = some i ∧ q.cnt = some cnt ∧ i < nw cnt := by
  obtain ⟨_, _, _, _, cnt, _, h⟩ := h
  exact ⟨0, cnt, hi, h.cntReg, Nat.mul_pos h.count (by decide)⟩

/-- A `MINIMAL` poll that sees `DRQ` keeps the invariant (R91). -/
theorem Inv.setReady_inv {s : State} (h : Inv s) (hp : s.seq.phase = .cmdIssued) : Inv (s.setPhase .ready) := by
  obtain ⟨hq, hi, -⟩ := (phaseOk_cmdIssued hp).1 h.phase
  exact ⟨h.legal, (phaseOk_ready rfl).2 ⟨hq.of_eq rfl, hq.first_word hi⟩, { h.ranges with }, h.bufWf, h.diskWf⟩

/-- The phase after a `HARDENED` poll is one whose conditions hold: a poll goes on only below the deadline (R92). -/
theorem phaseOk_polled {c : Config} {q : Seq} {n : Nat} (v : Byte) (hp : q.phase = .cmdIssued) (h : PhaseOk c q)
    (hm : c.mode = .hardened) (hn : n < c.pollDeadline) :
    PhaseOk c { q with polls := some (n + 1), phase := hardenedPhase c v (n + 1) } := by
  obtain ⟨hq, hi, -⟩ := (phaseOk_cmdIssued hp).1 h
  unfold hardenedPhase
  split_ifs with herr hdrq hlast
  · exact (phaseOk_failed (.inl rfl)).2 ⟨hq.of_eq rfl, hi, hm⟩
  · exact (phaseOk_ready rfl).2 ⟨hq.of_eq rfl, hq.first_word hi⟩
  · exact (phaseOk_failed (.inr rfl)).2 ⟨hq.of_eq rfl, hi, hm⟩
  · exact (phaseOk_cmdIssued rfl).2 ⟨hq.of_eq rfl, hi, fun _ => ⟨n + 1, rfl, by omega⟩⟩

/-- A `HARDENED` poll keeps the invariant (R92). -/
theorem Inv.polled_inv {s : State} {n : Nat} (v : Byte) (h : Inv s) (hp : s.seq.phase = .cmdIssued)
    (hm : s.cfg.mode = .hardened) (hn : s.seq.polls = some n) :
    Inv (s.withSeq { s.seq with polls := some (n + 1), phase := hardenedPhase s.cfg v (n + 1) }) := by
  obtain ⟨-, -, hpolls⟩ := (phaseOk_cmdIssued hp).1 h.phase
  obtain ⟨n', hn', hlt⟩ := hpolls hm
  obtain rfl : n = n' := Option.some.inj (hn.symm.trans hn')
  exact {
    legal := h.legal
    phase := phaseOk_polled v hp h.phase hm hlt
    ranges := { h.ranges with polls := fun m e => by obtain rfl : n + 1 = m := Option.some.inj e; exact hlt }
    bufWf := h.bufWf
    diskWf := h.diskWf }

/-- Another well-formed buffer of the same length keeps the invariant in `READY` (R99). -/
theorem Inv.setBuf_inv {s : State} {buf b : Buffer} (h : Inv s) (hp : s.seq.phase = .ready) (hb : s.seq.buf = some buf)
    (hl : b.len = buf.len) (hw : b.wf) : Inv (s.withSeq { s.seq with buf := some b }) := by
  obtain ⟨⟨op, dir, drv, lba, cnt, buf', hq⟩, hi⟩ := (phaseOk_ready hp).1 h.phase
  obtain rfl : buf = buf' := Option.some.inj (hb.symm.trans hq.bufReg)
  exact {
    legal := h.legal
    phase := (phaseOk_ready (by exact hp)).2 ⟨⟨op, dir, drv, lba, cnt, b,
      hq.mono rfl rfl rfl rfl rfl rfl hl fun _ n hn hle => ⟨n, hn, hle⟩⟩, hi⟩
    ranges := { h.ranges with }
    bufWf := fun b' e => by obtain rfl : b = b' := Option.some.inj e; exact hw
    diskWf := h.diskWf }

/-- The end of a data word keeps the invariant: `WIDX` stays below `NW(CNT)` or the request ends (R99, R104). -/
theorem Inv.afterWord_inv {s : State} {i : Nat} {cnt : CountWord} (h : Inv s) (hp : s.seq.phase = .ready)
    (hc : s.seq.cnt = some cnt) (hlt : i < nw cnt) (payload : List Byte) : Inv (afterWord s i cnt payload) := by
  obtain ⟨hq, -⟩ := (phaseOk_ready hp).1 h.phase
  have hr : RangesOk s.cfg { s.seq with widx := some (i + 1) } :=
    { h.ranges with
      widx := fun j e => by
        obtain rfl : i + 1 = j := Option.some.inj e
        exact lt_of_le_of_lt hlt (nw_lt cnt) }
  rcases afterWord_cases s i cnt payload with ⟨-, he⟩ | ⟨hne, he⟩ <;> rw [he]
  · exact ⟨h.legal, phaseOk_idle rfl, { hr with }, h.bufWf, h.diskWf⟩
  · exact ⟨h.legal, (phaseOk_ready (by exact hp)).2 ⟨hq.of_eq rfl, i + 1, cnt, rfl, hc, by omega⟩, hr, h.bufWf, h.diskWf⟩

/-- The last act of an `ERROR` or `TIMEOUT` step keeps the invariant (R126, R127). -/
theorem Inv.retryOrRaise_inv {s : State} {n : Nat} (h : Inv s) (hp : s.seq.phase = .error ∨ s.seq.phase = .timeout)
    (hn : s.seq.tries = some n) (c : ResultCode) (v : Byte) : Inv (retryOrRaise s n c v) := by
  obtain ⟨⟨op, dir, drv, lba, cnt, buf, hq⟩, -⟩ := (phaseOk_failed hp).1 h.phase
  have hle : n - 1 ≤ s.cfg.retries := (Nat.sub_le n 1).trans (h.ranges.tries n hn)
  rcases retryOrRaise_cases s n c v with ⟨-, he⟩ | ⟨-, he⟩ <;> rw [he]
  · exact {
      legal := h.legal
      phase := (phaseOk_preamble rfl).2 ⟨⟨op, dir, drv, lba, cnt, buf,
        hq.mono rfl rfl rfl rfl rfl hq.bufReg rfl fun _ _ _ _ => ⟨n - 1, rfl, hle⟩⟩, ⟨0, rfl, by decide⟩, rfl⟩
      ranges := { h.ranges with
        pstep := fun k e => by obtain rfl : 0 = k := Option.some.inj e; decide
        widx := fun i e => by obtain rfl : 0 = i := Option.some.inj e; decide
        tries := fun m e => by obtain rfl : n - 1 = m := Option.some.inj e; exact hle }
      bufWf := h.bufWf
      diskWf := h.diskWf }
  · exact h.endRequest_inv c v []

/-- `ERRV` is bound by nothing in the invariant. -/
theorem Inv.setErrv_inv {s : State} (h : Inv s) (hp : s.seq.phase = .error) (v : Byte) :
    Inv (s.withSeq { s.seq with errv := some v }) := by
  obtain ⟨hq, hi⟩ := (phaseOk_failed (.inl hp)).1 h.phase
  exact ⟨h.legal, (phaseOk_failed (.inl (by exact hp))).2 ⟨hq.of_eq rfl, hi⟩, { h.ranges with }, h.bufWf, h.diskWf⟩

/-- Every step that goes on keeps the invariant, row by row of R95. -/
theorem Inv.step_inv {s t : State} (h : Inv s) (hs : step s = .next t) : Inv t := by
  have hstatus : Inv (afterStatus s) := h.of_eq rfl rfl rfl
  cases step_cases hs with
  | wait _ _ ht => exact ht ▸ h
  | request r s1 hp hc ht =>
    have hp1 : s1.seq.phase = .idle := by
      obtain ⟨k, o, -, -, rfl⟩ := chooseRequest_some hc
      exact hp
    exact (h.chooseRequest_inv hc).accept_inv hp1 ht
  | preamble k off v d hp _ hw ht => exact ht ▸ h.afterPreamble_inv hp hw
  | command op hp _ _ ht => exact ht ▸ h.afterCommand_inv hp
  | pollMinimal hp _ ht =>
    rw [ht]
    split
    · exact hstatus.setReady_inv hp
    · exact hstatus
  | pollHardened n hp hm hn ht => exact ht ▸ hstatus.polled_inv _ hp hm hn
  | dataRead cnt i buf b1 b2 hp _ hc _ hlt hb h1 h2 ht =>
    have hw : b2.wf := Buffer.write_wf (Buffer.write_wf (h.bufWf buf hb) h1) h2
    have hl : b2.len = buf.len := by rw [(Buffer.write_eq_some h2).2, (Buffer.write_eq_some h1).2]
    have hd : Inv (afterDataRead s) := h.of_eq rfl rfl (Device.nextWord_disks _)
    exact ht ▸ (hd.setBuf_inv hp hb hl hw).afterWord_inv hp hc hlt b2.bytes
  | dataWrite cnt i buf lo hi hp _ hc _ hlt _ _ _ ht =>
    have hd : Inv (afterDataWrite s (joinLanes hi lo)) :=
      ⟨h.legal, h.phase, h.ranges, h.bufWf, Device.takeWord_wf h.diskWf⟩
    exact ht ▸ hd.afterWord_inv hp hc hlt []
  | errorStep n hp _ hn ht =>
    have he : Inv (portRead8 s s.cfg.errRegOff (errorAnswer s)) := h.of_eq rfl rfl rfl
    exact ht ▸ (he.setErrv_inv hp _).retryOrRaise_inv (.inl hp) hn _ _
  | timeoutStep n hp _ hn ht =>
    have hr : Inv (channelReset s) := h.of_eq rfl rfl rfl
    exact ht ▸ hr.retryOrRaise_inv (.inr hp) hn _ _

/-! That the machine goes on: every register a step reads is written, and every buffer access is inside the buffer. -/

/-- A request in progress has the registers of every preamble row below the command write (R79). -/
theorem InProgress.preambleWrite {s : State} {k : Nat} (h : InProgress s.cfg s.seq) (hk : k ≤ 8) :
    ∃ off v d, PreambleWrite s k off v d := by
  obtain ⟨_, _, drv, lba, cnt, _, h⟩ := h
  match k, hk with
  | 0, _ => exact ⟨_, _, _, .dh drv h.drvReg⟩
  | 1, _ => exact ⟨_, _, _, .scHi cnt h.cntReg⟩
  | 2, _ => exact ⟨_, _, _, .lba0Hi lba h.lbaReg⟩
  | 3, _ => exact ⟨_, _, _, .lba1Hi lba h.lbaReg⟩
  | 4, _ => exact ⟨_, _, _, .lba2Hi lba h.lbaReg⟩
  | 5, _ => exact ⟨_, _, _, .scLo cnt h.cntReg⟩
  | 6, _ => exact ⟨_, _, _, .lba0Lo lba h.lbaReg⟩
  | 7, _ => exact ⟨_, _, _, .lba1Lo lba h.lbaReg⟩
  | 8, _ => exact ⟨_, _, _, .lba2Lo lba h.lbaReg⟩

theorem step_goesOn_idle {s : State} (hp : s.seq.phase = .idle) : ∃ t, step s = .next t := by
  cases hc : chooseRequest s with
  | none => exact ⟨s, step_wait hp (chooseRequest_none.1 hc)⟩
  | some rs =>
    rw [step_idle_request hp (s1 := rs.2) (r := rs.1) hc]
    exact accept_next _ _ _

theorem step_goesOn_preamble {s : State} (h : Inv s) (hp : s.seq.phase = .preamble) : ∃ t, step s = .next t := by
  obtain ⟨hq, ⟨k, hk, hle⟩, -⟩ := (phaseOk_preamble hp).1 h.phase
  rcases Nat.lt_or_eq_of_le hle with hlt | rfl
  · obtain ⟨_, _, _, hw⟩ := hq.preambleWrite (Nat.le_of_lt_succ hlt)
    exact ⟨_, step_preamble hp hk hw⟩
  · obtain ⟨_, _, _, _, _, _, hq⟩ := hq
    exact ⟨_, step_command hp hk hq.opReg⟩

theorem step_goesOn_cmdIssued {s : State} (h : Inv s) (hp : s.seq.phase = .cmdIssued) : ∃ t, step s = .next t := by
  cases hm : s.cfg.mode with
  | minimal => exact ⟨_, step_poll_minimal hp hm⟩
  | hardened =>
    obtain ⟨-, -, hpolls⟩ := (phaseOk_cmdIssued hp).1 h.phase
    obtain ⟨n, hn, -⟩ := hpolls hm
    exact ⟨_, step_poll_hardened hp hm hn⟩

/-- Both bytes of word `WIDX` are inside the buffer, whose length is `2 * NW(CNT)` (R9, R39). -/
theorem step_goesOn_ready {s : State} (h : Inv s) (hp : s.seq.phase = .ready) : ∃ t, step s = .next t := by
  obtain ⟨⟨op, dir, drv, lba, cnt, buf, hq⟩, i, cnt', hi, hc, hlt⟩ := (phaseOk_ready hp).1 h.phase
  obtain rfl : cnt = cnt' := Option.some.inj (hq.cntReg.symm.trans hc)
  have hlen : buf.len = 2 * nw cnt := hq.bufLen.trans (nb_eq cnt)
  have hhi : 2 * i + 1 < buf.len := by omega
  cases dir with
  | rd =>
    obtain ⟨b1, b2, h1, h2⟩ := Buffer.write_word_of_lt hhi (lane0 (dataAnswer s).1) (lane1 (dataAnswer s).1)
    exact ⟨_, step_dataRead hp hq.dirReg hc hi hlt hq.bufReg h1 h2⟩
  | wr =>
    exact ⟨_, step_dataWrite hp hq.dirReg hc hi hlt hq.bufReg (Buffer.read_of_lt (Nat.lt_of_succ_lt hhi))
      (Buffer.read_of_lt hhi)⟩

theorem step_goesOn_failed {s : State} (h : Inv s) (hp : s.seq.phase = .error ∨ s.seq.phase = .timeout) :
    ∃ t, step s = .next t := by
  obtain ⟨⟨_, _, _, _, _, _, hq⟩, -, hm⟩ := (phaseOk_failed hp).1 h.phase
  obtain ⟨n, hn, -⟩ := hq.tries hm
  rcases hp with hp | hp
  · exact ⟨_, step_error hp hm hn⟩
  · exact ⟨_, step_timeout hp hm hn⟩

/-- A state that meets the invariant never stops. -/
theorem step_goesOn {s : State} (h : Inv s) : ∃ t, step s = .next t := by
  cases hp : s.seq.phase with
  | idle => exact step_goesOn_idle hp
  | preamble => exact step_goesOn_preamble h hp
  | cmdIssued => exact step_goesOn_cmdIssued h hp
  | ready => exact step_goesOn_ready h hp
  | error => exact step_goesOn_failed h (.inl hp)
  | timeout => exact step_goesOn_failed h (.inr hp)
  | reserved6 => exact absurd hp (phaseOk_not_reserved h.phase).1
  | reserved7 => exact absurd hp (phaseOk_not_reserved h.phase).2

/-- Settles O34: the step goes on, keeps the invariant row by row, and writes no parameter. -/
theorem stepKeepsInvariant : Obligations.StepKeepsInvariant := by
  intro s h
  obtain ⟨t, ht⟩ := step_goesOn h
  exact ⟨t, ht, h.step_inv ht, step_cfg ht⟩

/-- Settles O2, phase by phase: the sequencer stops before the access, or after it in a data read, a poll and the
`ERROR` step. -/
theorem unwrittenReadFaults : Obligations.UnwrittenReadFaults := by
  intro s
  refine ⟨?pstep, ?drv, ?cnt, ?lba, ?op, ?readyCnt, ?readyWidx, ?readyDir, ?readyBuf, ?polls, ?tries⟩
  case pstep =>
    intro hp hk
    exact step_of_stop (by simp [fetch, hp, hk])
  case drv =>
    intro hp hk hd
    exact step_of_stop (by simp [fetch_preamble hp hk, preambleRow, hd])
  case cnt =>
    intro k hp hk hrow hc
    exact step_of_stop ((fetch_preamble hp hk).trans (preambleRow_cnt_unwritten hrow hc))
  case lba =>
    intro k hp hk hrow hl
    exact step_of_stop ((fetch_preamble hp hk).trans (preambleRow_lba_unwritten hrow hl))
  case op =>
    intro hp hk ho
    exact step_of_stop (by simp [fetch_preamble hp hk, preambleRow, ho])
  case readyCnt =>
    intro hp hc
    exact step_of_stop (by simp [fetch_ready hp, fetchData, hc])
  case readyWidx =>
    intro cnt hp hc hi
    exact step_of_stop (by simp [fetch_ready hp, fetchData, hc, hi])
  case readyDir =>
    intro cnt i hp hc hi hd
    exact step_of_stop (by simp [fetch_ready hp, fetchData, hc, hi, hd])
  case readyBuf =>
    intro cnt i d hp hc hi hlt hd hb
    exact step_ready_buf_unwritten hp hc hi hlt hd hb
  case polls => exact step_poll_unwritten
  case tries => exact step_tries_unwritten

end Sys2Proof.Safety

/-! The statements about the sequencer's own state (10_state.md): what the registers hold, which phases and responses a
step leads to, what the device has latched, and which registers a step does not depend on. -/

namespace Sys2Proof.Machine

/-! Acceptance: the phase it leaves and the response it gives (R77, R124). -/

/-- The acceptance checks give neither of the `HARDENED` codes (R123). -/
theorem check_ne_hardened (c : Config) (op : Byte) (a : ReqArgs) :
    check c op a ≠ .eTimeout ∧ check c op a ≠ .eDevice := by
  unfold check
  split
  · decide
  · split_ifs <;> decide

/-- Acceptance in `IDLE` latches the request, or answers it at once with a code that is no device failure. -/
theorem accept_idle_result {op : Byte} {a : ReqArgs} {s t : State} (hp : s.seq.phase = .idle)
    (h : accept op a s = .next t) :
    (t.seq.phase = .preamble ∧ t.responses = s.responses) ∨
    ∃ c, c ≠ .eTimeout ∧ c ≠ .eDevice ∧ t.seq.phase = .idle ∧ t.responses = s.responses ++ [⟨c, 0#8, []⟩] := by
  rcases accept_idle_cases hp h with ⟨c, rfl, -, rfl⟩ | ⟨-, -, -, rfl⟩ | ⟨init, -, -, -, rfl⟩ | ⟨-, -, rfl⟩
  · obtain ⟨ht, hd⟩ := check_ne_hardened s.cfg op a
    exact .inr ⟨_, ht, hd, rfl, rfl⟩
  · exact .inr ⟨.eAlloc, by decide, by decide, rfl, rfl⟩
  · exact .inl ⟨rfl, rfl⟩
  · exact .inl ⟨rfl, rfl⟩

/-! The ends of a data word and of a failed attempt: phase and response. -/

theorem afterWord_result (s : State) (i : Nat) (cnt : CountWord) (payload : List Byte) :
    ((afterWord s i cnt payload).seq.phase = s.seq.phase ∧ (afterWord s i cnt payload).responses = s.responses) ∨
    ((afterWord s i cnt payload).seq.phase = .idle ∧
      (afterWord s i cnt payload).responses = s.responses ++ [⟨.ok, 0#8, payload⟩]) := by
  rcases afterWord_cases s i cnt payload with ⟨-, he⟩ | ⟨-, he⟩ <;> rw [he]
  · exact .inr ⟨rfl, rfl⟩
  · exact .inl ⟨rfl, rfl⟩

theorem retryOrRaise_result (s : State) (n : Nat) (c : ResultCode) (v : Byte) :
    (retryOrRaise s n c v).responses = s.responses ∨
    ((retryOrRaise s n c v).seq.phase = .idle ∧ (retryOrRaise s n c v).responses = s.responses ++ [⟨c, v, []⟩]) := by
  rcases retryOrRaise_cases s n c v with ⟨-, he⟩ | ⟨-, he⟩ <;> rw [he]
  · exact .inl rfl
  · exact .inr ⟨rfl, rfl⟩

end Sys2Proof.Machine

namespace Sys2Proof.Safety

open Sys2Proof.Machine

/-- Settles O44. -/
theorem codesAsTabled : Obligations.CodesAsTabled := ⟨rfl, rfl⟩

/-- Settles O42, row by row of R95: the rows that enter `ERROR` and `TIMEOUT`, or leave them, are `HARDENED` ones. -/
theorem minimalPhasesClosed : Obligations.MinimalPhasesClosed := by
  intro s t hm h
  refine ⟨(step_cfg h).symm ▸ hm, ?_⟩
  have hardened : s.cfg.mode ≠ .hardened := by simp [hm]
  have wordPhase : ∀ u i cnt payload, u.seq.phase = .ready →
      (afterWord u i cnt payload).seq.phase ∈ [Phase.idle, .preamble, .cmdIssued, .ready] := by
    intro u i cnt payload hu
    rcases afterWord_result u i cnt payload with ⟨hp, -⟩ | ⟨hp, -⟩ <;> simp [hp, hu]
  cases step_cases h with
  | wait hp _ ht => simp [ht, hp]
  | request r s1 hp hc ht =>
    obtain ⟨k, o, -, -, rfl⟩ := chooseRequest_some hc
    rcases accept_idle_result (by exact hp) ht with ⟨hp, -⟩ | ⟨c, -, -, hp, -⟩ <;> simp [hp]
  | preamble k off v d hp _ _ ht => simp [ht, afterPreamble, hp]
  | command op _ _ _ ht => simp [ht, afterCommand]
  | pollMinimal hp _ ht =>
    rw [ht]
    split <;> simp [afterStatus, hp]
  | pollHardened n _ hh => exact absurd hh hardened
  | dataRead cnt i buf b1 b2 hp _ _ _ _ _ _ _ ht => exact ht ▸ wordPhase _ i cnt _ hp
  | dataWrite cnt i buf lo hi hp _ _ _ _ _ _ _ ht => exact ht ▸ wordPhase _ i cnt _ hp
  | errorStep n _ hh => exact absurd hh hardened
  | timeoutStep n _ hh => exact absurd hh hardened

/-- Settles O43, row by row of R95: a response comes only from acceptance, from the last data word and from an attempt
that failed with no retry left. -/
theorem responsesAsTabled : Obligations.ResponsesAsTabled := by
  intro s t h
  cases step_cases h with
  | wait _ _ ht => exact .inl (ht ▸ rfl)
  | request r s1 hp hc ht =>
    obtain ⟨k, o, -, -, rfl⟩ := chooseRequest_some hc
    rcases accept_idle_result (by exact hp) ht with ⟨-, hr⟩ | ⟨c, htime, hdev, hidle, hr⟩
    · exact .inl hr
    · exact .inr ⟨_, hr, hidle, fun _ => rfl, fun _ => rfl, fun hc => absurd hc (not_or.2 ⟨htime, hdev⟩)⟩
  | preamble k off v d _ _ _ ht => exact .inl (ht ▸ rfl)
  | command op _ _ _ ht => exact .inl (ht ▸ rfl)
  | pollMinimal _ _ ht =>
    rw [ht]
    split <;> exact .inl rfl
  | pollHardened n _ _ _ ht => exact .inl (ht ▸ rfl)
  | dataRead cnt i buf b1 b2 _ _ _ _ _ _ _ _ ht =>
    rw [ht]
    refine (afterWord_result _ i cnt b2.bytes).imp And.right ?_
    rintro ⟨hidle, hr⟩
    exact ⟨_, hr, hidle, fun _ => rfl, fun hc => absurd rfl hc, by simp⟩
  | dataWrite cnt i buf lo hi _ _ _ _ _ _ _ _ ht =>
    rw [ht]
    refine (afterWord_result _ i cnt []).imp And.right ?_
    rintro ⟨hidle, hr⟩
    exact ⟨_, hr, hidle, fun _ => rfl, fun _ => rfl, by simp⟩
  | errorStep n _ hm _ ht =>
    rw [ht]
    refine (retryOrRaise_result _ n .eDevice _).imp_right ?_
    rintro ⟨hidle, hr⟩
    exact ⟨_, hr, hidle, fun hc => absurd rfl hc, fun _ => rfl, fun _ => hm⟩
  | timeoutStep n _ hm _ ht =>
    rw [ht]
    refine (retryOrRaise_result _ n .eTimeout 0#8).imp_right ?_
    rintro ⟨hidle, hr⟩
    exact ⟨_, hr, hidle, fun _ => rfl, fun _ => rfl, fun _ => hm⟩

/-! The registers of a request in progress (R18). -/

/-- Outside `IDLE` a request is latched and its position is below the last word. -/
theorem PhaseOk.latched_widx {c : Config} {q : Seq} (h : PhaseOk c q) (hp : q.phase ≠ .idle) :
    ∃ op dir drv lba cnt buf i, Latched c q op dir drv lba cnt buf ∧ q.widx = some i ∧ i < nw cnt := by
  have ready : InProgress c q → (∃ i cnt, q.widx = some i ∧ q.cnt = some cnt ∧ i < nw cnt) →
      ∃ op dir drv lba cnt buf i, Latched c q op dir drv lba cnt buf ∧ q.widx = some i ∧ i < nw cnt := by
    rintro ⟨op, dir, drv, lba, cnt, buf, hq⟩ ⟨i, cnt', hi, hc, hlt⟩
    obtain rfl : cnt = cnt' := Option.some.inj (hq.cntReg.symm.trans hc)
    exact ⟨op, dir, drv, lba, cnt, buf, i, hq, hi, hlt⟩
  have failed : q.phase = .error ∨ q.phase = .timeout →
      ∃ op dir drv lba cnt buf i, Latched c q op dir drv lba cnt buf ∧ q.widx = some i ∧ i < nw cnt := by
    intro hp
    obtain ⟨hq, hi, -⟩ := (phaseOk_failed hp).1 h
    exact ready hq (hq.first_word hi)
  cases hph : q.phase with
  | idle => exact absurd hph hp
  | preamble =>
    obtain ⟨hq, -, hi⟩ := (phaseOk_preamble hph).1 h
    exact ready hq (hq.first_word hi)
  | cmdIssued =>
    obtain ⟨hq, hi, -⟩ := (phaseOk_cmdIssued hph).1 h
    exact ready hq (hq.first_word hi)
  | ready =>
    obtain ⟨hq, hi⟩ := (phaseOk_ready hph).1 h
    exact ready hq hi
  | error => exact failed (.inl hph)
  | timeout => exact failed (.inr hph)
  | reserved6 => exact absurd hph (phaseOk_not_reserved h).1
  | reserved7 => exact absurd hph (phaseOk_not_reserved h).2

/-- An LBA below 2^48 has no high bits (R18). -/
theorem lba_high_zero {v : LbaWord} (h : v.toNat < 2 ^ 48) : v.extractLsb' 48 16 = 0#16 := by
  apply BitVec.eq_of_toNat_eq
  simp only [BitVec.extractLsb'_toNat, Nat.shiftRight_eq_div_pow, BitVec.toNat_ofNat]
  omega

/-- Settles O37: the ranges are those of the invariant, and its phase conditions give the registers of a request. -/
theorem registersFitWidths : Obligations.RegistersFitWidths := by
  intro s h
  have hr := h.ranges
  refine ⟨hr.pstep, hr.widx, hr.polls, fun n hn => ⟨hr.tries n hn, ?_⟩, fun v hv => lba_high_zero (hr.lba v hv), ?_,
    hr.dir, fun hbusy => ?_⟩
  · have := hr.tries n hn
    rcases h.legal.retries with he | he <;> omega
  · rintro v hv rfl
    exact absurd (hr.cnt _ hv) (by decide)
  · obtain ⟨op, dir, drv, lba, cnt, buf, i, hq, hi, hlt⟩ := h.phase.latched_widx hbusy
    have hlen : buf.len = cnt.toNat * 512 := hq.bufLen
    refine ⟨op, dir, drv, lba, cnt, buf, i, hq.opReg, hq.dirReg, hq.drvReg, hq.lbaReg, hq.cntReg, hq.bufReg, hi, hlen,
      by have := cnt.isLt; omega, hlt, fun hp => ?_, fun hm => ?_, fun hp hm => ?_⟩
    · obtain ⟨-, ⟨k, hk, -⟩, -⟩ := (phaseOk_preamble hp).1 h.phase
      exact ⟨k, hk⟩
    · obtain ⟨n, hn, -⟩ := hq.tries hm
      exact ⟨n, hn⟩
    · obtain ⟨-, -, hpolls⟩ := (phaseOk_cmdIssued hp).1 h.phase
      exact hpolls hm

end Sys2Proof.Safety

/-! What the device has latched after the ten register writes (R27, R79, R113). -/

namespace Sys2Proof.Machine

/-- The drive of a drive/head byte is the one it was made for, as the pattern's own drive bit is 0 (R61). -/
theorem driveHead_drive {c : Config} (h : c.Legal) (drv : Bool) : (driveHead c drv).getLsbD c.drvShift = drv := by
  have hs := h.drvShift
  rw [driveHead, BitVec.getLsbD_or, h.dhDrive, Bool.false_or, BitVec.getLsbD_shiftLeft, BitVec.getLsbD_setWidth,
    Nat.sub_self]
  simp [show c.drvShift < 8 by omega]

/-- The low nibble of a drive/head byte is 0: the drive bit is above it (R61, D37). -/
theorem driveHead_low {c : Config} (h : c.Legal) (drv : Bool) : (driveHead c drv).extractLsb' 0 4 = 0#4 := by
  have hs := h.drvShift
  refine BitVec.eq_of_getLsbD_eq fun i hi => ?_
  have hpat : c.dhPattern.getLsbD i = false := by
    have hb := congrArg (fun x : Byte => x.getLsbD i) h.dhLow
    have hmask : (0x0F#8).getLsbD i = true := by interval_cases i <;> rfl
    simpa [hmask] using hb
  simp [driveHead, hi, hpat, show i < c.drvShift by omega]

/-- A 28-bit count of 1 to 256 is its low byte, 0 meaning 256 (R72). -/
theorem count28_eq {cnt : CountWord} (h1 : 1 ≤ cnt.toNat) (h2 : cnt.toNat ≤ 256) :
    (if countLo cnt = 0#8 then 256 else (countLo cnt).toNat) = cnt.toNat := by
  have hlo : (countLo cnt).toNat = cnt.toNat % 256 := by simp [countLo, byteOf]
  split
  · next h =>
    rw [h] at hlo
    simp at hlo
    omega
  · next h =>
    have : (countLo cnt).toNat ≠ 0 := fun h0 => h (BitVec.eq_of_toNat_eq h0)
    omega

/-- A 28-bit LBA is its low triplet below a zero nibble (R113). -/
theorem lba28_eq {lba : LbaWord} (h : lba.toNat < 2 ^ 24) :
    ((0#4 ++ (lbaLo 2 lba ++ (lbaLo 1 lba ++ lbaLo 0 lba) : BitVec 24)).setWidth 48 : BitVec 48) =
      lba.setWidth 48 := by
  have nibble : ∀ v : BitVec 24, (0#4 ++ v).setWidth 48 = v.setWidth 48 := fun v => by
    apply BitVec.eq_of_toNat_eq
    rw [BitVec.toNat_setWidth, BitVec.toNat_setWidth, BitVec.toNat_append]
    simp
  rw [lba_low_bytes]
  refine (nibble _).trans (BitVec.eq_of_toNat_eq ?_)
  simp only [BitVec.toNat_setWidth]
  omega

/-- The device after the nine writes of the preamble (R27, R79): both entries of every FIFO, and the selected drive. -/
def Device.preambleDone (d : Device) (c : Config) (drv : Bool) (cnt : CountWord) (lba : LbaWord) : Device :=
  { d with
    seccnt := ⟨countHi cnt, countLo cnt⟩
    lba0 := ⟨lbaHi 0 lba, lbaLo 0 lba⟩
    lba1 := ⟨lbaHi 1 lba, lbaLo 1 lba⟩
    lba2 := ⟨lbaHi 2 lba, lbaLo 2 lba⟩
    drvhead := driveHead c drv }

/-- The state after the nine writes of the preamble (R79). -/
def preambleDone (s : State) (drv : Bool) (cnt : CountWord) (lba : LbaWord) (op : Byte) : State :=
  { s with
    seq := { s.seq with pstep := some 9 }
    dev := s.dev.preambleDone s.cfg drv cnt lba
    trace := ((Safety.preambleWrites s.cfg drv cnt lba op).take 9).reverse ++ s.trace }

/-- A direction belongs to a 48-bit opcode or to an admitted 28-bit one (R65). -/
theorem dirOf_some {c : Config} {op : Byte} {d : Dir} (h : dirOf c op = some d) :
    op = Config.opcReadExt ∨ op = Config.opcWriteExt ∨ is28 c op = true := by
  unfold dirOf at h
  split_ifs at h with h1 h2
  · rcases h1 with h1 | ⟨hl, h1⟩
    · exact .inl h1
    · simp [is28, hl, h1]
  · rcases h2 with h2 | ⟨hl, h2⟩
    · exact .inr (.inl h2)
    · simp [is28, hl, h2]

end Sys2Proof.Machine

namespace Sys2Proof.Safety

open Sys2Proof.Machine

/-- A run at a row of the preamble is that row's write and the rest (R80 to R88). -/
theorem run_preambleRow {n k : Nat} {s : State} {off : PortOff} {v : Byte} {d : Device} (hp : s.seq.phase = .preamble)
    (hk : s.seq.pstep = some k) (hw : PreambleWrite s k off v d) :
    run (n + 1) s = run n (afterPreamble s k off v d) := run_succ (step_preamble hp hk hw)

/-- The nine writes of the preamble, from any register file (R79). -/
theorem run_preamble {s : State} {drv : Bool} {cnt : CountWord} {lba : LbaWord} (op : Byte)
    (hp : s.seq.phase = .preamble) (hk : s.seq.pstep = some 0) (hd : s.seq.drv = some drv)
    (hc : s.seq.cnt = some cnt) (hl : s.seq.lba = some lba) :
    run 9 s = .next (preambleDone s drv cnt lba op) := by
  refine Eq.trans (run_preambleRow hp hk (.dh drv hd)) ?_
  refine Eq.trans (run_preambleRow hp rfl (.scHi cnt hc)) ?_
  refine Eq.trans (run_preambleRow hp rfl (.lba0Hi lba hl)) ?_
  refine Eq.trans (run_preambleRow hp rfl (.lba1Hi lba hl)) ?_
  refine Eq.trans (run_preambleRow hp rfl (.lba2Hi lba hl)) ?_
  refine Eq.trans (run_preambleRow hp rfl (.scLo cnt hc)) ?_
  refine Eq.trans (run_preambleRow hp rfl (.lba0Lo lba hl)) ?_
  refine Eq.trans (run_preambleRow hp rfl (.lba1Lo lba hl)) ?_
  refine Eq.trans (run_preambleRow hp rfl (.lba2Lo lba hl)) ?_
  simp [preambleDone, preambleWrites, afterPreamble, portWrite8, State.withSeq, State.withDev, State.emit,
    Device.preambleDone, Fifo.shift, portAddr, driveHead_eq, countHi, countLo, lbaHi, lbaLo, byteOf]

/-- What the command byte latches after the preamble is the request itself (R27, R72, R113). -/
theorem Latched.latchedPending_eq {c : Config} {q : Seq} {op : Byte} {dir : Dir} {drv : Bool} {lba : LbaWord}
    {cnt : CountWord} {buf : Buffer} (h : Latched c q op dir drv lba cnt buf) (hc : c.Legal) (n : Nat) (d : Device) :
    latchedPending c n (d.preambleDone c drv cnt lba) op = ⟨op, drv, lba.setWidth 48, cnt.toNat⟩ := by
  have hdrv : selectedDrive c (d.preambleDone c drv cnt lba) = drv := driveHead_drive hc drv
  have ext : op = Config.opcReadExt ∨ op = Config.opcWriteExt →
      latchedPending c n (d.preambleDone c drv cnt lba) op = ⟨op, drv, lba.setWidth 48, cnt.toNat⟩ := by
    intro ho
    have hlba : latchedLba48 (d.preambleDone c drv cnt lba) = lba.setWidth 48 := lba_bytes lba
    have hcnt : latchedCount48 (d.preambleDone c drv cnt lba) = cnt.toNat := congrArg BitVec.toNat (count_bytes cnt)
    rw [latchedPending, if_pos ho, hdrv, hlba, hcnt]
  rcases dirOf_some h.dirOf with ho | ho | h28
  · exact ext (.inl ho)
  · exact ext (.inr ho)
  · have hno : ¬ (op = Config.opcReadExt ∨ op = Config.opcWriteExt) := by
      rintro (rfl | rfl)
      · exact absurd h28 (by simp [(is28_ext hc).1])
      · exact absurd h28 (by simp [(is28_ext hc).2])
    obtain ⟨hlba, hcnt⟩ := h.bound28 h28
    have hl : latchedLba28 (d.preambleDone c drv cnt lba) = lba.setWidth 48 := by
      rw [← lba28_eq hlba, ← driveHead_low hc drv]
      rfl
    have hn : latchedCount28 (d.preambleDone c drv cnt lba) = cnt.toNat := count28_eq h.count hcnt
    rw [latchedPending, if_neg hno, if_pos h28, hdrv, hl, hn]

/-- Settles O19: nine rows leave the register file as R27 lays it out, and the command byte latches it. -/
theorem deviceLatchesTheRequest : Obligations.DeviceLatchesTheRequest := by
  intro s op dir drv lba cnt buf hc h hp hk
  have hrun : run 10 s = .next (afterCommand (preambleDone s drv cnt lba op) op) :=
    run_trans (n := 1) (run_preamble op hp hk h.drvReg h.cntReg h.lbaReg) (run_succ (step_command hp rfl h.opReg))
  exact ⟨_, hrun, rfl, rfl, rfl, rfl, rfl, congrArg some (h.latchedPending_eq hc _ _), rfl⟩

end Sys2Proof.Safety

/-! What a step does not depend on (R15, R16). The step is followed through its parts in two states at once: the request
it chooses in `IDLE`, the transaction the sequencer issues, and what the sequencer does after it. -/

namespace Sys2Proof.Machine

/-- An instruction and the sequencer's part of the step after it. -/
def runInstr (i : Instr) (s : State) : Out State :=
  match exec i s with
  | .next t => advance i s t
  | .fault f => .fault f
  | .refused r => .refused r

/-- What a step in `s` does with what it fetched. -/
def Fetch.outcome (s : State) : Fetch → Out State
  | .wait => .next s
  | .illegalOp u => .next (raise u .eOp 0#8)
  | .timeoutStep => timedOut s
  | .stop f => .fault f
  | .run i u => runInstr i u

theorem step_eq_outcome (s : State) : step s = (fetch s).outcome s := by
  unfold step Fetch.outcome runInstr
  cases fetch s <;> rfl

/-- A register read stops the step alike before and after the port access. -/
theorem Fetch.outcome_readReg {α : Type} (s : State) (r : SeqReg) (v : Option α) (k : α → Fetch) :
    (readReg .stop r v k).outcome s = readReg .fault r v fun a => (k a).outcome s := by
  cases v <;> rfl

theorem accept_rejected {op : Byte} {a : ReqArgs} {s : State} (hp : s.seq.phase = .idle)
    (hc : check s.cfg op a ≠ .ok) : accept op a s = .next (raise s (check s.cfg op a) 0#8) := by
  rw [accept, if_pos hp]
  split
  · next hok _ => exact absurd hok hc
  · rfl

theorem accept_started {op : Byte} {a : ReqArgs} {s : State} {d : Dir} (hp : s.seq.phase = .idle)
    (hc : check s.cfg op a = .ok) (hd : dirOf s.cfg op = some d) : accept op a s = .next (startRequest op d a s) := by
  rw [accept, if_pos hp, hc, hd]

/-- The choice of a request depends on the waiting requests and on the arbitration's answers only. -/
theorem chooseRequest_congr {s t s1 : State} {r : Request} (hr : s.requests = t.requests) (ho : s.oracle = t.oracle)
    (h : chooseRequest s = some (r, s1)) :
    ∃ o rs, s1 = (s.withOracle o).withRequests rs ∧ chooseRequest t = some (r, (t.withOracle o).withRequests rs) := by
  unfold chooseRequest at h ⊢
  rw [hr, ho] at h
  split at h
  · cases h
  · cases h
    exact ⟨s.oracle, [], rfl, by rw [ho]; rfl⟩
  · cases h
    exact ⟨_, _, rfl, rfl⟩

end Sys2Proof.Machine

namespace Sys2Proof.Safety

open Sys2Proof.Machine

/-! Two states followed at once, for any relation `R` of next states. -/

section
variable {R : State → State → Prop}

/-- The same register with the same value stops both steps alike. -/
theorem OutRel.readReg {α : Type} {r : SeqReg} {v : Option α} {k k' : α → Out State} (h : ∀ a, OutRel R (k a) (k' a)) :
    OutRel R (Machine.readReg .fault r v k) (Machine.readReg .fault r v k') := by
  cases v with
  | none => rfl
  | some a => exact h a

/-- A step in `IDLE` in two states that offer the same requests: both wait, or both accept the same request. -/
theorem OutRel.step_idle {s t : State} (hs : s.seq.phase = .idle) (ht : t.seq.phase = .idle)
    (hr : s.requests = t.requests) (ho : s.oracle = t.oracle) (hwait : R s t)
    (haccept : ∀ (r : Request) (o : Oracle) (rs : List Request),
      OutRel R (accept r.op r.args ((s.withOracle o).withRequests rs))
        (accept r.op r.args ((t.withOracle o).withRequests rs))) : OutRel R (step s) (step t) := by
  cases hc : chooseRequest s with
  | none =>
    have hr' := chooseRequest_none.1 hc
    rw [step_wait hs hr', step_wait ht (hr ▸ hr')]
    exact hwait
  | some rs =>
    obtain ⟨r, s1⟩ := rs
    obtain ⟨o, rs, rfl, hct⟩ := chooseRequest_congr hr ho hc
    rw [step_idle_request hs hc, step_idle_request ht hct]
    exact haccept r o rs

/-- `s` with other values in the registers `TRIES`, `POLLS` and `ERRV` and with another channel. What the sequencer issues
outside `IDLE` does not depend on them. -/
def variant (s : State) (tries polls : Option Nat) (errv : Option Byte) (d : Device) : State :=
  (s.withSeq { s.seq with tries := tries, polls := polls, errv := errv }).withDev d

variable {s : State} {tries polls : Option Nat} {errv : Option Byte} {d : Device}

/-- A transaction whose value is a register's. -/
theorem OutRel.row {α : Type} {t : State} {r : SeqReg} {v : Option α} {i : α → Instr}
    (h : ∀ a, OutRel R (runInstr (i a) s) (runInstr (i a) t)) :
    OutRel R ((Machine.readReg .stop r v fun a => Fetch.run (i a) s).outcome s)
      ((Machine.readReg .stop r v fun a => Fetch.run (i a) t).outcome t) := by
  rw [Fetch.outcome_readReg, Fetch.outcome_readReg]
  exact OutRel.readReg h

/-- The preamble's row is the same row. -/
theorem OutRel.preambleRow (k : Nat)
    (h : ∀ i, isPort i = true → i ≠ .in8Status → i ≠ .in8Error →
      OutRel R (runInstr i s) (runInstr i (variant s tries polls errv d))) :
    OutRel R ((Machine.preambleRow s k).outcome s)
      ((Machine.preambleRow (variant s tries polls errv d) k).outcome (variant s tries polls errv d)) :=
  match k with
  | 0 | 1 | 2 | 3 | 4 | 5 | 6 | 7 | 8 | 9 => OutRel.row fun _ => h _ rfl nofun nofun
  | _ + 10 => rfl

/-- The data access is the same access, a write's word among it. -/
theorem OutRel.fetchData
    (h : ∀ i, isPort i = true → i ≠ .in8Status → i ≠ .in8Error →
      OutRel R (runInstr i s) (runInstr i (variant s tries polls errv d))) :
    OutRel R ((Machine.fetchData s).outcome s)
      ((Machine.fetchData (variant s tries polls errv d)).outcome (variant s tries polls errv d)) := by
  unfold Machine.fetchData
  simp only [Fetch.outcome_readReg]
  refine OutRel.readReg fun cnt => OutRel.readReg fun i => OutRel.readReg fun dir => ?_
  split
  · cases dir with
    | rd => exact h .in16Data rfl nofun nofun
    | wr =>
      simp only [Fetch.outcome_readReg]
      refine OutRel.readReg fun buf => ?_
      split
      · exact h (.out16Data _) rfl nofun nofun
      · rfl
  · rfl

/-- A step outside `IDLE` in a state and in a variant of it: the same transaction, or the same stop. -/
theorem OutRel.step_busy (hbusy : s.seq.phase ≠ .idle)
    (hrun : ∀ i, isPort i = true → (i = .in8Status → s.seq.phase = .cmdIssued) →
      (i = .in8Error → s.cfg.mode = .hardened) →
      OutRel R (runInstr i s) (runInstr i (variant s tries polls errv d)))
    (htime : s.cfg.mode = .hardened → OutRel R (timedOut s) (timedOut (variant s tries polls errv d))) :
    OutRel R (step s) (step (variant s tries polls errv d)) := by
  have hport : ∀ i, isPort i = true → i ≠ .in8Status → i ≠ .in8Error →
      OutRel R (runInstr i s) (runInstr i (variant s tries polls errv d)) :=
    fun i hi hs he => hrun i hi (fun h => absurd h hs) (fun h => absurd h he)
  rw [step_eq_outcome, step_eq_outcome]
  have hv : (variant s tries polls errv d).seq.phase = s.seq.phase := rfl
  cases hp : s.seq.phase with
  | idle => exact absurd hp hbusy
  | preamble =>
    simp only [fetch, hv, hp, Fetch.outcome_readReg]
    exact OutRel.readReg fun k => OutRel.preambleRow k hport
  | cmdIssued =>
    rw [fetch_cmdIssued hp, fetch_cmdIssued (hv.trans hp)]
    exact hrun .in8Status rfl (fun _ => hp) nofun
  | ready =>
    rw [fetch_ready hp, fetch_ready (hv.trans hp)]
    exact OutRel.fetchData hport
  | error =>
    by_cases hm : s.cfg.mode = .hardened
    · rw [fetch_error hp hm, fetch_error (hv.trans hp) hm]
      exact hrun .in8Error rfl nofun fun _ => hm
    · simp only [fetch, hv, hp]
      rw [if_neg hm, if_neg (by exact hm)]
      rfl
  | timeout =>
    by_cases hm : s.cfg.mode = .hardened
    · rw [fetch_timeout hp hm, fetch_timeout (hv.trans hp) hm]
      exact htime hm
    · simp only [fetch, hv, hp]
      rw [if_neg hm, if_neg (by exact hm)]
      rfl
  | reserved6 => simp [fetch, hv, hp, Fetch.outcome, OutRel]
  | reserved7 => simp [fetch, hv, hp, Fetch.outcome, OutRel]

end

/-! States that differ in dead registers (R15). -/

/-- Equal in `IDLE` but for the registers. -/
theorem LiveEq.of_idle {s : State} {q : Seq} (hs : s.seq.phase = .idle) (hq : q.phase = .idle) :
    LiveEq s (s.withSeq q) :=
  ⟨rfl, rfl, rfl, rfl, rfl, rfl, hs.trans hq.symm, fun h => absurd hs h, fun h => absurd hs h,
    fun h => by simp [hs] at h⟩

/-- Equal but for `TRIES` and `POLLS` where they are dead, and for `ERRV`. -/
theorem LiveEq.of_dead {s : State} {tries polls : Option Nat} {errv : Option Byte}
    (ht : s.cfg.mode = .hardened → s.seq.tries = tries)
    (hp : s.seq.phase = .cmdIssued → s.cfg.mode = .hardened → s.seq.polls = polls) :
    LiveEq s (variant s tries polls errv s.dev) :=
  ⟨rfl, rfl, rfl, rfl, rfl, rfl, rfl, fun _ => ⟨rfl, rfl, rfl, rfl, rfl, rfl, rfl, rfl⟩, fun _ => ht, hp⟩

/-- States equal but for dead registers differ in the sequencer only. -/
theorem LiveEq.eq_withSeq {s t : State} (h : LiveEq s t) : t = s.withSeq t.seq := by
  obtain ⟨hc, hr, hs, hd, ho, ht, -, -, -, -⟩ := h
  simp only [State.withSeq, hc, hr, hs, hd, ho, ht]

/-- Outside `IDLE` they differ in `TRIES`, `POLLS` and `ERRV` only. -/
theorem LiveEq.eq_variant {s t : State} (h : LiveEq s t) (hbusy : s.seq.phase ≠ .idle) :
    t = variant s t.seq.tries t.seq.polls t.seq.errv s.dev := by
  obtain ⟨h1, h2, h3, h4, h5, h6, h7, h8⟩ := h.regs hbusy
  refine h.eq_withSeq.trans (congrArg s.withSeq ?_)
  simp only [State.withSeq_seq, h.phase, h1, h2, h3, h4, h5, h6, h7, h8]

/-- Acceptance in `IDLE` reads no register (R77). -/
theorem LiveEq.accept_idle {s : State} {q : Seq} (hp : s.seq.phase = .idle) (hq : q.phase = .idle) (op : Byte)
    (a : ReqArgs) : OutRel LiveEq (accept op a s) (accept op a (s.withSeq q)) := by
  by_cases hc : check s.cfg op a = .ok
  · obtain ⟨d, hd, -⟩ := check_ok hc
    rw [accept_started hp hc hd, accept_started (s := s.withSeq q) hq hc hd]
    have latched : ∀ (o : Oracle) (b : Buffer),
        LiveEq ((s.withOracle o).withSeq (s.seq.latch s.cfg op d a b)) ((s.withOracle o).withSeq (q.latch s.cfg op d a b)) :=
      fun o b => ⟨rfl, rfl, rfl, rfl, rfl, rfl, rfl, fun _ => ⟨rfl, rfl, rfl, rfl, rfl, rfl, rfl, rfl⟩,
        fun _ hm => by simp only [State.withSeq_seq, Seq.latch, if_pos (show s.cfg.mode = .hardened from hm)], nofun⟩
    cases d with
    | wr => exact latched s.oracle _
    | rd =>
      unfold startRequest
      simp only [State.withSeq_oracle]
      split
      · exact latched _ _
      · exact LiveEq.of_idle rfl rfl
  · rw [accept_rejected hp hc, accept_rejected (s := s.withSeq q) hq hc]
    exact LiveEq.of_idle rfl rfl

section
variable {s : State} {tries polls : Option Nat} {errv : Option Byte}

theorem LiveEq.retryOrRaise (n : Nat) (c : ResultCode) (v : Byte) :
    LiveEq (retryOrRaise s n c v) (retryOrRaise (variant s tries polls errv s.dev) n c v) := by
  unfold Machine.retryOrRaise
  split
  · exact LiveEq.of_dead (fun _ => rfl) nofun
  · exact LiveEq.of_idle rfl rfl

/-- `TRIES` is live in `HARDENED`, and the failed attempt reads no other of these registers (R126). -/
theorem LiveEq.errorRead (hm : s.cfg.mode = .hardened) (ht : s.cfg.mode = .hardened → s.seq.tries = tries) (v : Byte) :
    OutRel LiveEq (errorRead v s) (errorRead v (variant s tries polls errv s.dev)) := by
  obtain rfl := ht hm
  exact OutRel.readReg fun n => LiveEq.retryOrRaise (s := s.withSeq { s.seq with errv := some v })
    (tries := s.seq.tries) (polls := polls) (errv := some v) n .eDevice v

theorem LiveEq.timedOut (hm : s.cfg.mode = .hardened) (ht : s.cfg.mode = .hardened → s.seq.tries = tries) :
    OutRel LiveEq (timedOut s) (timedOut (variant s tries polls errv s.dev)) := by
  obtain rfl := ht hm
  exact OutRel.readReg fun n => LiveEq.retryOrRaise (s := channelReset s) n .eTimeout 0#8

variable (ht : s.cfg.mode = .hardened → s.seq.tries = tries)
  (hp : s.seq.phase = .cmdIssued → s.cfg.mode = .hardened → s.seq.polls = polls)
include ht

/-- The command write sets `POLLS` where it is live (R89). -/
theorem LiveEq.commandIssued :
    OutRel LiveEq (commandIssued s) (commandIssued (variant s tries polls errv s.dev)) :=
  LiveEq.of_dead ht fun _ hm => (if_pos hm).trans (if_pos hm).symm

/-- `POLLS` is live in the `HARDENED` poll (R92), and the `MINIMAL` poll reads no register (R91). -/
theorem LiveEq.polled (hp : s.cfg.mode = .hardened → s.seq.polls = polls) (v : Byte) :
    OutRel LiveEq (polled v s) (polled v (variant s tries polls errv s.dev)) := by
  have hc : (variant s tries polls errv s.dev).cfg = s.cfg := rfl
  unfold Machine.polled
  rw [hc]
  cases hm : s.cfg.mode with
  | minimal =>
    have hno : s.cfg.mode ≠ .hardened := by simp [hm]
    simp only
    split
    · exact LiveEq.of_dead (fun h => absurd h hno) nofun
    · exact LiveEq.of_dead (fun h => absurd h hno) fun _ h => absurd h hno
  | hardened =>
    obtain rfl := hp hm
    exact OutRel.readReg fun n => LiveEq.of_dead ht fun _ _ => rfl

include hp

theorem LiveEq.advancePreamble :
    OutRel LiveEq (advancePreamble s) (advancePreamble (variant s tries polls errv s.dev)) :=
  OutRel.readReg fun _ => LiveEq.of_dead ht hp

theorem LiveEq.wordDone (i : Nat) (cnt : CountWord) (payload : List Byte) :
    OutRel LiveEq (wordDone i cnt payload s) (wordDone i cnt payload (variant s tries polls errv s.dev)) := by
  unfold Machine.wordDone
  split
  · exact LiveEq.of_idle rfl rfl
  · exact LiveEq.of_dead ht hp

theorem LiveEq.wordWritten :
    OutRel LiveEq (wordWritten s) (wordWritten (variant s tries polls errv s.dev)) :=
  OutRel.readReg fun cnt => OutRel.readReg fun i => LiveEq.wordDone ht hp i cnt []

theorem LiveEq.wordRead (w : DataWord) :
    OutRel LiveEq (wordRead w s) (wordRead w (variant s tries polls errv s.dev)) := by
  refine OutRel.readReg fun cnt => OutRel.readReg fun i => OutRel.readReg fun buf => ?_
  split
  · rfl
  · split
    · rfl
    · next b _ => exact LiveEq.wordDone (s := s.withSeq { s.seq with buf := some b }) ht hp i cnt b.bytes

/-- A port transaction and what follows it read no dead register. -/
theorem LiveEq.runInstr (i : Instr) (hi : isPort i = true) (hstatus : i = .in8Status → s.seq.phase = .cmdIssued)
    (herror : i = .in8Error → s.cfg.mode = .hardened) :
    OutRel LiveEq (runInstr i s) (runInstr i (variant s tries polls errv s.dev)) := by
  cases i with
  | readSectorsExt | writeSectorsExt | readSectors28 | writeSectors28 => cases hi
  | in16Data => exact LiveEq.wordRead (s := afterDataRead s) ht hp (dataAnswer s).1
  | out16Data w => exact LiveEq.wordWritten (s := afterDataWrite s w) ht hp
  | out8Seccnt v => exact LiveEq.advancePreamble (s := portWrite8 s _ v _) ht hp
  | out8Lba0 v => exact LiveEq.advancePreamble (s := portWrite8 s _ v _) ht hp
  | out8Lba1 v => exact LiveEq.advancePreamble (s := portWrite8 s _ v _) ht hp
  | out8Lba2 v => exact LiveEq.advancePreamble (s := portWrite8 s _ v _) ht hp
  | out8Drvhead v => exact LiveEq.advancePreamble (s := portWrite8 s _ v _) ht hp
  | out8Command v => exact LiveEq.commandIssued (s := (portWrite8 s _ v _).withOracle _) ht
  | in8Status => exact LiveEq.polled (s := afterStatus s) ht (hp (hstatus rfl)) (statusAnswer s).1
  | in8Error => exact LiveEq.errorRead (s := portRead8 s _ (errorAnswer s)) (herror rfl) ht (errorAnswer s).1

end

/-- Settles O45: acceptance reads no register, and outside `IDLE` no step reads `TRIES`, `POLLS` or `ERRV` where they are
dead. -/
theorem deadRegistersDoNotMatter : Obligations.DeadRegistersDoNotMatter := by
  intro s t h
  by_cases hs : s.seq.phase = .idle
  · have hq : t.seq.phase = .idle := h.phase ▸ hs
    refine OutRel.step_idle hs hq h.requests h.oracle h fun r o rs => ?_
    rw [h.eq_withSeq]
    exact LiveEq.accept_idle (s := (s.withOracle o).withRequests rs) hs hq r.op r.args
  · rw [h.eq_variant hs]
    exact OutRel.step_busy hs (LiveEq.runInstr (h.tries hs) h.polls) fun hm => LiveEq.timedOut hm (h.tries hs)

/-! States that differ in the registers of a general device (R16, R143). -/

section
variable {s : State} {d : Device} (hs : s.dev.disks = none) (hd : d.disks = none)
include hs

/-- The general device's status answer is a draw (R114, R118). -/
theorem statusAnswer_general : statusAnswer s = s.oracle.drawStatus := by
  unfold statusAnswer
  split
  · next h => simp [hs] at h
  · rfl

include hd

theorem SameButDevice.of_general : SameButDevice s (s.withDev d) := ⟨rfl, rfl, rfl, rfl, rfl, rfl, hs, hd⟩

/-- Acceptance in `IDLE` does not touch the device (R124). -/
theorem SameButDevice.accept_idle (hp : s.seq.phase = .idle) (op : Byte) (a : ReqArgs) :
    OutRel SameButDevice (accept op a s) (accept op a (s.withDev d)) := by
  by_cases hc : check s.cfg op a = .ok
  · obtain ⟨dir, hdir, -⟩ := check_ok hc
    rw [accept_started hp hc hdir, accept_started (s := s.withDev d) hp hc hdir]
    cases dir with
    | wr => exact of_general hs hd
    | rd =>
      unfold startRequest
      simp only [State.withDev_oracle]
      split <;> exact of_general hs hd
  · rw [accept_rejected hp hc, accept_rejected (s := s.withDev d) hp hc]
    exact of_general hs hd

theorem SameButDevice.retryOrRaise (n : Nat) (c : ResultCode) (v : Byte) :
    SameButDevice (retryOrRaise s n c v) (retryOrRaise (s.withDev d) n c v) := by
  unfold Machine.retryOrRaise
  split <;> exact of_general hs hd

theorem SameButDevice.advancePreamble : OutRel SameButDevice (advancePreamble s) (advancePreamble (s.withDev d)) :=
  OutRel.readReg fun _ => of_general hs hd

theorem SameButDevice.polled (v : Byte) : OutRel SameButDevice (polled v s) (polled v (s.withDev d)) := by
  unfold Machine.polled
  simp only [State.withDev_cfg]
  split
  · show SameButDevice _ _
    split <;> exact of_general hs hd
  · exact OutRel.readReg fun n => of_general hs hd

theorem SameButDevice.wordDone (i : Nat) (cnt : CountWord) (payload : List Byte) :
    OutRel SameButDevice (wordDone i cnt payload s) (wordDone i cnt payload (s.withDev d)) := by
  unfold Machine.wordDone
  split <;> exact of_general hs hd

theorem SameButDevice.wordWritten : OutRel SameButDevice (wordWritten s) (wordWritten (s.withDev d)) :=
  OutRel.readReg fun cnt => OutRel.readReg fun i => wordDone hs hd i cnt []

theorem SameButDevice.wordRead (w : DataWord) : OutRel SameButDevice (wordRead w s) (wordRead w (s.withDev d)) := by
  refine OutRel.readReg fun cnt => OutRel.readReg fun i => OutRel.readReg fun buf => ?_
  split
  · rfl
  · split
    · rfl
    · next b _ => exact wordDone (s := s.withSeq { s.seq with buf := some b }) hs hd i cnt b.bytes

theorem SameButDevice.errorRead (v : Byte) : OutRel SameButDevice (errorRead v s) (errorRead v (s.withDev d)) :=
  OutRel.readReg fun n => retryOrRaise (s := s.withSeq { s.seq with errv := some v }) hs hd n .eDevice v

theorem SameButDevice.timedOut : OutRel SameButDevice (timedOut s) (timedOut (s.withDev d)) :=
  OutRel.readReg fun n => retryOrRaise (s := channelReset s) (d := d.scramble s.oracle.draws) hs hd n .eTimeout 0#8

/-- A port transaction answers the sequencer alike, and the device stays a general one. -/
theorem SameButDevice.runInstr (i : Instr) (hi : isPort i = true) :
    OutRel SameButDevice (runInstr i s) (runInstr i (s.withDev d)) := by
  have next : ∀ e : Device, e.disks = none → e.nextWord.disks = none := fun e he => (Device.nextWord_disks e).trans he
  have word : ∀ w (e : Device), e.disks = none → (e.takeWord s.cfg w).disks = none := by
    intro w e he
    simp [Device.takeWord, referenceStream, he]
  have command : ∀ op (e : Device), e.disks = none → (e.takeCommand s.cfg s.oracle.draws op).disks = none :=
    fun op e he => (Device.takeCommand_disks s.cfg _ e op).elim (·.trans he) id
  cases i with
  | readSectorsExt | writeSectorsExt | readSectors28 | writeSectors28 => cases hi
  | in16Data =>
    have ha : dataAnswer (s.withDev d) = dataAnswer s := (dataAnswer_general hd).trans (dataAnswer_general hs).symm
    show OutRel _ (Machine.wordRead _ (afterDataRead s)) (Machine.wordRead _ (afterDataRead (s.withDev d)))
    unfold afterDataRead
    rw [ha]
    exact wordRead (next _ hs) (next _ hd) _
  | out16Data w => exact wordWritten (s := afterDataWrite s w) (word w _ hs) (word w _ hd)
  | out8Seccnt v => exact advancePreamble (s := portWrite8 s _ v _) hs hd
  | out8Lba0 v => exact advancePreamble (s := portWrite8 s _ v _) hs hd
  | out8Lba1 v => exact advancePreamble (s := portWrite8 s _ v _) hs hd
  | out8Lba2 v => exact advancePreamble (s := portWrite8 s _ v _) hs hd
  | out8Drvhead v => exact advancePreamble (s := portWrite8 s _ v _) hs hd
  | out8Command v => exact of_general (command v _ hs) (command v _ hd)
  | in8Status =>
    have ha : statusAnswer (s.withDev d) = statusAnswer s :=
      (statusAnswer_general hd).trans (statusAnswer_general hs).symm
    show OutRel _ (Machine.polled _ (afterStatus s)) (Machine.polled _ (afterStatus (s.withDev d)))
    unfold afterStatus
    rw [ha]
    exact polled (s := afterStatus s) hs hd _
  | in8Error => exact errorRead (s := portRead8 s _ (errorAnswer s)) hs hd _

end

/-- Settles O46: the sequencer sees of the device only its answers, which for a general device are draws. -/
theorem deviceRegistersDoNotMatter : Obligations.DeviceRegistersDoNotMatter := by
  intro s t h
  obtain ⟨hs, hd⟩ := h.general
  have ht : t = s.withDev t.dev := by
    simp only [State.withDev, h.cfg, h.seq, h.requests, h.responses, h.oracle, h.trace]
  by_cases hp : s.seq.phase = .idle
  · refine OutRel.step_idle hp (h.seq ▸ hp) h.requests h.oracle h fun r o rs => ?_
    rw [ht]
    exact SameButDevice.accept_idle (s := (s.withOracle o).withRequests rs) hs hd hp r.op r.args
  · rw [ht]
    exact OutRel.step_busy hp (fun i hi _ _ => SameButDevice.runInstr hs hd i hi) fun _ => SameButDevice.timedOut hs hd

end Sys2Proof.Safety

/-! The statements about the memories and the port accesses (20_memory.md): what a port transaction leaves alone, which
accesses a step issues, what keeps the buffer and the disks in canonical form, and the stops at the buffer's bounds. -/

namespace Sys2Proof.Machine

/-! Acceptance and the ends of an attempt: the parts of the state they leave alone. -/

theorem accept_busy {op : Byte} {a : ReqArgs} {s : State} (hp : s.seq.phase ≠ .idle) :
    accept op a s = .next (s.offer ⟨op, a⟩) := if_neg hp

/-- Acceptance touches no port and no device, and `BUF` is as before or filled from bytes (R38, R77, R124). -/
theorem accept_frame {op : Byte} {a : ReqArgs} {s t : State} (h : accept op a s = .next t) :
    t.trace = s.trace ∧ t.dev = s.dev ∧
      (t.seq.buf = s.seq.buf ∨ ∃ n bs, t.seq.buf = some (Buffer.ofBytes n bs)) := by
  by_cases hp : s.seq.phase = .idle
  · rcases accept_idle_cases hp h with ⟨c, -, -, rfl⟩ | ⟨-, -, -, rfl⟩ | ⟨init, -, -, -, rfl⟩ | ⟨-, -, rfl⟩
    · exact ⟨rfl, rfl, .inl rfl⟩
    · exact ⟨rfl, rfl, .inl rfl⟩
    · exact ⟨rfl, rfl, .inr ⟨_, init, rfl⟩⟩
    · exact ⟨rfl, rfl, .inr ⟨_, a.data, rfl⟩⟩
  · rw [accept_busy hp] at h
    injection h with h
    subst h
    exact ⟨rfl, rfl, .inl rfl⟩

@[simp] theorem afterWord_trace (s : State) (i : Nat) (cnt : CountWord) (payload : List Byte) :
    (afterWord s i cnt payload).trace = s.trace := by
  rcases afterWord_cases s i cnt payload with ⟨-, h⟩ | ⟨-, h⟩ <;> rw [h] <;> rfl

@[simp] theorem retryOrRaise_trace (s : State) (n : Nat) (c : ResultCode) (v : Byte) :
    (retryOrRaise s n c v).trace = s.trace := by
  rcases retryOrRaise_cases s n c v with ⟨-, h⟩ | ⟨-, h⟩ <;> rw [h] <;> rfl

/-! Data steps at the buffer's bounds (R39). -/

theorem Buffer.read_of_le {b : Buffer} {a : Nat} (h : b.len ≤ a) : b.read a = none := if_neg h.not_gt

theorem Buffer.write_of_le {b : Buffer} {a : Nat} (h : b.len ≤ a) (v : Byte) : b.write a v = none := if_neg h.not_gt

section
variable {s : State} {cnt : CountWord} {i : Nat} {buf : Buffer} (hc : s.seq.cnt = some cnt) (hi : s.seq.widx = some i)
  (hb : s.seq.buf = some buf) (w : DataWord)
include hc hi hb

/-- A word is not stored when its even byte does not fit (log 28). -/
theorem wordRead_even_outside (hlen : buf.len ≤ 2 * i) : wordRead w s = .fault (.bufferBounds (2 * i)) := by
  simp [wordRead, hc, hi, hb, Buffer.write_of_le hlen]

/-- A word is not stored when its even byte is the buffer's last (log 28). -/
theorem wordRead_odd_outside (hlen : buf.len = 2 * i + 1) : wordRead w s = .fault (.bufferBounds (2 * i + 1)) := by
  have heven : 2 * i < buf.len := hlen ▸ Nat.lt_succ_self _
  have hodd : ∀ m v, Buffer.write ⟨buf.len, m⟩ (2 * i + 1) v = none := fun _ => Buffer.write_of_le hlen.le
  simp [wordRead, hc, hi, hb, Buffer.write_of_lt heven, hodd]

end

section
variable {s : State} {cnt : CountWord} {i : Nat} {buf : Buffer} (hp : s.seq.phase = .ready) (hc : s.seq.cnt = some cnt)
  (hi : s.seq.widx = some i) (hlt : i < nw cnt)
include hp hc hi hlt

/-- A data read has accessed the port before it stores the word, whatever the buffer's bounds (R99). -/
theorem step_dataRead_stores (hd : s.seq.dir = some .rd) : step s = wordRead (dataAnswer s).1 (afterDataRead s) :=
  step_of_run (i := .in16Data) (u := s) (by simp [fetch_ready hp, fetchData, hc, hi, hd, hlt]) rfl

/-- A data write whose odd byte is outside the buffer stops before its port access (log 28). -/
theorem step_dataWrite_outside (hd : s.seq.dir = some .wr) (hb : s.seq.buf = some buf) (hlen : buf.len ≤ 2 * i + 1) :
    step s = .fault (.bufferBounds (2 * i + 1)) :=
  step_of_stop (by simp [fetch_ready hp, fetchData, hc, hi, hd, hlt, hb, Buffer.read_of_le hlen])

end

end Sys2Proof.Machine

namespace Sys2Proof.Safety

open Sys2Proof.Machine

/-! The accesses the block may issue (R36, R37). -/

theorem allowedEvent_portWrite8 (c : Config) {off : PortOff} (v : Byte)
    (h : off ∈ [2#3, 3#3, 4#3, 5#3, 6#3, 7#3]) : allowedEvent c (.portWrite8 (portAddr c off) v) := by
  simp only [List.mem_cons, List.not_mem_nil, or_false] at h
  rcases h with rfl | rfl | rfl | rfl | rfl | rfl <;> simp [allowedEvent]

theorem allowedEvent_statusRead (c : Config) (v : Byte) : allowedEvent c (.portRead8 (portAddr c 7#3) v) := .inl rfl

theorem allowedEvent_errorRead {c : Config} (hm : c.mode = .hardened) (v : Byte) :
    allowedEvent c (.portRead8 (portAddr c c.errRegOff) v) := .inr ⟨hm, rfl⟩

theorem allowedEvent_dataRead (c : Config) (w : DataWord) : allowedEvent c (.portRead16 (portAddr c 0#3) w) := rfl

theorem allowedEvent_dataWrite (c : Config) (w : DataWord) : allowedEvent c (.portWrite16 (portAddr c 0#3) w) := rfl

/-- A preamble row writes one of the ports `SECCNT` to `DRVHEAD` (R79). -/
theorem allowedEvent_preamble {s : State} {k : Nat} {off : PortOff} {v : Byte} {d : Device}
    (h : PreambleWrite s k off v d) : allowedEvent s.cfg (.portWrite8 (portAddr s.cfg off) v) := by
  cases h <;> exact allowedEvent_portWrite8 _ _ (by decide)

/-! What an instruction does to the state: a port transaction or an acceptance (R64, R66). -/

/-- What a port transaction can do (R66): it goes on to `t` with the one event `e`, which the block may issue, and only the
channel and the coming answers change. The disks stay unless the device takes a data word or a command. -/
structure PortEffect (i : Instr) (s t : State) (e : BusEvent) : Prop where
  goesOn : exec i s = .next t
  frame : t = { s with dev := t.dev, oracle := t.oracle, trace := e :: s.trace }
  allowed : (i = .in8Error → s.cfg.mode = .hardened) → allowedEvent s.cfg e
  disks : t.dev.disks = s.dev.disks ∨ (∃ w, i = .out16Data w ∧ t.dev = s.dev.takeWord s.cfg w) ∨
    ∃ v, i = .out8Command v ∧ t.dev = s.dev.takeCommand s.cfg s.oracle.draws v

/-- A byte write to the register file that keeps the disks (R108 to R112). -/
theorem PortEffect.fieldWrite {i : Instr} {s : State} {off : PortOff} {v : Byte} {d : Device}
    (he : exec i s = .next (portWrite8 s off v d)) (hoff : off ∈ [2#3, 3#3, 4#3, 5#3, 6#3, 7#3])
    (hd : d.disks = s.dev.disks) :
    PortEffect i s (portWrite8 s off v d) (.portWrite8 (portAddr s.cfg off) v) :=
  ⟨he, rfl, fun _ => allowedEvent_portWrite8 _ v hoff, .inl hd⟩

theorem exec_port {i : Instr} (s : State) (hi : isPort i = true) : ∃ t e, PortEffect i s t e := by
  cases i with
  | readSectorsExt | writeSectorsExt | readSectors28 | writeSectors28 => cases hi
  | in16Data => exact ⟨_, _, rfl, rfl, fun _ => allowedEvent_dataRead _ _, .inl (Device.nextWord_disks _)⟩
  | out16Data w => exact ⟨_, _, rfl, rfl, fun _ => allowedEvent_dataWrite _ w, .inr (.inl ⟨w, rfl, rfl⟩)⟩
  | out8Seccnt v => exact ⟨_, _, .fieldWrite rfl (by decide) rfl⟩
  | out8Lba0 v => exact ⟨_, _, .fieldWrite rfl (by decide) rfl⟩
  | out8Lba1 v => exact ⟨_, _, .fieldWrite rfl (by decide) rfl⟩
  | out8Lba2 v => exact ⟨_, _, .fieldWrite rfl (by decide) rfl⟩
  | out8Drvhead v => exact ⟨_, _, .fieldWrite rfl (by decide) rfl⟩
  | out8Command v =>
    exact ⟨_, _, rfl, rfl, fun _ => allowedEvent_portWrite8 _ v (by decide), .inr (.inr ⟨v, rfl, rfl⟩)⟩
  | in8Status => exact ⟨_, _, rfl, rfl, fun _ => allowedEvent_statusRead _ _, .inl rfl⟩
  | in8Error => exact ⟨_, _, rfl, rfl, fun hm => allowedEvent_errorRead (hm rfl) _, .inl rfl⟩

/-- Every other instruction is the acceptance of its request (R64). -/
theorem exec_command {i : Instr} (s : State) (hi : isPort i = false) : ∃ op a, exec i s = accept op a s := by
  cases i with
  | readSectorsExt a | writeSectorsExt a | readSectors28 a | writeSectors28 a => exact ⟨_, a, rfl⟩
  | _ => cases hi

/-- Settles O15, by what a port transaction can do. -/
theorem portTransactionFrame : Obligations.PortTransactionFrame := by
  intro i s hi hm
  obtain ⟨t, e, h⟩ := exec_port s hi
  refine ⟨t, e, h.goesOn, h.allowed hm, h.frame, fun hword hcommand => ?_⟩
  rcases h.disks with hd | ⟨w, rfl, -⟩ | ⟨v, rfl, -⟩
  · exact hd
  · exact absurd rfl (hword w)
  · exact absurd rfl (hcommand v)

/-- Settles O36: a port transaction keeps `BUF`, and the device stores canonically; acceptance keeps the disks, and fills
`BUF` canonically. -/
theorem execKeepsMemoriesCanonical : Obligations.ExecKeepsMemoriesCanonical := by
  intro i s hbuf hdisk
  cases hi : isPort i with
  | true =>
    obtain ⟨t, e, h⟩ := exec_port s hi
    have hseq : t.seq = s.seq := by rw [h.frame]
    refine ⟨t, h.goesOn, hseq ▸ hbuf, ?_⟩
    rcases h.disks with hd | ⟨w, -, hd⟩ | ⟨v, -, hd⟩ <;> rw [hd]
    · exact hdisk
    · exact Device.takeWord_wf hdisk
    · exact Device.takeCommand_wf hdisk
  | false =>
    obtain ⟨op, a, he⟩ := exec_command s hi
    obtain ⟨t, ht⟩ := accept_next op a s
    obtain ⟨-, hdev, hb⟩ := accept_frame ht
    refine ⟨t, he.trans ht, ?_, hdev ▸ hdisk⟩
    rcases hb with hb | ⟨n, bs, hb⟩
    · exact hb ▸ hbuf
    · intro b e
      obtain rfl : Buffer.ofBytes n bs = b := Option.some.inj (hb.symm.trans e)
      exact Buffer.ofBytes_wf n bs

/-- Settles O39, row by row of R95: waiting and acceptance issue nothing, every other row its one event. -/
theorem stepIssuesAllowedAccess : Obligations.StepIssuesAllowedAccess := by
  intro s t h
  cases step_cases h with
  | wait _ _ ht => exact .inl (ht ▸ rfl)
  | request r s1 _ hc ht =>
    obtain ⟨k, o, -, -, rfl⟩ := chooseRequest_some hc
    exact .inl (accept_frame ht).1
  | preamble k off v d _ _ hw ht =>
    subst ht
    exact .inr ⟨_, rfl, allowedEvent_preamble hw⟩
  | command op _ _ _ ht =>
    subst ht
    exact .inr ⟨_, rfl, allowedEvent_portWrite8 _ op (by decide)⟩
  | pollMinimal _ _ ht =>
    refine .inr ⟨_, ?_, allowedEvent_statusRead _ (statusAnswer s).1⟩
    rw [ht]
    split <;> rfl
  | pollHardened n _ _ _ ht =>
    subst ht
    exact .inr ⟨_, rfl, allowedEvent_statusRead _ _⟩
  | dataRead cnt i buf b1 b2 _ _ _ _ _ _ _ _ ht =>
    subst ht
    exact .inr ⟨_, afterWord_trace _ _ _ _, allowedEvent_dataRead _ _⟩
  | dataWrite cnt i buf lo hi _ _ _ _ _ _ _ _ ht =>
    subst ht
    exact .inr ⟨_, afterWord_trace _ _ _ _, allowedEvent_dataWrite _ _⟩
  | errorStep n _ hm _ ht =>
    subst ht
    exact .inr ⟨_, retryOrRaise_trace _ _ _ _, allowedEvent_errorRead hm _⟩
  | timeoutStep n _ hm _ ht =>
    subst ht
    exact .inr ⟨.channelReset, retryOrRaise_trace _ _ _ _, hm⟩

/-- Settles O7: the one waiting request is accepted, and its allocation fails. -/
theorem allocationFailureRejects : Obligations.AllocationFailureRejects := by
  intro s r rest hp hr hd hc ha
  have hchoose : chooseRequest s = some (r, s.withRequests []) := by simp [chooseRequest, hr]
  have hdraw : (s.withRequests []).oracle.drawAlloc = (none, { s.oracle with alloc := rest }) := drawAlloc_cons ha
  rw [step_idle_request hp hchoose, accept_started (s := s.withRequests []) hp hc hd, startRequest]
  simp only [hdraw]
  simp [raise, endRequest, State.respond, State.setPhase, State.withSeq, State.withOracle, State.withRequests,
    Seq.latchRequest, rejectedState, hp]

/-- Settles O25: the byte that does not fit stops a read from the device at its write and a write to the device at its
fetch. -/
theorem bufferBoundsFault : Obligations.BufferBoundsFault := by
  intro s cnt i buf hp hc hi hlt hb
  refine ⟨fun hd hlen => ?even, fun hd hlen => ?odd, fun hd hlen => ?write⟩
  case even =>
    rw [step_dataRead_stores hp hc hi hlt hd]
    exact wordRead_even_outside (s := afterDataRead s) hc hi hb _ hlen
  case odd =>
    rw [step_dataRead_stores hp hc hi hlt hd]
    exact wordRead_odd_outside (s := afterDataRead s) hc hi hb _ hlen
  case write => exact step_dataWrite_outside hp hc hi hlt hd hb hlen

end Sys2Proof.Safety

/-! The statements about the encoding (30_encoding.md): the opcode map (R64), the key table (R66) row by row, what is
outside both, and the step that runs what was decoded. -/

namespace Sys2Proof.Machine

/-! The opcode map (R64). -/

theorem decodeRequest_readExt (c : Config) (a : ReqArgs) :
    decodeRequest c ⟨Config.opcReadExt, a⟩ = .instr (.readSectorsExt a) := if_pos rfl

theorem decodeRequest_writeExt (c : Config) (a : ReqArgs) :
    decodeRequest c ⟨Config.opcWriteExt, a⟩ = .instr (.writeSectorsExt a) := by
  have hne : Config.opcWriteExt ≠ Config.opcReadExt := by decide
  rw [decodeRequest, if_neg hne, if_pos rfl]

theorem decodeRequest_read28 {c : Config} (h : c.Legal) (hl : c.legacy28 = true) (a : ReqArgs) :
    decodeRequest c ⟨c.opcRead28, a⟩ = .instr (.readSectors28 a) := by
  obtain ⟨hre, hwe, -⟩ := h.read28
  rw [decodeRequest, if_neg hre, if_neg hwe, if_pos ⟨hl, rfl⟩]

theorem decodeRequest_write28 {c : Config} (h : c.Legal) (hl : c.legacy28 = true) (a : ReqArgs) :
    decodeRequest c ⟨c.opcWrite28, a⟩ = .instr (.writeSectors28 a) := by
  obtain ⟨-, -, hne⟩ := h.read28
  obtain ⟨hre, hwe⟩ := h.write28
  rw [decodeRequest, if_neg hre, if_neg hwe, if_neg fun h' => hne h'.2.symm, if_pos ⟨hl, rfl⟩]

/-- A request that decodes is the encoding of its command (R59, R64). -/
theorem encode_of_decodeRequest {c : Config} {r : Request} {i : Instr} (h : decodeRequest c r = .instr i) :
    encode c i = .req r ∧ i.admitted c = true := by
  obtain ⟨op, a⟩ := r
  rcases decodeRequest_cases c ⟨op, a⟩ with ⟨hd, -⟩ | ⟨j, hd, -, hj⟩
  · cases h.symm.trans hd
  · cases h.symm.trans hd
    rcases hj with ⟨rfl, rfl⟩ | ⟨rfl, rfl⟩ | ⟨rfl, hl, rfl⟩ | ⟨rfl, hl, rfl⟩
    · exact ⟨rfl, rfl⟩
    · exact ⟨rfl, rfl⟩
    · exact ⟨rfl, hl⟩
    · exact ⟨rfl, hl⟩

/-- An opcode byte that is none of the admitted ones is rejected (R70). -/
theorem decodeRequest_illegalOp {c : Config} {r : Request} (hre : r.op ≠ Config.opcReadExt)
    (hwe : r.op ≠ Config.opcWriteExt) (h28 : c.legacy28 = true → r.op ≠ c.opcRead28 ∧ r.op ≠ c.opcWrite28) :
    decodeRequest c r = .rejected (.illegalOp r.op) := by
  rw [decodeRequest, if_neg hre, if_neg hwe, if_neg fun h => (h28 h.1).1 h.2, if_neg fun h => (h28 h.1).2 h.2]

/-- Executing what a request decodes to is accepting the request (R77). -/
theorem exec_of_decodeRequest {s : State} {r : Request} {i : Instr} (h : decodeRequest s.cfg r = .instr i) :
    exec i s = accept r.op r.args s := by
  obtain ⟨op, a⟩ := r
  rcases decodeRequest_cases s.cfg ⟨op, a⟩ with ⟨hd, -⟩ | ⟨j, hd, -, hj⟩
  · cases h.symm.trans hd
  · cases h.symm.trans hd
    rcases hj with ⟨rfl, rfl⟩ | ⟨rfl, rfl⟩ | ⟨rfl, -, rfl⟩ | ⟨rfl, -, rfl⟩ <;> rfl

/-! The request in `IDLE`, and the reserved phases. -/

/-- A single waiting request is the one chosen (R77). -/
theorem chooseRequest_single {s : State} {r : Request} (hr : s.requests = [r]) :
    chooseRequest s = some (r, s.withRequests []) := by
  simp only [chooseRequest, hr]

theorem fetch_illegalOp {s s1 : State} {r : Request} {e : DecodeError} (hp : s.seq.phase = .idle)
    (hc : chooseRequest s = some (r, s1)) (hd : decodeRequest s.cfg r = .rejected e) : fetch s = .illegalOp s1 := by
  simp only [fetch, hp, fetchRequest, hc, hd]

/-- Raising in `IDLE` adds the response and changes nothing else (R131). -/
theorem raise_idle {s : State} (hp : s.seq.phase = .idle) (code : ResultCode) (info : Byte) :
    raise s code info = { s with responses := s.responses ++ [⟨code, info, []⟩] } := by
  have hseq : { s.seq with phase := .idle } = s.seq := by rw [← hp]
  simp only [raise, endRequest, State.setPhase, State.withSeq, State.respond, hseq]

/-- A `HARDENED` poll leads to no reserved phase (R73, R92). -/
theorem hardenedPhase_not_reserved (c : Config) (v : Byte) (n : Nat) :
    hardenedPhase c v n ≠ .reserved6 ∧ hardenedPhase c v n ≠ .reserved7 := by
  unfold hardenedPhase
  split_ifs <;> decide

theorem retryOrRaise_not_reserved (s : State) (n : Nat) (c : ResultCode) (v : Byte) :
    (retryOrRaise s n c v).seq.phase ≠ .reserved6 ∧ (retryOrRaise s n c v).seq.phase ≠ .reserved7 := by
  rcases retryOrRaise_cases s n c v with ⟨-, h⟩ | ⟨-, h⟩ <;> rw [h] <;> exact ⟨nofun, nofun⟩

end Sys2Proof.Machine

namespace Sys2Proof

/-! Values beside a key (R63). -/

theorem decodeIn_eq_instr {i j : Instr} {v : DataWord} (h : decodeIn i v = .instr j) : j = i ∧ v = 0#16 := by
  unfold decodeIn at h
  split at h
  · next hv => exact ⟨(Decoded.instr.inj h).symm, hv⟩
  · cases h

/-- A byte beside an 8-bit write key comes back. -/
theorem decodeOut8_setWidth (f : Byte → Instr) (b : Byte) : decodeOut8 f (b.setWidth 16) = .instr (f b) := by
  have hlt : (b.setWidth 16).toNat < 256 := by
    have := b.isLt
    rw [BitVec.toNat_setWidth]
    omega
  have hback : (b.setWidth 16).setWidth 8 = b := by simp
  rw [decodeOut8, if_pos hlt, hback]

/-- An 8-bit write that decodes carries a byte. -/
theorem decodeOut8_eq_instr {f : Byte → Instr} {i : Instr} {v : DataWord} (h : decodeOut8 f v = .instr i) :
    ∃ b : Byte, i = f b ∧ v = b.setWidth 16 := by
  unfold decodeOut8 at h
  split at h
  · next hlt =>
    refine ⟨v.setWidth 8, (Decoded.instr.inj h).symm, BitVec.eq_of_toNat_eq ?_⟩
    simp only [BitVec.toNat_setWidth]
    omega
  · cases h

/-! Keys (R63). -/

/-- A key is made of its fields. -/
theorem mkKey_fields (key : BitVec 5) : mkKey (keyIsWrite key) (keyIs16 key) (keyOff key) = key := by
  revert key
  decide

theorem eq_mkKey {key : BitVec 5} {write wide : Bool} {n : Nat} (hw : keyIsWrite key = write)
    (h16 : keyIs16 key = wide) (ho : (keyOff key).toNat = n) : key = mkKey write wide (BitVec.ofNat 3 n) := by
  rw [← mkKey_fields key, hw, h16, ← ho, BitVec.ofNat_toNat, BitVec.setWidth_eq]

/-- The rows of the key table (R66): a key, and what the value beside it decodes to. -/
inductive KeyRow (c : Config) : BitVec 5 → (DataWord → Decoded) → Prop
  | in16Data : KeyRow c (mkKey false true 0#3) (decodeIn .in16Data)
  | out16Data : KeyRow c (mkKey true true 0#3) fun w => .instr (.out16Data w)
  | out8Seccnt : KeyRow c (mkKey true false 2#3) (decodeOut8 .out8Seccnt)
  | out8Lba0 : KeyRow c (mkKey true false 3#3) (decodeOut8 .out8Lba0)
  | out8Lba1 : KeyRow c (mkKey true false 4#3) (decodeOut8 .out8Lba1)
  | out8Lba2 : KeyRow c (mkKey true false 5#3) (decodeOut8 .out8Lba2)
  | out8Drvhead : KeyRow c (mkKey true false 6#3) (decodeOut8 .out8Drvhead)
  | out8Command : KeyRow c (mkKey true false 7#3) (decodeOut8 .out8Command)
  | in8Status : KeyRow c (mkKey false false 7#3) (decodeIn .in8Status)
  | in8Error (hm : c.mode = .hardened) : KeyRow c (mkKey false false c.errRegOff) (decodeIn .in8Error)

/-- A key decodes as its row says; the error register's offset is not that of `STATUS` (D15). -/
theorem KeyRow.decodePio_eq {c : Config} {key : BitVec 5} {f : DataWord → Decoded} (h : KeyRow c key f)
    (hc : c.Legal) (v : DataWord) : decodePio c key v = f v := by
  cases h with
  | in8Error hm =>
    rw [hc.errRegOff]
    exact if_pos ⟨hm, hc.errRegOff.symm⟩
  | _ => rfl

/-- A key is in the table, or it is rejected (R66, R74). -/
theorem decodePio_cases (c : Config) (key : BitVec 5) (v : DataWord) :
    (∃ f, KeyRow c key f ∧ decodePio c key v = f v) ∨ decodePio c key v = .rejected (.keyNotIssued key) := by
  have row : ∀ {write wide n f}, keyIsWrite key = write → keyIs16 key = wide → (keyOff key).toNat = n →
      KeyRow c (mkKey write wide (BitVec.ofNat 3 n)) f → ∃ g, KeyRow c key g ∧ f v = g v :=
    fun {_ _ _ f} hw h16 ho h => ⟨f, eq_mkKey hw h16 ho ▸ h, rfl⟩
  unfold decodePio
  split
  · next hw h16 ho => exact .inl (row hw h16 ho .in16Data)
  · next hw h16 ho => exact .inl (row hw h16 ho .out16Data)
  · next hw h16 ho => exact .inl (row hw h16 ho .out8Seccnt)
  · next hw h16 ho => exact .inl (row hw h16 ho .out8Lba0)
  · next hw h16 ho => exact .inl (row hw h16 ho .out8Lba1)
  · next hw h16 ho => exact .inl (row hw h16 ho .out8Lba2)
  · next hw h16 ho => exact .inl (row hw h16 ho .out8Drvhead)
  · next hw h16 ho => exact .inl (row hw h16 ho .out8Command)
  · next hw h16 ho => exact .inl (row hw h16 ho .in8Status)
  · next hw h16 _ =>
    split
    · next herr =>
      obtain ⟨hm, ho⟩ := herr
      have hkey : key = mkKey false false c.errRegOff := by rw [← mkKey_fields key, hw, h16, ho]
      exact .inl ⟨_, hkey ▸ .in8Error hm, rfl⟩
    · exact .inr rfl
  · exact .inr rfl

/-- A port transaction that a row decodes to has that row's key and value as its encoding. -/
theorem KeyRow.encode_eq {c : Config} {key : BitVec 5} {f : DataWord → Decoded} {v : DataWord} {i : Instr}
    (h : KeyRow c key f) (hv : f v = .instr i) : encode c i = .pio key v ∧ i.admitted c = true := by
  cases h with
  | in16Data | in8Status =>
    obtain ⟨rfl, rfl⟩ := decodeIn_eq_instr hv
    exact ⟨rfl, rfl⟩
  | in8Error hm =>
    obtain ⟨rfl, rfl⟩ := decodeIn_eq_instr hv
    exact ⟨rfl, beq_iff_eq.2 hm⟩
  | out16Data =>
    obtain rfl := Decoded.instr.inj hv
    exact ⟨rfl, rfl⟩
  | out8Seccnt | out8Lba0 | out8Lba1 | out8Lba2 | out8Drvhead | out8Command =>
    obtain ⟨b, rfl, rfl⟩ := decodeOut8_eq_instr hv
    exact ⟨rfl, rfl⟩

end Sys2Proof

namespace Sys2Proof.Safety

open Sys2Proof.Machine

/-- Settles O28: a command's opcode byte names it, a port transaction's key is its row of the table, and the value beside
the key comes back. -/
theorem decodeUndoesEncode : Obligations.DecodeUndoesEncode := by
  intro c i hc ha
  cases i with
  | readSectorsExt a => exact decodeRequest_readExt c a
  | writeSectorsExt a => exact decodeRequest_writeExt c a
  | readSectors28 a => exact decodeRequest_read28 hc ha a
  | writeSectors28 a => exact decodeRequest_write28 hc ha a
  | in16Data => exact KeyRow.in16Data.decodePio_eq hc _
  | out16Data w => exact KeyRow.out16Data.decodePio_eq hc w
  | out8Seccnt v => exact (KeyRow.out8Seccnt.decodePio_eq hc _).trans (decodeOut8_setWidth _ v)
  | out8Lba0 v => exact (KeyRow.out8Lba0.decodePio_eq hc _).trans (decodeOut8_setWidth _ v)
  | out8Lba1 v => exact (KeyRow.out8Lba1.decodePio_eq hc _).trans (decodeOut8_setWidth _ v)
  | out8Lba2 v => exact (KeyRow.out8Lba2.decodePio_eq hc _).trans (decodeOut8_setWidth _ v)
  | out8Drvhead v => exact (KeyRow.out8Drvhead.decodePio_eq hc _).trans (decodeOut8_setWidth _ v)
  | out8Command v => exact (KeyRow.out8Command.decodePio_eq hc _).trans (decodeOut8_setWidth _ v)
  | in8Status => exact KeyRow.in8Status.decodePio_eq hc _
  | in8Error => exact (KeyRow.in8Error (beq_iff_eq.1 ha)).decodePio_eq hc _

/-- Settles O29: a request that decodes has its command's opcode, and a key that decodes is a row of the table. -/
theorem encodeUndoesDecode : Obligations.EncodeUndoesDecode := by
  intro c e i _ h
  cases e with
  | req r => exact encode_of_decodeRequest h
  | pio key v =>
    rcases decodePio_cases c key v with ⟨f, hrow, hf⟩ | hr
    · exact hrow.encode_eq (hf.symm.trans h)
    · cases h.symm.trans hr

/-- Settles O30: an opcode byte outside the map, and a key that no row of the table has. -/
theorem reservedEncodingsRejected : Obligations.ReservedEncodingsRejected := by
  refine ⟨fun c r hre hwe h28 => decodeRequest_illegalOp hre hwe h28, fun c key v hc hkey herr => ?_⟩
  rcases decodePio_cases c key v with ⟨f, hrow, -⟩ | hr
  · cases hrow with
    | in8Error hm =>
      rw [hc.errRegOff] at herr
      exact absurd ⟨hm, rfl⟩ herr
    | _ => exact absurd (by decide) hkey
  · exact hr

/-- Settles O41: `fetch` stops on the reserved codes; row by row of R95 a step leads to another phase or stays in its
own. -/
theorem reservedPhasesFault : Obligations.ReservedPhasesFault := by
  refine ⟨fun s => ⟨fun hp => step_of_stop (by simp only [fetch, hp]), fun hp => step_of_stop (by simp only [fetch, hp])⟩,
    fun s t h => ?_⟩
  have word : ∀ u i cnt payload, u.seq.phase = .ready →
      (afterWord u i cnt payload).seq.phase ≠ .reserved6 ∧ (afterWord u i cnt payload).seq.phase ≠ .reserved7 := by
    intro u i cnt payload hu
    rcases afterWord_result u i cnt payload with ⟨hp, -⟩ | ⟨hp, -⟩ <;> simp [hp, hu]
  cases step_cases h with
  | wait hp _ ht => simp [ht, hp]
  | request r s1 hp hc ht =>
    obtain ⟨k, o, -, -, rfl⟩ := chooseRequest_some hc
    rcases accept_idle_result (by exact hp) ht with ⟨hp, -⟩ | ⟨c, -, -, hp, -⟩ <;> simp [hp]
  | preamble k off v d hp _ _ ht => simp [ht, afterPreamble, hp]
  | command op _ _ _ ht => simp [ht, afterCommand]
  | pollMinimal hp _ ht =>
    rw [ht]
    split <;> simp [afterStatus, hp]
  | pollHardened n _ _ _ ht => exact ht ▸ hardenedPhase_not_reserved _ _ _
  | dataRead cnt i buf b1 b2 hp _ _ _ _ _ _ _ ht => exact ht ▸ word _ i cnt _ hp
  | dataWrite cnt i buf lo hi hp _ _ _ _ _ _ _ ht => exact ht ▸ word _ i cnt _ hp
  | errorStep n _ _ _ ht => exact ht ▸ retryOrRaise_not_reserved _ _ _ _
  | timeoutStep n _ _ _ ht => exact ht ▸ retryOrRaise_not_reserved _ _ _ _

/-- Settles O31: each word is evaluated in the table's configuration. -/
theorem tableWordsDecode : Obligations.TableWordsDecode :=
  ⟨by decide, by decide, by decide, by decide, by decide, by decide⟩

/-- Settles O32: a step in `IDLE` accepts the one waiting request, which is what executing it does; outside `IDLE` it is
the definition of a step. -/
theorem stepRunsFetchedInstruction : Obligations.StepRunsFetchedInstruction := by
  refine ⟨fun s r i hp hr hd => ?_, fun s r e hp hr hd => ?_, fun s u t i => step_of_run⟩
  · rw [step_idle_request hp (chooseRequest_single hr)]
    exact (exec_of_decodeRequest (s := s.withRequests []) hd).symm
  · rw [step_eq_outcome, fetch_illegalOp hp (chooseRequest_single hr) hd]
    exact congrArg _ (raise_idle (s := s.withRequests []) hp .eOp 0#8)

end Sys2Proof.Safety

/-! The statements about the protocol (40_protocol.md): acceptance and the waiting requests, the preamble and the poll, the
transition relation, and whole `MINIMAL` requests. -/

namespace Sys2Proof.Machine

open Sys2Proof.Safety

/-! Acceptance (R77, R78). -/

section
variable {op : Byte} {a : ReqArgs} {s : State} (hp : s.seq.phase = .idle) (hc : check s.cfg op a = .ok)
include hp hc

/-- A checked read whose allocation succeeds is latched, `BUF` holding what the allocator gave (R40). -/
theorem accept_read {init : List Byte} {rest : List (Option (List Byte))} (hd : dirOf s.cfg op = some .rd)
    (ha : s.oracle.alloc = some init :: rest) :
    accept op a s = .next (acceptedState { s with oracle := { s.oracle with alloc := rest } } op .rd a
      (Buffer.ofBytes (nb a.count) init)) := by
  rw [accept_started hp hc hd, startRequest, drawAlloc_cons ha]
  rfl

/-- A checked write is latched, `BUF` holding a copy of its data (R38). -/
theorem accept_write (hd : dirOf s.cfg op = some .wr) :
    accept op a s = .next (acceptedState s op .wr a (Buffer.ofBytes (nb a.count) a.data)) :=
  accept_started hp hc hd

end

/-- Acceptance in `IDLE` leaves the waiting requests alone. -/
theorem accept_idle_requests {op : Byte} {a : ReqArgs} {s t : State} (hp : s.seq.phase = .idle)
    (h : accept op a s = .next t) : t.requests = s.requests := by
  rcases accept_idle_cases hp h with ⟨c, -, -, rfl⟩ | ⟨-, -, -, rfl⟩ | ⟨init, -, -, -, rfl⟩ | ⟨-, -, rfl⟩ <;> rfl

@[simp] theorem afterWord_requests (s : State) (i : Nat) (cnt : CountWord) (payload : List Byte) :
    (afterWord s i cnt payload).requests = s.requests := by
  rcases afterWord_cases s i cnt payload with ⟨-, h⟩ | ⟨-, h⟩ <;> rw [h] <;> rfl

@[simp] theorem retryOrRaise_requests (s : State) (n : Nat) (c : ResultCode) (v : Byte) :
    (retryOrRaise s n c v).requests = s.requests := by
  rcases retryOrRaise_cases s n c v with ⟨-, h⟩ | ⟨-, h⟩ <;> rw [h] <;> rfl

/-- A step of a running request touches no waiting one (R78). -/
theorem step_busy_requests {s t : State} (hp : s.seq.phase ≠ .idle) (h : step s = .next t) :
    t.requests = s.requests := by
  cases step_cases h with
  | wait hidle => exact absurd hidle hp
  | request _ _ hidle => exact absurd hidle hp
  | preamble k off v d _ _ _ ht => rw [ht]; rfl
  | command op _ _ _ ht => rw [ht]; rfl
  | pollMinimal _ _ ht => rw [ht]; split <;> rfl
  | pollHardened n _ _ _ ht => rw [ht]; rfl
  | dataRead cnt i buf b1 b2 _ _ _ _ _ _ _ _ ht => rw [ht]; exact afterWord_requests _ _ _ _
  | dataWrite cnt i buf lo hi _ _ _ _ _ _ _ _ ht => rw [ht]; exact afterWord_requests _ _ _ _
  | errorStep n _ _ _ ht => rw [ht]; exact retryOrRaise_requests _ _ _ _
  | timeoutStep n _ _ _ ht => rw [ht]; exact retryOrRaise_requests _ _ _ _

/-! The arbitration among waiting requests (D13, U29). -/

/-- `s` with its waiting request `k` off the interface, after the arbitration has used up some of its answers. -/
def State.taken (s : State) (k : Nat) (picks : List Nat) (n : Nat) : State :=
  { s with requests := s.requests.eraseIdx k, oracle := { s.oracle with pick := picks, draws := n } }

/-- A chosen request is one of those waiting, and only it and the arbitration's answers have gone. -/
theorem chooseRequest_taken {s u : State} {r : Request} (h : chooseRequest s = some (r, u)) :
    ∃ k picks n, s.requests[k]? = some r ∧ s.oracle.draws ≤ n ∧ n ≤ s.oracle.draws + 1 ∧ u = s.taken k picks n := by
  obtain ⟨k, o, -, hk, rfl⟩ := chooseRequest_some h
  obtain ⟨picks, n, hlo, hhi, ho⟩ := chooseRequest_oracle h
  obtain rfl : o = { s.oracle with pick := picks, draws := n } := ho
  exact ⟨k, picks, n, hk, hlo, hhi, rfl⟩

/-- The arbitration's next answer can be any of the waiting requests. -/
theorem chooseRequest_pick {s : State} {k : Nat} {r : Request} (hk : s.requests[k]? = some r) :
    ∃ picks, chooseRequest { s with oracle := { s.oracle with pick := [k] } } =
      some (r, s.taken k picks s.oracle.draws) := by
  obtain ⟨hlt, hr⟩ := List.getElem?_eq_some_iff.1 hk
  match hreq : s.requests, hlt with
  | [x], hlt =>
    obtain rfl : k = 0 := Nat.lt_one_iff.1 hlt
    obtain rfl : x = r := by simpa [hreq] using hk
    exact ⟨[0], by simp [chooseRequest, hreq, State.taken, State.withRequests]⟩
  | x :: y :: l, hlt =>
    refine ⟨[], ?_⟩
    have hmod : k % (l.length + 1 + 1) = k := Nat.mod_eq_of_lt hlt
    rw [hreq] at hk
    simp [chooseRequest, hreq, Oracle.drawPick, hmod, hk, State.taken, State.withRequests, State.withOracle]

end Sys2Proof.Machine

namespace Sys2Proof.Safety

open Sys2Proof.Machine

/-- Settles O4: both commands pass the checks, and their directions are those of R65. -/
theorem readCommandsAccepted : Obligations.ReadCommandsAccepted := by
  intro s a init rest hl hp ha h1 hdata
  obtain ⟨hext, -, h28⟩ := dirOf_opcodes hl
  refine ⟨fun hlba => ⟨Buffer.ofBytes (nb a.count) init, rfl, ?_⟩,
    fun hleg hlba hcnt => ⟨Buffer.ofBytes (nb a.count) init, rfl, ?_⟩⟩
  · have hno : is28 s.cfg Config.opcReadExt ≠ true := by simp [(is28_ext hl).1]
    have hck := check_eq_ok hext h1 hlba (fun h => absurd h hno) nofun fun _ => hdata
    exact accept_read hp hck hext ha
  · have hdir := (h28 hleg).1
    have hck := check_eq_ok hdir h1 (by omega) (fun _ => ⟨hlba, hcnt⟩) nofun fun _ => hdata
    exact accept_read hp hck hdir ha

/-- Settles O5, like O4; the allocator is not asked. -/
theorem writeCommandsAccepted : Obligations.WriteCommandsAccepted := by
  intro s a hl hp h1 hdata
  obtain ⟨-, hext, h28⟩ := dirOf_opcodes hl
  have hcopy := Buffer.bytes_ofBytes (n := nb a.count) hdata
  refine ⟨fun hlba => ⟨Buffer.ofBytes (nb a.count) a.data, rfl, hcopy, ?_⟩,
    fun hleg hlba hcnt => ⟨Buffer.ofBytes (nb a.count) a.data, rfl, hcopy, ?_⟩⟩
  · have hno : is28 s.cfg Config.opcWriteExt ≠ true := by simp [(is28_ext hl).2]
    have hck := check_eq_ok hext h1 hlba (fun h => absurd h hno) (fun _ => hdata) nofun
    exact accept_write hp hck hext
  · have hdir := (h28 hleg).2
    have hck := check_eq_ok hdir h1 (by omega) (fun _ => ⟨hlba, hcnt⟩) (fun _ => hdata) nofun
    exact accept_write hp hck hdir

/-- Settles O8: outside `IDLE` acceptance is the offer, and every row of R95 but those of `IDLE` leaves the request
interface alone. -/
theorem busyRequestWaits : Obligations.BusyRequestWaits :=
  ⟨fun _ _ hp => ⟨accept_busy hp, accept_busy hp, accept_busy hp, accept_busy hp⟩, fun _ _ => step_busy_requests⟩

/-- Accepting request `k` with the others left waiting serves it (R77). -/
theorem servesRequest_of_accept {s t : State} {k n : Nat} {picks : List Nat} {r : Request}
    (hp : s.seq.phase = .idle) (hk : s.requests[k]? = some r) (hlo : s.oracle.draws ≤ n)
    (hhi : n ≤ s.oracle.draws + 1) (h : accept r.op r.args (s.taken k picks n) = .next t) : servesRequest s k t := by
  refine ⟨r, picks, n, hk, hlo, hhi, ?_⟩
  rcases decodeRequest_cases s.cfg r with ⟨hd, hn⟩ | ⟨i, hd, -⟩ <;> simp only [decode, hd]
  · have hck : check (s.taken k picks n).cfg r.op r.args = .eOp := by
      show check s.cfg r.op r.args = .eOp
      rw [check, hn]
    rw [accept_rejected (s := s.taken k picks n) hp (by simp [hck]), hck,
      raise_idle (s := s.taken k picks n) hp] at h
    exact (Host.Outcome.next.inj h).symm
  · exact (exec_of_decodeRequest (s := s.taken k picks n) hd).trans h

/-- Settles O9: the chosen request is accepted as if it waited alone, and the arbitration may choose any one. -/
theorem oneWaitingRequestServed : Obligations.OneWaitingRequestServed := by
  refine ⟨fun s hp hr => ?_, fun s k hp hlt => ?_⟩
  · cases hc : chooseRequest s with
    | none => exact absurd (chooseRequest_none.1 hc) hr
    | some ru =>
      obtain ⟨r, u⟩ := ru
      obtain ⟨k, picks, n, hk, hlo, hhi, rfl⟩ := chooseRequest_taken hc
      obtain ⟨t, ht⟩ := accept_next r.op r.args (s.taken k picks n)
      refine ⟨k, t, (step_idle_request hp hc).trans ht, servesRequest_of_accept hp hk hlo hhi ht,
        accept_idle_requests (s := s.taken k picks n) hp ht, ?_⟩
      rcases accept_idle_result (s := s.taken k picks n) hp ht with ⟨hpre, -⟩ | ⟨c, -, -, -, hresp⟩
      · exact .inl hpre
      · exact .inr ⟨c, hresp⟩
  · have hk := List.getElem?_eq_getElem hlt
    obtain ⟨picks, hc⟩ := chooseRequest_pick hk
    obtain ⟨t, ht⟩ := accept_next s.requests[k].op s.requests[k].args (s.taken k picks s.oracle.draws)
    exact ⟨[k], t, (step_idle_request (by exact hp) hc).trans ht,
      servesRequest_of_accept hp hk le_rfl (Nat.le_succ _) ht,
      accept_idle_requests (s := s.taken k picks s.oracle.draws) hp ht⟩

end Sys2Proof.Safety

namespace Sys2Proof.Machine

open Sys2Proof.Safety

/-! The preamble (R79). -/

/-- Every row below the command write finds its register, and is the table's port transaction (R80 to R88). -/
theorem preambleWrite_of_regs {s : State} {k : Nat} {drv : Bool} {cnt : CountWord} {lba : LbaWord} (op : Byte)
    (hd : s.seq.drv = some drv) (hc : s.seq.cnt = some cnt) (hl : s.seq.lba = some lba) (hk : k ≤ 8) :
    ∃ off v d i, PreambleWrite s k off v d ∧ (preambleInstrs s.cfg drv cnt lba op)[k]? = some i ∧
      exec i s = .next (portWrite8 s off v d) :=
  match k, hk with
  | 0, _ => ⟨_, _, _, _, .dh drv hd, congrArg (fun v => some (Instr.out8Drvhead v)) (driveHead_eq _ drv).symm, rfl⟩
  | 1, _ => ⟨_, _, _, _, .scHi cnt hc, rfl, rfl⟩
  | 2, _ => ⟨_, _, _, _, .lba0Hi lba hl, rfl, rfl⟩
  | 3, _ => ⟨_, _, _, _, .lba1Hi lba hl, rfl, rfl⟩
  | 4, _ => ⟨_, _, _, _, .lba2Hi lba hl, rfl, rfl⟩
  | 5, _ => ⟨_, _, _, _, .scLo cnt hc, rfl, rfl⟩
  | 6, _ => ⟨_, _, _, _, .lba0Lo lba hl, rfl, rfl⟩
  | 7, _ => ⟨_, _, _, _, .lba1Lo lba hl, rfl, rfl⟩
  | 8, _ => ⟨_, _, _, _, .lba2Lo lba hl, rfl, rfl⟩

/-- The event of a row of the preamble, with the value its register gives. -/
theorem PreambleWrite.rowEvent_eq {s : State} {k : Nat} {off : PortOff} {v : Byte} {d : Device}
    (h : PreambleWrite s k off v d) : rowEvent s.cfg s.seq k = some (.portWrite8 (portAddr s.cfg off) v) := by
  cases h with
  | dh drv h =>
    rw [driveHead_eq, rowEvent, h]
    rfl
  | scHi _ h | lba0Hi _ h | lba1Hi _ h | lba2Hi _ h | scLo _ h | lba0Lo _ h | lba1Lo _ h | lba2Lo _ h =>
    rw [rowEvent, h]
    rfl

/-! The rows that end a word or an attempt (R99, R104, R126, R127). -/

theorem afterWord_widx (s : State) (i : Nat) (cnt : CountWord) (payload : List Byte) :
    (afterWord s i cnt payload).seq.widx = some (i + 1) := by
  rcases afterWord_cases s i cnt payload with ⟨-, h⟩ | ⟨-, h⟩ <;> rw [h] <;> rfl

theorem afterWord_buf (s : State) (i : Nat) (cnt : CountWord) (payload : List Byte) :
    (afterWord s i cnt payload).seq.buf = s.seq.buf := by
  rcases afterWord_cases s i cnt payload with ⟨-, h⟩ | ⟨-, h⟩ <;> rw [h] <;> rfl

/-- What a buffer read that answers gives (R39). -/
theorem Buffer.read_eq_some {b : Buffer} {a : Nat} {v : Byte} (h : b.read a = some v) :
    a < b.len ∧ b.mem.read a = v := by
  unfold Buffer.read at h
  split at h
  · exact ⟨‹_›, Option.some.inj h⟩
  · cases h

/-- The last word gives the response, any other stays in `READY`. -/
theorem afterWord_ready {s : State} (hp : s.seq.phase = .ready) (i : Nat) (cnt : CountWord) (payload : List Byte) :
    if i + 1 = nw cnt then (afterWord s i cnt payload).seq.phase = .idle ∧
      (afterWord s i cnt payload).responses = s.responses ++ [⟨.ok, 0#8, payload⟩]
    else (afterWord s i cnt payload).seq.phase = .ready ∧ (afterWord s i cnt payload).responses = s.responses := by
  rcases afterWord_cases s i cnt payload with ⟨hlast, h⟩ | ⟨hmore, h⟩ <;> rw [h]
  · rw [if_pos hlast]
    exact ⟨rfl, rfl⟩
  · rw [if_neg hmore]
    exact ⟨hp, rfl⟩

/-- The end of a failed attempt is a retry row, in whatever state `u` the failure left. -/
theorem retryRow_retryOrRaise {s u : State} {n : Nat} (hn : s.seq.tries = some n) (hr : u.responses = s.responses)
    (code : ResultCode) (info : Byte) : retryRow s (retryOrRaise u n code info) code info := by
  refine ⟨n, hn, ?_⟩
  rcases retryOrRaise_cases u n code info with ⟨hpos, h⟩ | ⟨hzero, h⟩ <;> rw [h]
  · rw [if_pos hpos]
    exact ⟨rfl, rfl, rfl, hr⟩
  · rw [if_neg (by omega)]
    exact ⟨rfl, congrArg (· ++ _) hr⟩

/-- Acceptance of the request taken off the interface is one of the three rows from `IDLE` (R95). -/
theorem acceptRow_of_accept {s u t : State} {r : Request} (hp : u.seq.phase = .idle) (hc : u.cfg = s.cfg)
    (hr : u.responses = s.responses) (h : accept r.op r.args u = .next t) : acceptRow s u t r := by
  refine ⟨accept_idle_requests hp h, ?_⟩
  rw [← hc, ← hr]
  rcases accept_idle_cases hp h with ⟨_, rfl, hno, rfl⟩ | ⟨hok, hd, ha, rfl⟩ | ⟨init, hok, -, ha, rfl⟩ | ⟨hok, hd, rfl⟩
  · exact .inl ⟨hno, rfl, rfl⟩
  · exact .inr (.inl ⟨hok, hd, ha, rfl, rfl⟩)
  · exact .inr (.inr ⟨hok, fun _ => by simp [ha], rfl, rfl, rfl⟩)
  · exact .inr (.inr ⟨hok, fun h => by simp [hd] at h, rfl, rfl, rfl⟩)

end Sys2Proof.Machine

namespace Sys2Proof.Safety

open Sys2Proof.Machine

/-- Settles O16: the row's register is written, and the row is the table's transaction. -/
theorem preambleFollowsTable : Obligations.PreambleFollowsTable := by
  intro s drv cnt lba op k hp hd hc hl _ hk hle
  obtain ⟨off, v, d, i, hw, hrow, hexec⟩ := preambleWrite_of_regs op hd hc hl hle
  exact ⟨i, _, hrow, hexec, step_preamble hp hk hw⟩

/-- Settles O17. -/
theorem commandWriteIssuesOpcode : Obligations.CommandWriteIssuesOpcode :=
  fun _ _ hp hk hop => ⟨_, rfl, step_command hp hk hop⟩

/-- Settles O18: the nine rows, and then the command write. -/
theorem nineWritesBeforeCommand : Obligations.NineWritesBeforeCommand := by
  intro s drv cnt lba op hp hk hd hc hl hop
  exact ⟨_, _, run_preamble op hp hk hd hc hl, rfl, rfl, step_command hp rfl hop, rfl⟩

/-- Settles O20: bit 3 of the answer decides, and an unset one leaves the sequencer as it was. -/
theorem pollWaitsForDrq : Obligations.PollWaitsForDrq := by
  intro s hp hm
  refine ⟨afterStatus s, rfl, (statusAnswer s).1, rfl, (step_poll_minimal hp hm).trans (congrArg _ ?_)⟩
  by_cases hv : drqSet (statusAnswer s).1 = true
  · rw [if_pos hv, if_pos (show (statusAnswer s).1.getLsbD 3 = true from hv)]
    rfl
  · rw [if_neg hv, if_neg (show ¬ (statusAnswer s).1.getLsbD 3 = true from hv), ← hp]
    rfl

/-- Settles O21: `hardenedPhase` is the order of R92. -/
theorem hardenedPollOrder : Obligations.HardenedPollOrder :=
  fun s _ hp hm hn => ⟨afterStatus s, rfl, _, rfl, step_poll_hardened hp hm hn⟩

/-- A `MINIMAL` poll that reads a listed byte without `DRQ` changes no register (R91). -/
theorem step_poll_listed {s : State} {v : Byte} {rest : List Byte} (hp : s.seq.phase = .cmdIssued)
    (hm : s.cfg.mode = .minimal) (hs : s.oracle.status = v :: rest) (hv : v.getLsbD 3 = false) :
    step s = .next { s with
      oracle := { s.oracle with status := rest }
      trace := .portRead8 (s.cfg.base + 7#16) v :: s.trace } := by
  have hdrq : ¬ drqSet v = true := by simpa [drqSet, Config.drqBit] using hv
  rw [step_poll_minimal hp hm, afterStatus, statusAnswer_cons hs, if_neg hdrq]
  rfl

/-- Listed status bytes without `DRQ` are read one by one and change no register (R94). -/
theorem run_poll_listed {s : State} {vs rest : List Byte} (hp : s.seq.phase = .cmdIssued)
    (hm : s.cfg.mode = .minimal) (hs : s.oracle.status = vs ++ rest) (hv : ∀ v ∈ vs, v.getLsbD 3 = false) :
    run vs.length s = .next { s with
      oracle := { s.oracle with status := rest }
      trace := (vs.map (BusEvent.portRead8 (s.cfg.base + 7#16))).reverse ++ s.trace } := by
  induction vs generalizing s with
  | nil =>
    rw [List.nil_append] at hs
    subst hs
    rfl
  | cons v vs ih =>
    rw [List.forall_mem_cons] at hv
    rw [List.length_cons, run_succ (step_poll_listed hp hm hs hv.1)]
    refine Eq.trans (ih hp hm rfl hv.2) ?_
    simp

/-- Settles O22, by the bytes read; the device's answers are listed, so it does not matter which device it is. -/
theorem noDrqNoProgress : Obligations.NoDrqNoProgress := by
  intro n s vs rest hp hm _ hs hlen hv
  subst hlen
  exact run_poll_listed hp hm hs hv

/-- Settles O38, row by row of R95. -/
theorem stepFollowsTransitionTable : Obligations.StepFollowsTransitionTable := by
  intro s t _ h
  cases step_cases h with
  | wait hp hr ht =>
    simp only [transitionRow, hp]
    exact ⟨ht ▸ rfl, .inl ⟨hr, ht⟩⟩
  | request r u hp hc ht =>
    simp only [transitionRow, hp]
    obtain ⟨k, o, -, hk, rfl⟩ := chooseRequest_some hc
    exact ⟨(accept_frame ht).1, .inr ⟨k, r, _, hk, hc, rfl, acceptRow_of_accept hp rfl rfl ht⟩⟩
  | preamble k off v d hp hk hw ht =>
    simp only [transitionRow, hp]
    subst ht
    refine ⟨rfl, k, _, hk, hw.rowEvent_eq, rfl, ?_⟩
    rw [if_neg (by have := hw.le_eight; omega)]
    exact ⟨hp, rfl⟩
  | command op hp hk hop ht =>
    simp only [transitionRow, hp]
    subst ht
    refine ⟨rfl, 9, _, hk, ?_, rfl, rfl⟩
    rw [rowEvent, hop]
    rfl
  | pollMinimal hp hm ht =>
    obtain ⟨u, hu, v, hv, hstep⟩ := pollWaitsForDrq s hp hm
    obtain rfl := Host.Outcome.next.inj (hstep.symm.trans h)
    obtain rfl := Host.Outcome.next.inj hu
    simp only [transitionRow, hp, hm]
    exact ⟨rfl, v, hv, rfl⟩
  | pollHardened n hp hm hn ht =>
    simp only [transitionRow, hp, hm]
    subst ht
    exact ⟨rfl, _, rfl, n, hn, rfl, rfl⟩
  | dataRead cnt i buf b1 b2 hp hd hc hi hlt hb h1 h2 ht =>
    simp only [transitionRow, hp]
    subst ht
    refine ⟨cnt, i, b2.bytes, hc, hi, hlt, afterWord_widx _ _ _ _,
      .inl ⟨hd, (dataAnswer s).1, b2, ?_, afterWord_buf _ _ _ _, rfl⟩, afterWord_ready (by exact hp) i cnt b2.bytes⟩
    rw [afterWord_trace, ← portAddr_zero]
    rfl
  | dataWrite cnt i buf lo hi hp hd hc hi' hlt hb h1 h2 ht =>
    simp only [transitionRow, hp]
    subst ht
    obtain ⟨-, rfl⟩ := Buffer.read_eq_some h1
    obtain ⟨hlen, rfl⟩ := Buffer.read_eq_some h2
    refine ⟨cnt, i, [], hc, hi', hlt, afterWord_widx _ _ _ _, .inr ⟨hd, buf, hb, hlen, rfl, ?_⟩,
      afterWord_ready (by exact hp) i cnt []⟩
    rw [afterWord_trace, ← portAddr_zero]
    rfl
  | errorStep n hp hm hn ht =>
    simp only [transitionRow, hp]
    subst ht
    exact ⟨hm, _, retryOrRaise_trace _ _ _ _, retryRow_retryOrRaise hn (by exact rfl) _ _⟩
  | timeoutStep n hp hm hn ht =>
    simp only [transitionRow, hp]
    subst ht
    exact ⟨hm, retryOrRaise_trace _ _ _ _, retryRow_retryOrRaise hn (by exact rfl) _ _⟩

end Sys2Proof.Safety

/-! Whole requests in `MINIMAL` (R96): the ten register writes, the poll, the data words, and the response. -/

namespace Sys2Proof.Machine

/-- The first bytes of a buffer, read one by one. -/
theorem Buffer.bytes_take {b : Buffer} {n : Nat} (h : n ≤ b.len) : b.bytes.take n = (List.range n).map b.mem.read := by
  rw [Buffer.bytes, ← List.map_take, List.take_range, min_eq_left h]

/-- A word stored at its place extends the bytes stored so far, low byte first (R99). -/
theorem Buffer.bytes_take_write_word {b b1 b2 : Buffer} {i : Nat} {lo hi : Byte} (hb : b.wf)
    (h1 : b.write (2 * i) lo = some b1) (h2 : b1.write (2 * i + 1) hi = some b2) :
    b2.bytes.take (2 * (i + 1)) = b.bytes.take (2 * i) ++ [lo, hi] := by
  have hb1 := Buffer.write_wf hb h1
  obtain ⟨hlo, rfl⟩ := Buffer.write_eq_some h1
  obtain ⟨hhi, rfl⟩ := Buffer.write_eq_some h2
  have hread : ∀ a, ((b.mem.write (2 * i) lo).write (2 * i + 1) hi).read a =
      if a = 2 * i + 1 then hi else if a = 2 * i then lo else b.mem.read a := fun a => by
    rw [Memory.read_write hb1.1, Memory.read_write hb.1]
  have hold : (List.range (2 * i)).map ((b.mem.write (2 * i) lo).write (2 * i + 1) hi).read =
      (List.range (2 * i)).map b.mem.read := by
    refine List.map_congr_left fun a ha => ?_
    have hlt := List.mem_range.1 ha
    rw [hread, if_neg (by omega), if_neg (by omega)]
  rw [Buffer.bytes_take (by exact hhi), Buffer.bytes_take hlo.le, Nat.mul_succ, List.range_succ, List.range_succ,
    List.map_append, List.map_append, hold]
  simp [hread]

/-- The bytes of a buffer from word `i` on (R104). -/
theorem Buffer.bytes_drop_word {b : Buffer} {i : Nat} (h : 2 * i + 1 < b.len) :
    b.bytes.drop (2 * i) = b.mem.read (2 * i) :: b.mem.read (2 * i + 1) :: b.bytes.drop (2 * (i + 1)) := by
  have hlen := b.bytes_length
  rw [List.drop_eq_getElem_cons (by omega), List.drop_eq_getElem_cons (i := 2 * i + 1) (by omega),
    Buffer.bytes_getElem, Buffer.bytes_getElem]
  rfl

end Sys2Proof.Machine

namespace Sys2Proof.Safety

open Sys2Proof.Machine

/-- `n` steps from `s` end its request with `OK` and `payload`, by way of the port transactions `events`, oldest first. -/
def EndsOk (n : Nat) (s : State) (payload : List Byte) (events : List BusEvent) : Prop :=
  ∃ t, run n s = .next t ∧ t.seq.phase = .idle ∧ t.responses = s.responses ++ [⟨.ok, 0#8, payload⟩] ∧
    t.trace = events.reverse ++ s.trace

/-- Steps without a response come before the end of a request. -/
theorem EndsOk.after {m n : Nat} {s u : State} {payload : List Byte} {earlier later : List BusEvent}
    (hrun : run m s = .next u) (hresp : u.responses = s.responses) (htrace : u.trace = earlier.reverse ++ s.trace)
    (h : EndsOk n u payload later) : EndsOk (m + n) s payload (earlier ++ later) := by
  obtain ⟨t, ht, hp, hr, he⟩ := h
  refine ⟨t, run_trans hrun ht, hp, hresp ▸ hr, ?_⟩
  rw [he, htrace, List.reverse_append, List.append_assoc]

/-! The ten register writes and the poll. -/

/-- The ten register writes of an attempt, from any register file (R79, R89). -/
theorem run_command {s : State} {d : Dir} {drv : Bool} {cnt : CountWord} {lba : LbaWord} {op : Byte}
    (hp : s.seq.phase = .preamble) (hk : s.seq.pstep = some 0) (hd : s.seq.drv = some drv)
    (hc : s.seq.cnt = some cnt) (hl : s.seq.lba = some lba) (hop : s.seq.op = some op)
    (hdir : dirOf s.cfg op = some d) :
    run 10 s = .next { s with
      seq := { s.seq with
        pstep := some 9
        phase := .cmdIssued
        polls := if s.cfg.mode = .hardened then some 0 else s.seq.polls }
      dev := (s.dev.preambleDone s.cfg drv cnt lba).takeCommand s.cfg s.oracle.draws op
      trace := (preambleWrites s.cfg drv cnt lba op).reverse ++ s.trace } := by
  have hlatch : latchStated s.cfg op = true := by simp [latchStated, hdir]
  refine (run_trans (n := 1) (run_preamble op hp hk hd hc hl) (run_succ (step_command hp rfl hop))).trans ?_
  rw [afterCommand, if_pos (by exact hlatch)]
  rfl

/-- A `MINIMAL` poll reads status bytes up to the first with `DRQ` (R91). -/
theorem run_poll_to_ready {s : State} {bs rest : List Byte} {b : Byte} (hp : s.seq.phase = .cmdIssued)
    (hm : s.cfg.mode = .minimal) (hs : s.oracle.status = bs ++ b :: rest) (hbs : ∀ v ∈ bs, v.getLsbD 3 = false)
    (hb : b.getLsbD 3 = true) :
    run (bs.length + 1) s = .next { s with
      seq := { s.seq with phase := .ready }
      oracle := { s.oracle with status := rest }
      trace := ((bs ++ [b]).map (BusEvent.portRead8 (s.cfg.base + 7#16))).reverse ++ s.trace } := by
  have hdrq : drqSet b = true := hb
  refine (run_trans (n := 1) (run_poll_listed hp hm hs hbs) (run_succ (step_poll_minimal hp hm))).trans ?_
  rw [afterStatus, statusAnswer_cons (v := b) (t := rest) rfl, if_pos hdrq]
  simp [State.setPhase, State.withSeq, portRead8, State.withOracle, State.emit, portAddr]

/-- From an accepted request to its first data word in `MINIMAL`: the first two groups of R96. -/
theorem run_accepted_to_ready {s : State} {op : Byte} {d : Dir} {bs rest : List Byte} {b : Byte} (a : ReqArgs)
    (buf : Buffer) (hm : s.cfg.mode = .minimal) (hdir : dirOf s.cfg op = some d)
    (hs : s.oracle.status = bs ++ b :: rest) (hbs : ∀ v ∈ bs, v.getLsbD 3 = false) (hb : b.getLsbD 3 = true) :
    ∃ dev, (s.dev.disks = none → dev.disks = none) ∧
      run (10 + (bs.length + 1)) (acceptedState s op d a buf) = .next { s with
        seq := { (acceptedState s op d a buf).seq with pstep := some 9, phase := .ready }
        dev := dev
        oracle := { s.oracle with status := rest }
        trace := (preambleWrites s.cfg a.drive a.count a.lba op ++
          (bs ++ [b]).map (BusEvent.portRead8 (s.cfg.base + 7#16))).reverse ++ s.trace } := by
  have hno : s.cfg.mode ≠ .hardened := by simp [hm]
  refine ⟨(s.dev.preambleDone s.cfg a.drive a.count a.lba).takeCommand s.cfg s.oracle.draws op,
    fun hn => (Device.takeCommand_disks _ _ _ _).elim (·.trans hn) id, ?_⟩
  refine (run_trans (run_command (s := acceptedState s op d a buf) rfl rfl rfl rfl rfl rfl hdir)
    (run_poll_to_ready (by rfl) hm hs hbs hb)).trans ?_
  simp [acceptedState, hno]

/-! The data words. -/

/-- `s` is at data word `i` of a transfer in direction `d`, with the well-formed buffer of its count (R99, R104). -/
structure AtWord (s : State) (d : Dir) (cnt : CountWord) (i : Nat) (buf : Buffer) : Prop where
  phaseReg : s.seq.phase = .ready
  dirReg : s.seq.dir = some d
  cntReg : s.seq.cnt = some cnt
  widxReg : s.seq.widx = some i
  bufReg : s.seq.buf = some buf
  bufLen : buf.len = nb cnt
  bufWf : buf.wf

/-- Both bytes of the next word are inside the buffer (R39). -/
theorem AtWord.inside {s : State} {d : Dir} {cnt : CountWord} {i : Nat} {buf : Buffer} (h : AtWord s d cnt i buf)
    (hlt : i < nw cnt) : 2 * i + 1 < buf.len := by
  have := h.bufLen.trans (nb_eq cnt)
  omega

/-- The step of data word `i`: one event `e`, after which `BUF` is `b` and the word is done. `u` is the state between. -/
structure WordStep (s u : State) (cnt : CountWord) (i : Nat) (b : Buffer) (payload : List Byte) (e : BusEvent) :
    Prop where
  goesOn : step s = .next (afterWord u i cnt payload)
  cfg : u.cfg = s.cfg
  seq : u.seq = { s.seq with buf := some b }
  responses : u.responses = s.responses
  trace : u.trace = e :: s.trace

section
variable {s u : State} {cnt : CountWord} {i : Nat} {b : Buffer} {payload : List Byte} {e : BusEvent}
  (h : WordStep s u cnt i b payload e)
include h

/-- The last word ends the request. -/
theorem WordStep.last (hlast : i + 1 = nw cnt) : EndsOk 1 s payload [e] := by
  refine ⟨_, run_succ h.goesOn, ?_⟩
  rw [afterWord, if_pos hlast]
  exact ⟨rfl, congrArg (· ++ _) h.responses, h.trace⟩

variable (hmore : i + 1 ≠ nw cnt)
include hmore

/-- Any other word leads to the next. -/
theorem WordStep.next {d : Dir} {buf : Buffer} (hs : AtWord s d cnt i buf) (hlen : b.len = buf.len) (hb : b.wf) :
    AtWord (afterWord u i cnt payload) d cnt (i + 1) b := by
  rw [afterWord, if_neg hmore, h.seq]
  exact ⟨hs.phaseReg, hs.dirReg, hs.cntReg, rfl, rfl, hlen.trans hs.bufLen, hb⟩

/-- Any other word leaves the end of the request to the words after it. -/
theorem WordStep.cons {n : Nat} {p : List Byte} {es : List BusEvent} (hn : EndsOk n (afterWord u i cnt payload) p es) :
    EndsOk (n + 1) s p (e :: es) := by
  rw [Nat.add_comm]
  refine hn.after (earlier := [e]) (run_succ h.goesOn) ?_ ?_
  · rw [afterWord, if_neg hmore]
    exact h.responses
  · rw [afterWord_trace]
    exact h.trace

end

section
variable {s : State} {cnt : CountWord} {i : Nat} {buf : Buffer}

/-- A data read stores its word behind those stored so far (R99). -/
theorem AtWord.wordStep_read {w : DataWord} {rest : List DataWord} (h : AtWord s .rd cnt i buf) (hlt : i < nw cnt)
    (hdev : s.dev.disks = none) (hw : s.oracle.data = w :: rest) :
    ∃ b u, WordStep s u cnt i b b.bytes (.portRead16 s.cfg.base w) ∧ u.dev.disks = none ∧ u.oracle.data = rest ∧
      b.len = buf.len ∧ b.wf ∧ b.bytes.take (2 * (i + 1)) = buf.bytes.take (2 * i) ++ streamBytes [w] := by
  have hans : dataAnswer s = (w, { s.oracle with data := rest }) := (dataAnswer_general hdev).trans (drawData_cons hw)
  obtain ⟨b1, b2, h1, h2⟩ := Buffer.write_word_of_lt (h.inside hlt) (lane0 w) (lane1 w)
  have hstep := step_dataRead h.phaseReg h.dirReg h.cntReg h.widxReg hlt h.bufReg (by rw [hans]; exact h1)
    (by rw [hans]; exact h2)
  refine ⟨b2, _, ⟨hstep, rfl, rfl, rfl, ?_⟩, (Device.nextWord_disks _).trans hdev, ?_, ?_,
    Buffer.write_wf (Buffer.write_wf h.bufWf h1) h2, Buffer.bytes_take_write_word h.bufWf h1 h2⟩
  · simp [afterDataRead, hans]
  · simp [afterDataRead, hans]
  · rw [(Buffer.write_eq_some h2).2, (Buffer.write_eq_some h1).2]

/-- A data write sends the next word of the buffer and keeps the buffer (R104). -/
theorem AtWord.wordStep_write (h : AtWord s .wr cnt i buf) (hlt : i < nw cnt) :
    ∃ u, WordStep s u cnt i buf [] (.portWrite16 s.cfg.base (buf.mem.read (2 * i + 1) ++ buf.mem.read (2 * i))) := by
  have hin := h.inside hlt
  have hseq : s.seq = { s.seq with buf := some buf } := by rw [← h.bufReg]
  have hstep := step_dataWrite h.phaseReg h.dirReg h.cntReg h.widxReg hlt h.bufReg
    (Buffer.read_of_lt (Nat.lt_of_succ_lt hin)) (Buffer.read_of_lt hin)
  exact ⟨_, hstep, rfl, hseq, rfl, by simp [afterDataWrite, joinLanes]⟩

/-- The data reads of a transfer, from word `i` on, end it with the bytes stored before and the words' bytes (R99). -/
theorem AtWord.endsOk_read {ws rest : List DataWord} (h : AtWord s .rd cnt i buf) (hlt : i < nw cnt)
    (hdev : s.dev.disks = none) (hdata : s.oracle.data = ws ++ rest) (hlen : i + ws.length = nw cnt) :
    EndsOk ws.length s (buf.bytes.take (2 * i) ++ streamBytes ws) (ws.map (BusEvent.portRead16 s.cfg.base)) := by
  induction ws generalizing s i buf with
  | nil => exact absurd hlen (Nat.ne_of_lt hlt)
  | cons w ws ih =>
    obtain ⟨b, u, hstep, hudev, hudata, hblen, hbwf, htake⟩ := h.wordStep_read hlt hdev hdata
    have hsplit : streamBytes (w :: ws) = streamBytes [w] ++ streamBytes ws := List.flatMap_append (xs := [w])
    rw [List.length_cons] at hlen ⊢
    rw [hsplit, ← List.append_assoc, ← htake]
    by_cases hlast : i + 1 = nw cnt
    · obtain rfl : ws = [] := List.length_eq_zero_iff.1 (by omega)
      have hall : b.bytes.take (2 * (i + 1)) = b.bytes := by
        refine List.take_of_length_le ?_
        rw [Buffer.bytes_length, hblen, h.bufLen, nb_eq, hlast]
      rw [hall, show streamBytes [] = [] from rfl, List.append_nil]
      exact hstep.last hlast
    · have hnext := ih (hstep.next hlast h hblen hbwf) (by omega) ?_ ?_ (by omega)
      · rw [afterWord_cfg, hstep.cfg] at hnext
        exact hstep.cons hlast hnext
      · rw [afterWord, if_neg hlast]
        exact hudev
      · rw [afterWord, if_neg hlast]
        exact hudata

/-- The data writes of a transfer, from word `i` on, send the rest of the buffer as words (R104). -/
theorem AtWord.endsOk_write {n : Nat} (h : AtWord s .wr cnt i buf) (hlt : i < nw cnt) (hn : i + n = nw cnt) :
    EndsOk n s [] ((streamWords (buf.bytes.drop (2 * i))).map (BusEvent.portWrite16 s.cfg.base)) := by
  induction n generalizing s i with
  | zero => exact absurd hn (Nat.ne_of_lt hlt)
  | succ n ih =>
    obtain ⟨u, hstep⟩ := h.wordStep_write hlt
    rw [Buffer.bytes_drop_word (h.inside hlt), streamWords, List.map_cons]
    by_cases hlast : i + 1 = nw cnt
    · obtain rfl : n = 0 := by omega
      have hnone : buf.bytes.drop (2 * (i + 1)) = [] := by
        refine List.drop_of_length_le ?_
        rw [Buffer.bytes_length, h.bufLen, nb_eq, hlast]
      rw [hnone]
      exact hstep.last hlast
    · have hnext := ih (hstep.next hlast h rfl h.bufWf) (by omega) (by omega)
      rw [afterWord_cfg, hstep.cfg] at hnext
      exact hstep.cons hlast hnext

end

section
variable {s : State} {cnt : CountWord} {buf : Buffer} (hcnt : 1 ≤ cnt.toNat)
include hcnt

/-- The data reads of a whole transfer end it with the words' bytes (R99). -/
theorem AtWord.endsOk_read_all {ws rest : List DataWord} (h : AtWord s .rd cnt 0 buf) (hdev : s.dev.disks = none)
    (hdata : s.oracle.data = ws ++ rest) (hlen : ws.length = nw cnt) :
    EndsOk (nw cnt) s (streamBytes ws) (ws.map (BusEvent.portRead16 s.cfg.base)) := by
  rw [← hlen]
  exact h.endsOk_read (Nat.mul_pos hcnt (by decide)) hdev hdata ((Nat.zero_add _).trans hlen)

/-- The data writes of a whole transfer send the buffer as words (R104). -/
theorem AtWord.endsOk_write_all {bs : List Byte} (h : AtWord s .wr cnt 0 buf) (hbs : buf.bytes = bs) :
    EndsOk (nw cnt) s [] ((streamWords bs).map (BusEvent.portWrite16 s.cfg.base)) := by
  subst hbs
  exact h.endsOk_write (Nat.mul_pos hcnt (by decide)) (Nat.zero_add _)

end

/-- Settles O47: acceptance, the first two groups of R96, and the data reads into the allocated buffer. -/
theorem minimalReadRunsToResponse : Obligations.MinimalReadRunsToResponse := by
  intro s r init allocs bs b rest ws rest' _ hm hp hdev hr hck hdir ha hs hbs hb hdata hlen
  obtain ⟨_, _, hcnt, -⟩ := check_ok hck
  have hstep := (step_idle_request hp (chooseRequest_single hr)).trans
    (accept_read (s := s.withRequests []) hp hck hdir ha)
  obtain ⟨dev, hnone, hready⟩ := run_accepted_to_ready
    (s := { s.withRequests [] with oracle := { s.oracle with alloc := allocs } }) r.args
    (Buffer.ofBytes (nb r.args.count) init) hm hdir hs hbs hb
  rw [Nat.add_assoc 1]
  exact EndsOk.after (run_trans (m := 1) (run_succ hstep) hready) rfl rfl
    (AtWord.endsOk_read_all hcnt ⟨rfl, rfl, rfl, rfl, rfl, rfl, Buffer.ofBytes_wf _ _⟩ (hnone hdev) hdata hlen)

/-- Settles O48: acceptance, the first two groups of R96, and the data writes out of the copy of the data. -/
theorem minimalWriteRunsToResponse : Obligations.MinimalWriteRunsToResponse := by
  intro s r bs b rest _ hm hp _ hr hck hdir hs hbs hb
  obtain ⟨d, hd, hcnt, -, -, hlen, -⟩ := check_ok hck
  have hcopy := Buffer.bytes_ofBytes (hlen (Option.some.inj (hd.symm.trans hdir)))
  have hstep := (step_idle_request hp (chooseRequest_single hr)).trans
    (accept_write (s := s.withRequests []) hp hck hdir)
  obtain ⟨dev, -, hready⟩ := run_accepted_to_ready (s := s.withRequests []) r.args
    (Buffer.ofBytes (nb r.args.count) r.args.data) hm hdir hs hbs hb
  rw [Nat.add_assoc 1]
  exact EndsOk.after (run_trans (m := 1) (run_succ hstep) hready) rfl rfl
    (AtWord.endsOk_write_all hcnt ⟨rfl, rfl, rfl, rfl, rfl, rfl, Buffer.ofBytes_wf _ _⟩ hcopy)

end Sys2Proof.Safety

/-! The statements about reads (41_read_sectors.md): what a data word leaves in the state, and where a
read's word goes. -/

namespace Sys2Proof.Machine

/-- A word stored at its place: its two bytes, and every other byte as before (R44, R99). -/
theorem Buffer.read_write_word {b b1 b2 : Buffer} {i : Nat} {lo hi : Byte} (hb : b.wf)
    (h1 : b.write (2 * i) lo = some b1) (h2 : b1.write (2 * i + 1) hi = some b2) (a : Nat) :
    b2.mem.read a = if a = 2 * i then lo else if a = 2 * i + 1 then hi else b.mem.read a := by
  have hb1 := Buffer.write_wf hb h1
  obtain ⟨-, rfl⟩ := Buffer.write_eq_some h1
  obtain ⟨-, rfl⟩ := Buffer.write_eq_some h2
  rw [Memory.read_write hb1.1, Memory.read_write hb.1]
  by_cases hlo : a = 2 * i
  · rw [if_pos hlo, if_pos hlo, if_neg (by omega)]
  · rw [if_neg hlo, if_neg hlo]

/-- What a data word changes beside the transfer itself: `WIDX`, and at the last word `PHASE` and the responses. -/
theorem afterWord_eq {s : State} (hp : s.seq.phase = .ready) (i : Nat) (cnt : CountWord) (payload : List Byte) :
    afterWord s i cnt payload = { s with
      seq := { s.seq with
        widx := some (i + 1)
        phase := if i + 1 = nw cnt then .idle else .ready }
      responses := if i + 1 = nw cnt then s.responses ++ [⟨.ok, 0#8, payload⟩] else s.responses } := by
  rcases afterWord_cases s i cnt payload with ⟨hlast, h⟩ | ⟨hmore, h⟩
  · rw [h, if_pos hlast, if_pos hlast]
    rfl
  · rw [h, if_neg hmore, if_neg hmore, ← hp]
    rfl

end Sys2Proof.Machine

namespace Sys2Proof.Safety

open Sys2Proof.Machine

/-- In `READY` the invariant places the sequencer at a word that is still to come (R18, R21). -/
theorem Inv.atWord {s : State} {d : Dir} {cnt : CountWord} {i : Nat} {buf : Buffer} (h : Inv s)
    (hp : s.seq.phase = .ready) (hd : s.seq.dir = some d) (hc : s.seq.cnt = some cnt) (hi : s.seq.widx = some i)
    (hb : s.seq.buf = some buf) : AtWord s d cnt i buf ∧ i < nw cnt := by
  obtain ⟨⟨_, _, _, _, cnt', buf', hq⟩, i', cnt'', hi', hc', hlt⟩ := (phaseOk_ready hp).1 h.phase
  obtain rfl : i = i' := Option.some.inj (hi.symm.trans hi')
  obtain rfl : cnt = cnt' := Option.some.inj (hc.symm.trans hq.cntReg)
  obtain rfl : cnt = cnt'' := Option.some.inj (hc.symm.trans hc')
  obtain rfl : buf = buf' := Option.some.inj (hb.symm.trans hq.bufReg)
  exact ⟨⟨hp, hd, hc, hi, hb, hq.bufLen, h.bufWf buf hb⟩, hlt⟩

/-- Settles O23: by the invariant both bytes of the word are inside the buffer, so the read stores them and
ends the word. -/
theorem readWordFillsBuffer : Obligations.ReadWordFillsBuffer := by
  intro s cnt i buf hinv hp hd hc hi hb
  obtain ⟨hat, hlt⟩ := hinv.atWord hp hd hc hi hb
  obtain ⟨b1, b2, h1, h2⟩ := Buffer.write_word_of_lt (hat.inside hlt)
    (lane0 (dataAnswer s).1) (lane1 (dataAnswer s).1)
  have hlen : b2.len = buf.len := by rw [(Buffer.write_eq_some h2).2, (Buffer.write_eq_some h1).2]
  have hstep := (step_dataRead hp hd hc hi hlt hb h1 h2).trans (congrArg _ (afterWord_eq (by exact hp) i cnt b2.bytes))
  refine ⟨afterDataRead s, rfl, (dataAnswer s).1, b2, ?_, hlen, Buffer.read_write_word hat.bufWf h1 h2, hstep⟩
  simp [afterDataRead]

end Sys2Proof.Safety

/-! The statements about writes (42_write_sectors.md): where a write's word comes from. -/

namespace Sys2Proof.Safety

open Sys2Proof.Machine

/-- Settles O24: by the invariant both bytes of the word are inside the buffer, so the write sends them, high
byte first, and ends the word. -/
theorem writeWordSendsBuffer : Obligations.WriteWordSendsBuffer := by
  intro s cnt i buf hinv hp hd hc hi hb
  obtain ⟨hat, hlt⟩ := hinv.atWord hp hd hc hi hb
  have hin := hat.inside hlt
  have hstep := step_dataWrite hp hd hc hi hlt hb (Buffer.read_of_lt (Nat.lt_of_succ_lt hin)) (Buffer.read_of_lt hin)
  exact ⟨afterDataWrite s _, rfl, hstep.trans (congrArg _ (afterWord_eq (by exact hp) i cnt []))⟩

end Sys2Proof.Safety

/-! The statements about the device's ports (43_device_ports.md): what each transaction does to the register file and to
the stream, what a command latches, the reference device, and its round trip. -/

namespace Sys2Proof.Machine

/-! What a read transaction does, in terms of the device's answer (R114, R115, R117). -/

theorem exec_in8Status_of_answer {s : State} {v : Byte} {o : Oracle} (h : statusAnswer s = (v, o)) :
    exec .in8Status s = .next { s with oracle := o, trace := .portRead8 (s.cfg.base + 7#16) v :: s.trace } :=
  congrArg (fun ans => Host.Outcome.next (portRead8 s 7#3 ans)) h

theorem exec_in8Error_of_answer {s : State} {v : Byte} {o : Oracle} (h : errorAnswer s = (v, o)) :
    exec .in8Error s = .next { s with
      oracle := o, trace := .portRead8 (s.cfg.base + s.cfg.errRegOff.setWidth 16) v :: s.trace } :=
  congrArg (fun ans => Host.Outcome.next (portRead8 s s.cfg.errRegOff ans)) h

theorem afterDataRead_of_answer {s : State} {w : DataWord} {o : Oracle} (h : dataAnswer s = (w, o)) :
    afterDataRead s =
      { s with dev := s.dev.nextWord, oracle := o, trace := .portRead16 s.cfg.base w :: s.trace } := by
  rw [afterDataRead, h, portAddr_zero]
  rfl

theorem exec_in16Data (s : State) : exec .in16Data s = .next (afterDataRead s) := rfl

theorem afterDataWrite_eq (s : State) (w : DataWord) :
    afterDataWrite s w =
      { s with dev := s.dev.takeWord s.cfg w, trace := .portWrite16 s.cfg.base w :: s.trace } := by
  rw [afterDataWrite, portAddr_zero]
  rfl

theorem exec_out16Data (s : State) (w : DataWord) : exec (.out16Data w) s = .next (afterDataWrite s w) := rfl

/-! The general device's stream (R115, R116, log 23). -/

theorem Device.nextWord_general {d : Device} (h : d.disks = none) : d.nextWord = { d with pos := d.pos + 1 } := by
  rw [Device.nextWord, h]

theorem Device.takeWord_general {d : Device} (h : d.disks = none) (c : Config) (w : DataWord) :
    d.takeWord c w = { d with pos := d.pos + 1 } := by
  have hnone : referenceStream c .wr d = none := by rw [referenceStream, h]
  have hsame : { d with disks := none } = d := by rw [← h]
  rw [Device.takeWord, hnone, hsame, Device.nextWord_general h]

/-! The latched command (R113). -/

@[simp] theorem latchedPending_op (c : Config) (n : Nat) (d : Device) (op : Byte) :
    (latchedPending c n d op).op = op := by
  unfold latchedPending
  split_ifs <;> rfl

@[simp] theorem latchedPending_drive (c : Config) (n : Nat) (d : Device) (op : Byte) :
    (latchedPending c n d op).drive = selectedDrive c d := by
  unfold latchedPending
  split_ifs <;> rfl

/-- A 48-bit command latches both entries of each FIFO (R27). -/
theorem latchedPending_ext {op : Byte} (h : op = Config.opcReadExt ∨ op = Config.opcWriteExt) (c : Config) (n : Nat)
    (d : Device) : latchedPending c n d op = ⟨op, selectedDrive c d, latchedLba48 d, latchedCount48 d⟩ := if_pos h

/-- A 28-bit command latches the newer entry of each FIFO and the low nibble of `DRVHEAD` (R72, D37). -/
theorem latchedPending_28 {c : Config} {op : Byte} (hc : c.Legal) (h : is28 c op = true) (n : Nat) (d : Device) :
    latchedPending c n d op = ⟨op, selectedDrive c d, latchedLba28 d, latchedCount28 d⟩ := by
  obtain ⟨hread, hwrite⟩ := is28_ext hc
  have hno : ¬ (op = Config.opcReadExt ∨ op = Config.opcWriteExt) := by
    rintro (rfl | rfl)
    · simp [hread] at h
    · simp [hwrite] at h
  rw [latchedPending, if_neg hno, if_pos h]

theorem is28_iff {c : Config} {op : Byte} :
    is28 c op = true ↔ c.legacy28 = true ∧ (op = c.opcRead28 ∨ op = c.opcWrite28) := by
  simp [is28]

/-- R113 says what the opcodes of R64 latch. -/
theorem latchStated_of_ext {op : Byte} (h : op = Config.opcReadExt ∨ op = Config.opcWriteExt) {c : Config}
    (hc : c.Legal) : latchStated c op = true := by
  obtain ⟨hread, hwrite, -⟩ := dirOf_opcodes hc
  rcases h with rfl | rfl
  · simp [latchStated, hread]
  · simp [latchStated, hwrite]

theorem latchStated_of_28 {c : Config} {op : Byte} (hc : c.Legal) (h : is28 c op = true) :
    latchStated c op = true := by
  obtain ⟨hl, ho⟩ := is28_iff.1 h
  obtain ⟨hread, hwrite⟩ := (dirOf_opcodes hc).2.2 hl
  rcases ho with rfl | rfl
  · simp [latchStated, hread]
  · simp [latchStated, hwrite]

theorem referenceCovers_iff {c : Config} {p : Pending} :
    referenceCovers c p = true ↔
      dirOf c p.op ≠ none ∧ p.count ≠ 0 ∧ p.lba.toNat + p.count ≤ capacity c p.drive := by
  simp [referenceCovers, Option.isSome_iff_ne_none, and_assoc]

/-- A command inside what the spec defines keeps the reference device's disks (R121). -/
theorem Device.takeCommand_disks_covered {c : Config} {n : Nat} {d : Device} {op : Byte}
    (h : referenceCovers c (latchedPending c n d op) = true) : (d.takeCommand c n op).disks = d.disks := if_pos h

end Sys2Proof.Machine

namespace Sys2Proof.Safety

open Sys2Proof.Machine

/-- Settles O10: each write is its own field's shift and one event. -/
theorem fieldWritesShiftFifos : Obligations.FieldWritesShiftFifos :=
  fun _ _ => ⟨rfl, rfl, rfl, rfl⟩

/-- Settles O11: the write is the register itself, whose drive bit is the selected drive. -/
theorem driveHeadWriteSelects : Obligations.DriveHeadWriteSelects :=
  fun _ _ => ⟨rfl, rfl⟩

/-- Settles O12: by the opcode's command set, and by whether the reference device covers the command. -/
theorem commandWriteLatches : Obligations.CommandWriteLatches := by
  intro s op hc
  refine ⟨_, latchedPending s.cfg s.oracle.draws s.dev op, rfl, rfl, rfl, Device.takeCommand_disks _ _ _ _, ?_,
    latchedPending_op _ _ _ _, latchedPending_drive _ _ _ _, fun hext => ?_, fun h28 => ?_⟩
  · intro hdir hcount hcap
    exact Device.takeCommand_disks_covered (referenceCovers_iff.2 ⟨by rwa [latchedPending_op], hcount, hcap⟩)
  · rw [latchedPending_ext hext]
    exact ⟨rfl, rfl, if_pos (latchStated_of_ext hext hc)⟩
  · have h := is28_iff.2 h28
    rw [latchedPending_28 hc h]
    exact ⟨rfl, rfl, if_pos (latchStated_of_28 hc h)⟩

/-- Settles O13: a read is the device's answer, the listed one while there is one. -/
theorem statusAndErrorReadsAnswer : Obligations.StatusAndErrorReadsAnswer := fun _ =>
  ⟨fun _ _ _ hs => exec_in8Status_of_answer (statusAnswer_cons hs), ⟨_, _, exec_in8Status_of_answer rfl⟩,
    fun _ _ he => exec_in8Error_of_answer (drawError_cons he), ⟨_, _, exec_in8Error_of_answer rfl⟩⟩

/-- Settles O14: the general device answers with a draw, and every data access moves its stream by one word. -/
theorem dataAccessesMoveStream : Obligations.DataAccessesMoveStream := by
  intro s hdev
  have hread : ∀ {w o}, s.oracle.drawData = (w, o) → exec .in16Data s = .next { s with
      dev := { s.dev with pos := s.dev.pos + 1 }, oracle := o, trace := .portRead16 s.cfg.base w :: s.trace } := by
    intro w o h
    rw [exec_in16Data, afterDataRead_of_answer ((dataAnswer_general hdev).trans h), Device.nextWord_general hdev]
  refine ⟨fun w rest hw => hread (drawData_cons hw), ⟨_, _, hread rfl⟩, fun w => ?_⟩
  rw [exec_out16Data, afterDataWrite_eq, Device.takeWord_general hdev]

end Sys2Proof.Safety

namespace Sys2Proof.Machine

/-! The reference device (R120, R121). -/

/-- The reference device after a word of the command `p`, with the disks `ds`: the position has moved, and the last word
clears the command. -/
def Device.streamed (d : Device) (ds : Disks) (p : Pending) : Device :=
  { d with
    disks := some ds
    pos := d.pos + 1
    pending := if d.pos + 1 = p.count * Config.wordsPerSector then none else some p }

/-- The reference device is at word `i` of the command `p`, a transfer in direction `dir`, and that word is still to
come. -/
structure Streaming (c : Config) (d : Device) (dir : Dir) (ds : Disks) (p : Pending) (i : Nat) : Prop where
  disks : d.disks = some ds
  pending : d.pending = some p
  pos : d.pos = i
  dirOf : Machine.dirOf c p.op = some dir
  left : i < p.count * Config.wordsPerSector

section
variable {c : Config} {d : Device} {dir : Dir} {ds : Disks} {p : Pending} {i : Nat} (h : Streaming c d dir ds p i)
include h

theorem Streaming.referenceStream_eq : referenceStream c dir d = some (ds, p) := by
  obtain ⟨hds, hp, rfl, hdir, hleft⟩ := h
  simp [referenceStream, hds, hp, hdir, hleft]

theorem Streaming.nextWord_eq : d.nextWord = d.streamed ds p := by
  rw [Device.nextWord, h.disks, h.pending, Device.streamed]
  by_cases hlast : d.pos + 1 = p.count * Config.wordsPerSector
  · exact (if_pos hlast).trans (by rw [if_pos hlast])
  · exact (if_neg hlast).trans (by rw [if_neg hlast])

/-- Any word but the last leads to the next. -/
theorem Streaming.next (hmore : i + 1 ≠ p.count * Config.wordsPerSector) (ds' : Disks) :
    Streaming c (d.streamed ds' p) dir ds' p (i + 1) := by
  obtain ⟨-, -, rfl, hdir, hleft⟩ := h
  exact ⟨rfl, if_neg hmore, rfl, hdir, by omega⟩

end

theorem Streaming.takeWord_eq {c : Config} {d : Device} {ds : Disks} {p : Pending} {i : Nat}
    (h : Streaming c d .wr ds p i) (w : DataWord) : d.takeWord c w = d.streamed (ds.putWord p i w) p := by
  obtain rfl := h.pos
  have hstored : Streaming c { d with disks := some (ds.putWord p d.pos w) } .wr (ds.putWord p d.pos w) p d.pos :=
    { h with disks := rfl }
  rw [Device.takeWord, h.referenceStream_eq]
  exact hstored.nextWord_eq

theorem Streaming.dataAnswer_eq {s : State} {ds : Disks} {p : Pending} {i : Nat}
    (h : Streaming s.cfg s.dev .rd ds p i) : dataAnswer s = (ds.word p i, s.oracle) := by
  rw [dataAnswer, h.referenceStream_eq, h.pos]

/-- A data write stores the next word of the stream (R121). -/
theorem Streaming.afterDataWrite_eq {s : State} {ds : Disks} {p : Pending} {i : Nat}
    (h : Streaming s.cfg s.dev .wr ds p i) (w : DataWord) :
    afterDataWrite s w =
      { s with dev := s.dev.streamed (ds.putWord p i w) p, trace := .portWrite16 s.cfg.base w :: s.trace } := by
  rw [Machine.afterDataWrite_eq, h.takeWord_eq]

/-- A data read gives the next word of the stream (R121). -/
theorem Streaming.afterDataRead_eq {s : State} {ds : Disks} {p : Pending} {i : Nat}
    (h : Streaming s.cfg s.dev .rd ds p i) :
    afterDataRead s =
      { s with dev := s.dev.streamed ds p, trace := .portRead16 s.cfg.base (ds.word p i) :: s.trace } := by
  rw [afterDataRead_of_answer h.dataAnswer_eq, h.nextWord_eq]

/-- Without a listed answer the reference device's status is its own, and no answer is used up (R121). -/
theorem statusAnswer_reference {s : State} {ds : Disks} (hd : s.dev.disks = some ds) (hs : s.oracle.status = []) :
    statusAnswer s = (referenceStatus s.dev, s.oracle) := by
  rw [statusAnswer, hs, hd]

theorem referenceStatus_left {d : Device} {p : Pending} (hp : d.pending = some p)
    (h : d.pos < p.count * Config.wordsPerSector) : referenceStatus d = 0x08#8 := by
  rw [referenceStatus, hp]
  exact if_pos h

theorem referenceStatus_done {d : Device}
    (h : d.pending = none ∨ ∃ p, d.pending = some p ∧ p.count * Config.wordsPerSector ≤ d.pos) :
    referenceStatus d = 0x00#8 := by
  rcases h with hp | ⟨p, hp, hle⟩ <;> rw [referenceStatus, hp]
  exact if_neg hle.not_gt

end Sys2Proof.Machine

namespace Sys2Proof.Safety

open Sys2Proof.Machine

/-- Settles O50: by what a word does to the streaming device, and what it does to the disks. -/
theorem referenceDeviceStoresAndStreams : Obligations.ReferenceDeviceStoresAndStreams := by
  intro s ds p hds hwf hp hlt addr left
  refine ⟨fun w hdir => ⟨ds.putWord p s.dev.pos w, ?_, Disks.read_putWord hwf p s.dev.pos w⟩, fun hdir => ?_⟩
  · have h : Streaming s.cfg s.dev .wr ds p s.dev.pos := ⟨hds, hp, rfl, hdir, hlt⟩
    exact congrArg _ (h.afterDataWrite_eq w)
  · have h : Streaming s.cfg s.dev .rd ds p s.dev.pos := ⟨hds, hp, rfl, hdir, hlt⟩
    rw [exec_in16Data, h.afterDataRead_eq, Device.streamed, ← hds]
    rfl

/-- Settles O51: the status says whether words of a pending command are left. -/
theorem referenceDeviceShowsDrq : Obligations.ReferenceDeviceShowsDrq := by
  intro s ds hds hs
  have hans := statusAnswer_reference hds hs
  refine ⟨fun p hp hlt => ?_, fun hdone => ?_⟩
  · exact exec_in8Status_of_answer (referenceStatus_left hp hlt ▸ hans)
  · exact exec_in8Status_of_answer (referenceStatus_done hdone ▸ hans)

end Sys2Proof.Safety

/-! The round trip on the reference device in `MINIMAL`: what a whole write leaves on the disk, and what a whole read
gives. -/

namespace Sys2Proof.Machine

open Sys2Proof.Safety

/-! Several words of a transfer on a disk. -/

/-- The words of a transfer's stream from word `i` on (R121). -/
def Disks.words (ds : Disks) (p : Pending) (i : Nat) : Nat → List DataWord
  | 0 => []
  | n + 1 => ds.word p i :: ds.words p (i + 1) n

/-- Store the words of a write stream from word `i` on (R121). -/
def Disks.putWords (p : Pending) : Disks → Nat → List DataWord → Disks
  | ds, _, [] => ds
  | ds, i, w :: ws => putWords p (ds.putWord p i w) (i + 1) ws

/-- A stored word reads back, and every other word of the transfer is as before. -/
theorem Disks.word_putWord {ds : Disks} (h : ds.wf) (p : Pending) (k : Nat) (w : DataWord) (j : Nat) :
    (ds.putWord p k w).word p j = if j = k then w else ds.word p j := by
  simp only [Disks.word, Disks.read_putWord h, diskAddr_eq, true_and]
  by_cases hjk : j = k
  · subst hjk
    simp
  · simp only [if_neg hjk]
    congr 1 <;> rw [if_neg (by omega), if_neg (by omega)]

/-- Words stored later do not touch an earlier one. -/
theorem Disks.word_putWords_of_lt {ds : Disks} (h : ds.wf) (p : Pending) {i j : Nat} (hlt : j < i) (ws : List DataWord) :
    (ds.putWords p i ws).word p j = ds.word p j := by
  induction ws generalizing ds i with
  | nil => rfl
  | cons w ws ih =>
    rw [Disks.putWords, ih (Disks.putWord_wf h p i w) (Nat.lt_succ_of_lt hlt), Disks.word_putWord h, if_neg hlt.ne]

/-- The words a write stores are the words a read of the same place gives. -/
theorem Disks.words_putWords {ds : Disks} (h : ds.wf) (p : Pending) (i : Nat) (ws : List DataWord) :
    (ds.putWords p i ws).words p i ws.length = ws := by
  induction ws generalizing ds i with
  | nil => rfl
  | cons w ws ih =>
    have hwf := Disks.putWord_wf h p i w
    rw [List.length_cons, Disks.words, Disks.putWords, ih hwf, Disks.word_putWords_of_lt hwf p (Nat.lt_succ_self i),
      Disks.word_putWord h, if_pos rfl]

/-- Where a transfer's words are depends on its drive and LBA only. -/
theorem Disks.words_congr (ds : Disks) {p q : Pending} (hdrive : q.drive = p.drive) (hlba : q.lba = p.lba) (i n : Nat) :
    ds.words q i n = ds.words p i n := by
  induction n generalizing i with
  | zero => rfl
  | succ n ih => rw [Disks.words, Disks.words, ih, Disks.word, Disks.word, hdrive, hlba]

/-- Bytes sent as words and taken apart again are the same bytes (R105). -/
theorem streamBytes_streamWords {n : Nat} {bs : List Byte} (h : bs.length = 2 * n) :
    streamBytes (streamWords bs) = bs := by
  induction n generalizing bs with
  | zero =>
    obtain rfl := List.length_eq_zero_iff.1 h
    rfl
  | succ n ih =>
    match bs, h with
    | [_], h =>
      rw [List.length_singleton] at h
      omega
    | lo :: hi :: t, h =>
      have ht : t.length = 2 * n := Nat.add_right_cancel (m := 2) h
      change lane0 (joinLanes hi lo) :: lane1 (joinLanes hi lo) :: streamBytes (streamWords t) = _
      rw [lane0_joinLanes, lane1_joinLanes, ih ht]

theorem streamBytes_length (ws : List DataWord) : (streamBytes ws).length = 2 * ws.length := by
  induction ws with
  | nil => rfl
  | cons w ws ih =>
    change (streamBytes ws).length + 2 = 2 * (ws.length + 1)
    rw [ih, Nat.mul_succ]

theorem streamWords_length {n : Nat} {bs : List Byte} (h : bs.length = 2 * n) : (streamWords bs).length = n := by
  have hbytes := streamBytes_length (streamWords bs)
  rw [streamBytes_streamWords h] at hbytes
  omega

/-- Bytes stored as words of a transfer are the bytes a read of the same place gives, whatever its command byte. -/
theorem Disks.bytes_round_trip {ds : Disks} (h : ds.wf) {p q : Pending} (hdrive : q.drive = p.drive)
    (hlba : q.lba = p.lba) {n : Nat} {bs : List Byte} (hlen : bs.length = 2 * n) :
    streamBytes ((ds.putWords p 0 (streamWords bs)).words q 0 n) = bs := by
  have hback := Disks.words_putWords h p 0 (streamWords bs)
  rw [streamWords_length hlen] at hback
  rw [Disks.words_congr _ hdrive hlba, hback, streamBytes_streamWords hlen]

/-- The bytes of a transfer's buffer end with its last word (R9, R38). -/
theorem Buffer.bytes_drop_nw {b : Buffer} {cnt : CountWord} (h : b.len = nb cnt) : b.bytes.drop (2 * nw cnt) = [] :=
  List.drop_of_length_le (by rw [Buffer.bytes_length, h, nb_eq])

theorem Buffer.bytes_take_nw {b : Buffer} {cnt : CountWord} (h : b.len = nb cnt) :
    b.bytes.take (2 * nw cnt) = b.bytes :=
  List.take_of_length_le (by rw [Buffer.bytes_length, h, nb_eq])

/-- A word still to come of a latched count is one of the transfer's words (R9). -/
theorem Streaming.lt_nw {c : Config} {d : Device} {dir : Dir} {ds : Disks} {p : Pending} {i : Nat} {cnt : CountWord}
    (h : Streaming c d dir ds p i) (hcnt : p.count = cnt.toNat) : i < nw cnt := by
  have hleft := h.left
  rwa [hcnt] at hleft

end Sys2Proof.Machine

namespace Sys2Proof.Safety

open Sys2Proof.Machine

/-- One status read of a reference device with words left shows `DRQ` (R91, R121). -/
theorem step_poll_reference {s : State} {dir : Dir} {ds : Disks} {p : Pending} {i : Nat} (hp : s.seq.phase = .cmdIssued)
    (hm : s.cfg.mode = .minimal) (hs : Streaming s.cfg s.dev dir ds p i) (hst : s.oracle.status = []) :
    step s = .next { s with
      seq := { s.seq with phase := .ready }, trace := .portRead8 (s.cfg.base + 7#16) 0x08#8 :: s.trace } := by
  have hans : statusAnswer s = (0x08#8, s.oracle) := by
    rw [statusAnswer_reference hs.disks hst, referenceStatus_left hs.pending (hs.pos ▸ hs.left)]
  have hdrq : drqSet 0x08#8 = true := by decide
  rw [step_poll_minimal hp hm, afterStatus, hans, if_pos hdrq]
  rfl

/-! What a step of a request in progress leaves alone, and the end of a request. -/

/-- Equal parameters, interfaces and coming answers. -/
structure SameOutside (s u : State) : Prop where
  cfg : u.cfg = s.cfg
  requests : u.requests = s.requests
  oracle : u.oracle = s.oracle
  responses : u.responses = s.responses

/-- `t` is `s` with a request ended by `OK` and `payload`, the reference device's disks being `ds`. -/
structure RequestEnd (s t : State) (payload : List Byte) (ds : Disks) : Prop where
  phase : t.seq.phase = .idle
  disks : t.dev.disks = some ds
  cfg : t.cfg = s.cfg
  requests : t.requests = s.requests
  oracle : t.oracle = s.oracle
  responses : t.responses = s.responses ++ [⟨.ok, 0#8, payload⟩]

/-- `n` steps from `s` end its request with `OK` and `payload` and leave the disks `ds`. -/
def EndsOn (n : Nat) (s : State) (payload : List Byte) (ds : Disks) : Prop :=
  ∃ t, run n s = .next t ∧ RequestEnd s t payload ds

/-- Steps without a response come before the end of a request. -/
theorem EndsOn.after {m n : Nat} {s u : State} {payload : List Byte} {ds : Disks} (hrun : run m s = .next u)
    (hsame : SameOutside s u) (h : EndsOn n u payload ds) : EndsOn (m + n) s payload ds := by
  obtain ⟨t, ht, hend⟩ := h
  exact ⟨t, run_trans hrun ht, hend.phase, hend.disks, hend.cfg.trans hsame.cfg, hend.requests.trans hsame.requests,
    hend.oracle.trans hsame.oracle, hend.responses.trans (congrArg (· ++ _) hsame.responses)⟩

/-- The step of data word `i` on the reference device: the device streams the word of `p`, its disks becoming `ds`. -/
structure RefWordStep (s u : State) (cnt : CountWord) (i : Nat) (b : Buffer) (payload : List Byte) (e : BusEvent)
    (ds : Disks) (p : Pending) : Prop extends WordStep s u cnt i b payload e where
  outside : SameOutside s u
  dev : u.dev = s.dev.streamed ds p

section
variable {s u : State} {cnt : CountWord} {i : Nat} {b : Buffer} {payload : List Byte} {e : BusEvent} {ds : Disks}
  {p : Pending} (h : RefWordStep s u cnt i b payload e ds p)
include h

/-- The last word ends the request. -/
theorem RefWordStep.last (hlast : i + 1 = nw cnt) : EndsOn 1 s payload ds := by
  refine ⟨_, run_succ h.goesOn, ?_⟩
  rw [afterWord, if_pos hlast]
  exact ⟨rfl, congrArg Device.disks h.dev, h.outside.cfg, h.outside.requests, h.outside.oracle,
    congrArg (· ++ _) h.outside.responses⟩

variable (hmore : i + 1 ≠ nw cnt)
include hmore

/-- Any other word leaves the end of the request to the words after it. -/
theorem RefWordStep.cons {n : Nat} {q : List Byte} {ds' : Disks} (hn : EndsOn n (afterWord u i cnt payload) q ds') :
    EndsOn (n + 1) s q ds' := by
  rw [Nat.add_comm]
  refine hn.after (run_succ h.goesOn) ?_
  rw [afterWord, if_neg hmore]
  exact ⟨h.outside.cfg, h.outside.requests, h.outside.oracle, h.outside.responses⟩

/-- Any other word leads the device to the next. -/
theorem RefWordStep.streaming {dir : Dir} {ds' : Disks} (hs : Streaming s.cfg s.dev dir ds' p i)
    (hcnt : p.count = cnt.toNat) :
    Streaming (afterWord u i cnt payload).cfg (afterWord u i cnt payload).dev dir ds p (i + 1) := by
  rw [afterWord, if_neg hmore]
  change Streaming u.cfg u.dev dir ds p (i + 1)
  rw [h.outside.cfg, h.dev]
  exact hs.next (by rw [hcnt]; exact hmore) ds

end

section
variable {s : State} {cnt : CountWord} {i : Nat} {buf : Buffer} {ds : Disks} {p : Pending}

/-- A data write stores the next word of the buffer on the disk (R104, R121). -/
theorem AtWord.refWordStep_write (h : AtWord s .wr cnt i buf) (hs : Streaming s.cfg s.dev .wr ds p i)
    (hlt : i < nw cnt) {w : DataWord} (hw : w = buf.mem.read (2 * i + 1) ++ buf.mem.read (2 * i)) :
    ∃ u, RefWordStep s u cnt i buf [] (.portWrite16 s.cfg.base w) (ds.putWord p i w) p := by
  subst hw
  have hin := h.inside hlt
  have hseq : s.seq = { s.seq with buf := some buf } := by rw [← h.bufReg]
  have hstep := step_dataWrite h.phaseReg h.dirReg h.cntReg h.widxReg hlt h.bufReg
    (Buffer.read_of_lt (Nat.lt_of_succ_lt hin)) (Buffer.read_of_lt hin)
  rw [hs.afterDataWrite_eq] at hstep
  exact ⟨_, ⟨hstep, rfl, hseq, rfl, rfl⟩, ⟨rfl, rfl, rfl, rfl⟩, rfl⟩

/-- A data read stores the disk's next word in the buffer, behind those stored so far (R99, R121). -/
theorem AtWord.refWordStep_read (h : AtWord s .rd cnt i buf) (hs : Streaming s.cfg s.dev .rd ds p i)
    (hlt : i < nw cnt) :
    ∃ b u, RefWordStep s u cnt i b b.bytes (.portRead16 s.cfg.base (ds.word p i)) ds p ∧ b.len = buf.len ∧ b.wf ∧
      b.bytes.take (2 * (i + 1)) = buf.bytes.take (2 * i) ++ streamBytes [ds.word p i] := by
  obtain ⟨b1, b2, h1, h2⟩ := Buffer.write_word_of_lt (h.inside hlt) (lane0 (ds.word p i)) (lane1 (ds.word p i))
  have hstep := step_dataRead h.phaseReg h.dirReg h.cntReg h.widxReg hlt h.bufReg (by rw [hs.dataAnswer_eq]; exact h1)
    (by rw [hs.dataAnswer_eq]; exact h2)
  rw [hs.afterDataRead_eq] at hstep
  refine ⟨b2, _, ⟨⟨hstep, rfl, rfl, rfl, rfl⟩, ⟨rfl, rfl, rfl, rfl⟩, rfl⟩, ?_,
    Buffer.write_wf (Buffer.write_wf h.bufWf h1) h2, Buffer.bytes_take_write_word h.bufWf h1 h2⟩
  rw [(Buffer.write_eq_some h2).2, (Buffer.write_eq_some h1).2]

variable (hcnt : p.count = cnt.toNat) {n : Nat} (hn : i + n = nw cnt)
include hcnt hn

/-- The data writes from word `i` on store the rest of the buffer on the disk. -/
theorem AtWord.endsOn_write (h : AtWord s .wr cnt i buf) (hs : Streaming s.cfg s.dev .wr ds p i) :
    EndsOn n s [] (ds.putWords p i (streamWords (buf.bytes.drop (2 * i)))) := by
  induction n generalizing s i ds with
  | zero => exact absurd hn (hs.lt_nw hcnt).ne
  | succ n ih =>
    have hlt := hs.lt_nw hcnt
    obtain ⟨u, hstep⟩ := h.refWordStep_write hs hlt rfl
    rw [Buffer.bytes_drop_word (h.inside hlt), streamWords, Disks.putWords]
    by_cases hlast : i + 1 = nw cnt
    · obtain rfl : n = 0 := by omega
      rw [hlast, Buffer.bytes_drop_nw h.bufLen]
      exact hstep.last hlast
    · exact hstep.cons hlast
        (ih (by omega) (hstep.next hlast h rfl h.bufWf) (hstep.streaming hlast hs hcnt))

/-- The data reads from word `i` on give the bytes stored before and the disk's words. -/
theorem AtWord.endsOn_read (h : AtWord s .rd cnt i buf) (hs : Streaming s.cfg s.dev .rd ds p i) :
    EndsOn n s (buf.bytes.take (2 * i) ++ streamBytes (ds.words p i n)) ds := by
  induction n generalizing s i buf with
  | zero => exact absurd hn (hs.lt_nw hcnt).ne
  | succ n ih =>
    have hlt := hs.lt_nw hcnt
    obtain ⟨b, u, hstep, hlen, hwf, htake⟩ := h.refWordStep_read hs hlt
    have hsplit : streamBytes (ds.words p i (n + 1)) = streamBytes [ds.word p i] ++ streamBytes (ds.words p (i + 1) n) :=
      List.flatMap_append (xs := [ds.word p i])
    rw [hsplit, ← List.append_assoc, ← htake]
    by_cases hlast : i + 1 = nw cnt
    · obtain rfl : n = 0 := by omega
      rw [hlast, Buffer.bytes_take_nw (hlen.trans h.bufLen), Disks.words, show streamBytes [] = [] from rfl,
        List.append_nil]
      exact hstep.last hlast
    · exact hstep.cons hlast
        (ih (by omega) (hstep.next hlast h hlen hwf) (hstep.streaming hlast hs hcnt))

end

/-! Whole requests on the reference device. -/

/-- What the device latches for a request (R113). -/
def requestPending (op : Byte) (a : ReqArgs) : Pending := ⟨op, a.drive, a.lba.setWidth 48, a.count.toNat⟩

/-- A checked request in `MINIMAL` for a place inside the reference device (R121), no status answer being listed. -/
structure ReferenceRequest (s : State) (op : Byte) (d : Dir) (a : ReqArgs) (ds : Disks) : Prop where
  legal : s.cfg.Legal
  mode : s.cfg.mode = .minimal
  disks : s.dev.disks = some ds
  status : s.oracle.status = []
  checked : check s.cfg op a = .ok
  dir : dirOf s.cfg op = some d
  inside : a.lba.toNat + a.count.toNat ≤ capacity s.cfg a.drive

section
variable {s : State} {op : Byte} {d : Dir} {a : ReqArgs} {ds : Disks}

/-- After the preamble the command byte latches the request, and the reference device is at its first word (R113). -/
theorem ReferenceRequest.streaming (h : ReferenceRequest s op d a ds) (n : Nat) :
    Streaming s.cfg ((s.dev.preambleDone s.cfg a.drive a.count a.lba).takeCommand s.cfg n op) d ds
      (requestPending op a) 0 := by
  obtain ⟨_, -, hcnt, hlba, h28, -, -⟩ := check_ok h.checked
  have hno : s.cfg.mode ≠ .hardened := by simp [h.mode]
  have hlatch : Latched s.cfg (acceptedState s op d a (Buffer.ofBytes (nb a.count) [])).seq op d a.drive a.lba a.count
      (Buffer.ofBytes (nb a.count) []) :=
    ⟨rfl, rfl, rfl, rfl, rfl, rfl, h.dir, hcnt, hlba, h28, rfl, fun hm => absurd hm hno⟩
  have hp := hlatch.latchedPending_eq h.legal n s.dev
  have hcovers : referenceCovers s.cfg (requestPending op a) = true := by
    refine referenceCovers_iff.2 ⟨?_, ?_, ?_⟩
    · simp [requestPending, h.dir]
    · exact Nat.ne_of_gt hcnt
    · change (a.lba.setWidth 48).toNat + _ ≤ _
      rw [BitVec.toNat_setWidth, Nat.mod_eq_of_lt hlba]
      exact h.inside
  exact ⟨(Device.takeCommand_disks_covered (by rw [hp]; exact hcovers)).trans h.disks, congrArg some hp, rfl, h.dir,
    Nat.mul_pos hcnt (by decide)⟩

/-- A write carries the bytes of its count (R71). -/
theorem ReferenceRequest.data_length (h : ReferenceRequest s op d a ds) (hd : d = .wr) : a.data.length = nb a.count := by
  obtain ⟨e, he, -, -, -, hlen, -⟩ := check_ok h.checked
  exact hlen ((Option.some.inj (he.symm.trans h.dir)).trans hd)

/-- From an accepted request to its first data word: ten register writes and one status read (R79, R91, R121). -/
theorem ReferenceRequest.run_to_words (h : ReferenceRequest s op d a ds) {buf : Buffer} (hlen : buf.len = nb a.count)
    (hwf : buf.wf) :
    ∃ u, run (10 + 1) (acceptedState s op d a buf) = .next u ∧ SameOutside (acceptedState s op d a buf) u ∧
      AtWord u d a.count 0 buf ∧ Streaming u.cfg u.dev d ds (requestPending op a) 0 := by
  refine ⟨_, run_trans (run_command rfl rfl rfl rfl rfl rfl h.dir) (run_succ (step_poll_reference rfl h.mode
    (h.streaming s.oracle.draws) h.status)), ⟨rfl, rfl, rfl, rfl⟩, ⟨rfl, rfl, rfl, rfl, rfl, hlen, hwf⟩,
    h.streaming s.oracle.draws⟩

/-- A whole write, from the request to the response, stores its data's words on the disk (R104, R121). -/
theorem ReferenceRequest.run_write {r : Request} (h : ReferenceRequest s r.op .wr r.args ds) (hp : s.seq.phase = .idle)
    (hr : s.requests = [r]) :
    ∃ t, run (1 + 10 + 1 + r.args.count.toNat * 256) s = .next t ∧ RequestEnd (s.withRequests []) t []
      (ds.putWords (requestPending r.op r.args) 0 (streamWords r.args.data)) := by
  have hstep := (step_idle_request hp (chooseRequest_single hr)).trans
    (accept_write (s := s.withRequests []) hp h.checked h.dir)
  have hwait : ReferenceRequest (s.withRequests []) r.op .wr r.args ds := { h with }
  obtain ⟨u, hrun, hsame, hat, hs⟩ := hwait.run_to_words rfl (Buffer.ofBytes_wf (nb r.args.count) r.args.data)
  have hend := hat.endsOn_write rfl (Nat.zero_add _) hs
  rw [Nat.mul_zero, List.drop_zero, Buffer.bytes_ofBytes (h.data_length rfl)] at hend
  obtain ⟨t, ht, hdone⟩ := hend.after hrun hsame
  rw [Nat.add_assoc 1, Nat.add_assoc 1]
  exact ⟨t, run_trans (m := 1) (run_succ hstep) ht, { hdone with }⟩

/-- A whole read, from the request to the response, gives the bytes of the disk's words (R99, R121). -/
theorem ReferenceRequest.run_read {r : Request} {init : List Byte} {rest : List (Option (List Byte))}
    (h : ReferenceRequest s r.op .rd r.args ds) (hp : s.seq.phase = .idle) (hr : s.requests = [r])
    (ha : s.oracle.alloc = some init :: rest) :
    ∃ t, run (1 + 10 + 1 + r.args.count.toNat * 256) s = .next t ∧
      RequestEnd { s.withRequests [] with oracle := { s.oracle with alloc := rest } } t
        (streamBytes (ds.words (requestPending r.op r.args) 0 (nw r.args.count))) ds := by
  have hstep := (step_idle_request hp (chooseRequest_single hr)).trans
    (accept_read (s := s.withRequests []) hp h.checked h.dir ha)
  have hwait : ReferenceRequest { s.withRequests [] with oracle := { s.oracle with alloc := rest } }
      r.op .rd r.args ds := { h with }
  obtain ⟨u, hrun, hsame, hat, hs⟩ := hwait.run_to_words rfl (Buffer.ofBytes_wf (nb r.args.count) init)
  obtain ⟨t, ht, hdone⟩ := (hat.endsOn_read rfl (Nat.zero_add _) hs).after hrun hsame
  rw [Nat.add_assoc 1, Nat.add_assoc 1]
  exact ⟨t, run_trans (m := 1) (run_succ hstep) ht, { hdone with }⟩

end

/-- Settles O52: the write leaves its words where the read takes its own from. -/
theorem referenceRoundTrip : Obligations.ReferenceRoundTrip := by
  intro s ds wr rd init allocs hinv hm hp hds hst hreq hckw hdirw hckr hdirr hdrive hlba hcount hcap halloc
  have hwrite : ReferenceRequest s wr.op .wr wr.args ds := ⟨hinv.legal, hm, hds, hst, hckw, hdirw, hcap⟩
  obtain ⟨t, ht, hend⟩ := hwrite.run_write hp hreq
  have hcfg : t.cfg = s.cfg := hend.cfg
  have horacle : t.oracle = s.oracle := hend.oracle
  have hread : ReferenceRequest (t.offer rd) rd.op .rd rd.args
      (ds.putWords (requestPending wr.op wr.args) 0 (streamWords wr.args.data)) :=
    ⟨hcfg ▸ hinv.legal, hcfg ▸ hm, hend.disks, horacle ▸ hst, hcfg ▸ hckr, hcfg ▸ hdirr,
      hcfg ▸ hdrive ▸ hlba ▸ hcount ▸ hcap⟩
  obtain ⟨u, hu, hend'⟩ := hread.run_read hend.phase (congrArg (· ++ [rd]) hend.requests) (horacle ▸ halloc)
  have hlen : wr.args.data.length = 2 * nw rd.args.count := by rw [hwrite.data_length rfl, nb_eq, hcount]
  have hbytes := Disks.bytes_round_trip (hinv.diskWf ds hds) (p := requestPending wr.op wr.args)
    (q := requestPending rd.op rd.args) hdrive (congrArg (·.setWidth 48) hlba) hlen
  exact ⟨t, u, ht, hend.phase, hend.responses, hu, hend'.phase, hbytes ▸ hend'.responses⟩

end Sys2Proof.Safety

/-! The statements about exceptions (60_exceptions.md): the acceptance checks in their order, and the `ERROR` and `TIMEOUT`
steps. -/

namespace Sys2Proof.Machine

open Sys2Proof.Safety

/-! The opcodes of each direction (R65). -/

theorem dirOf_eq_rd_iff {c : Config} {op : Byte} :
    dirOf c op = some .rd ↔ op = Config.opcReadExt ∨ (c.legacy28 = true ∧ op = c.opcRead28) := by
  refine ⟨fun h => ?_, fun h => if_pos h⟩
  unfold dirOf at h
  split_ifs at h with hread
  · exact hread
  · cases h

/-- The write opcodes of a legal configuration are no read opcodes, which `dirOf` looks at first. -/
theorem dirOf_eq_wr_iff {c : Config} (hc : c.Legal) {op : Byte} :
    dirOf c op = some .wr ↔ op = Config.opcWriteExt ∨ (c.legacy28 = true ∧ op = c.opcWrite28) := by
  obtain ⟨-, hext, h28⟩ := dirOf_opcodes hc
  refine ⟨fun h => ?_, ?_⟩
  · unfold dirOf at h
    split_ifs at h with hread hwrite
    · cases h
    · exact hwrite
  · rintro (rfl | ⟨hl, rfl⟩)
    · exact hext
    · exact (h28 hl).2

theorem dirOf_eq_none_iff {c : Config} {op : Byte} :
    dirOf c op = none ↔ ¬ dirOf c op = some .rd ∧ ¬ dirOf c op = some .wr := by
  rcases dirOf c op with _ | _ | _ <;> simp

/-! What each acceptance check reports (R71, R123). -/

theorem check_eq_eOp {c : Config} {op : Byte} (hd : dirOf c op = none) (a : ReqArgs) : check c op a = .eOp := by
  rw [check, hd]

section
variable {c : Config} {op : Byte} {d : Dir} {a : ReqArgs} (hd : dirOf c op = some d)
include hd

theorem check_eq_eCount (h : a.count.toNat = 0 ∨ (is28 c op = true ∧ 256 < a.count.toNat)) :
    check c op a = .eCount := by
  rw [check, hd]
  exact if_pos (h.imp_left BitVec.eq_of_toNat_eq)

variable (hcount : ¬ (a.count.toNat = 0 ∨ (is28 c op = true ∧ 256 < a.count.toNat)))
include hcount

theorem check_eq_eLba (h : 2 ^ 48 ≤ a.lba.toNat ∨ (is28 c op = true ∧ 2 ^ 24 ≤ a.lba.toNat)) :
    check c op a = .eLba := by
  rw [check, hd]
  exact (if_neg (mt (Or.imp_left (congrArg BitVec.toNat)) hcount)).trans (if_pos h)

theorem check_eq_eLen (hlba : ¬ (2 ^ 48 ≤ a.lba.toNat ∨ (is28 c op = true ∧ 2 ^ 24 ≤ a.lba.toNat)))
    (h : (d = .wr ∧ a.data.length ≠ nb a.count) ∨ (d = .rd ∧ a.data ≠ [])) : check c op a = .eLen := by
  rw [check, hd]
  exact (if_neg (mt (Or.imp_left (congrArg BitVec.toNat)) hcount)).trans ((if_neg hlba).trans (if_pos h))

end

/-- A single waiting request that fails a check is answered in the step that takes it off the interface (R124). -/
theorem step_rejects {s : State} {r : Request} {code : ResultCode} (hp : s.seq.phase = .idle) (hr : s.requests = [r])
    (hc : check s.cfg r.op r.args = code) (hno : code ≠ .ok) : step s = .next (rejectedState s code) := by
  subst hc
  rw [step_idle_request hp (chooseRequest_single hr), accept_rejected (s := s.withRequests []) hp hno,
    raise_idle (s := s.withRequests []) hp]
  rfl

/-- The last act of a failed attempt, register by register (R126, R127, R131). -/
theorem retryOrRaise_eq (s : State) (n : Nat) (code : ResultCode) (info : Byte) :
    retryOrRaise s n code info =
      if 0 < n then
        { s with seq := { s.seq with tries := some (n - 1), pstep := some 0, widx := some 0, phase := .preamble } }
      else
        { s with seq := { s.seq with phase := .idle }, responses := s.responses ++ [⟨code, info, []⟩] } := rfl

end Sys2Proof.Machine

namespace Sys2Proof.Safety

open Sys2Proof.Machine

/-- Settles O6: the statement's conditions are those that `check` looks at, in its order, once reads and writes are told
apart by `dirOf`. -/
theorem requestChecksInOrder : Obligations.RequestChecksInOrder := by
  intro s r hc hp hr read write short badCount badLba badLen
  have hread : dirOf s.cfg r.op = some .rd ↔ read := dirOf_eq_rd_iff
  have hwrite : dirOf s.cfg r.op = some .wr ↔ write := dirOf_eq_wr_iff hc
  have hshort : is28 s.cfg r.op = true ↔ short := is28_iff
  have hdir : read ∨ write → ∃ d, dirOf s.cfg r.op = some d :=
    fun h => h.elim (fun h => ⟨.rd, hread.2 h⟩) (fun h => ⟨.wr, hwrite.2 h⟩)
  simp only [badCount, badLba, ← hshort]
  refine ⟨fun hop => ?op, fun hrw hcount => ?count, fun hrw hcount hlba => ?lba, fun hrw hcount hlba hlen => ?len⟩
  case op =>
    rw [← hread, ← hwrite, ← dirOf_eq_none_iff] at hop
    exact step_rejects hp hr (check_eq_eOp hop _) nofun
  case count =>
    obtain ⟨d, hd⟩ := hdir hrw
    exact step_rejects hp hr (check_eq_eCount hd hcount) nofun
  case lba =>
    obtain ⟨d, hd⟩ := hdir hrw
    exact step_rejects hp hr (check_eq_eLba hd hcount hlba) nofun
  case len =>
    rcases hlen with ⟨hw, hlen⟩ | ⟨hrd, hlen⟩
    · exact step_rejects hp hr (check_eq_eLen (hwrite.2 hw) hcount hlba (.inl ⟨rfl, hlen⟩)) nofun
    · have hdata : r.args.data ≠ [] := mt List.length_eq_zero_iff.2 hlen
      exact step_rejects hp hr (check_eq_eLen (hread.2 hrd) hcount hlba (.inr ⟨rfl, hdata⟩)) nofun

/-- Settles O26: the step is the error register read, its byte put in `ERRV`, and the end of the attempt. -/
theorem errorStepRetriesOrFails : Obligations.ErrorStepRetriesOrFails := fun s n hp hm hn =>
  ⟨_, exec_in8Error_of_answer rfl, (errorAnswer s).1, rfl,
    (step_error hp hm hn).trans (congrArg _ (retryOrRaise_eq _ n .eDevice (errorAnswer s).1))⟩

/-- Settles O27: the step is the channel reset, which keeps the disks and the listed answers, and the end of the
attempt. -/
theorem timeoutStepResetsChannel : Obligations.TimeoutStepResetsChannel := fun s n hp hm hn =>
  ⟨s.dev.scramble s.oracle.draws, s.oracle.skip, rfl, rfl,
    (step_timeout hp hm hn).trans (congrArg _ (retryOrRaise_eq (channelReset s) n .eTimeout 0#8))⟩

end Sys2Proof.Safety

/-! The statements about reset and hazards (70_reset_and_hazards.md): what reset leaves, the wait in `IDLE`, the host's
moves, the data port's guard, and the step bound of a `HARDENED` request. -/

namespace Sys2Proof

/-- The reference parameters are legal (R8). -/
theorem Config.ref_legal : Config.ref.Legal := by
  constructor <;> decide

end Sys2Proof

namespace Sys2Proof.Machine

/-! The host's moves (R155). -/

/-- Taking a result leaves the parameters, the sequencer and the channel alone. -/
theorem State.takeResponse_frame (s : State) :
    s.takeResponse.2.cfg = s.cfg ∧ s.takeResponse.2.seq = s.seq ∧ s.takeResponse.2.dev = s.dev := by
  unfold State.takeResponse
  split <;> exact ⟨rfl, rfl, rfl⟩

/-! Which rows enter `CMD_ISSUED` and `READY`, and which rows access the data port (R146). -/

theorem afterWord_phase (s : State) (i : Nat) (cnt : CountWord) (payload : List Byte) :
    (afterWord s i cnt payload).seq.phase = s.seq.phase ∨ (afterWord s i cnt payload).seq.phase = .idle :=
  (afterWord_result s i cnt payload).imp And.left And.left

theorem retryOrRaise_phase (s : State) (n : Nat) (c : ResultCode) (v : Byte) :
    (retryOrRaise s n c v).seq.phase = .preamble ∨ (retryOrRaise s n c v).seq.phase = .idle := by
  rcases retryOrRaise_cases s n c v with ⟨-, h⟩ | ⟨-, h⟩ <;> rw [h]
  · exact .inl rfl
  · exact .inr rfl

/-- A `HARDENED` poll enters `READY` only by a byte with `DRQ` (R92). -/
theorem hardenedPhase_eq_ready {c : Config} {v : Byte} {n : Nat} (h : hardenedPhase c v n = .ready) :
    drqSet v = true := by
  unfold hardenedPhase at h
  split_ifs at h with _ hdrq
  exact hdrq

/-- How a step moves `PHASE`, as far as the data port is concerned: it stays, it becomes one before the command write, or
the step is the command write or a status read with `DRQ`. -/
inductive PhaseMove (s t : State) : Prop
  | stays (h : t.seq.phase = s.seq.phase)
  | away (hcmd : t.seq.phase ≠ .cmdIssued) (hready : t.seq.phase ≠ .ready)
  | command (op : Byte) (ht : t.seq.phase = .cmdIssued) (hp : s.seq.phase = .preamble) (hk : s.seq.pstep = some 9)
      (hop : s.seq.op = some op) (he : t.trace = .portWrite8 (portAddr s.cfg 7#3) op :: s.trace)
  | drq (v : Byte) (ht : t.seq.phase = .ready) (hp : s.seq.phase = .cmdIssued) (hv : drqSet v = true)
      (he : t.trace = .portRead8 (portAddr s.cfg 7#3) v :: s.trace)

theorem PhaseMove.of_preamble_or_idle {s t : State} (h : t.seq.phase = .preamble ∨ t.seq.phase = .idle) :
    PhaseMove s t := by
  rcases h with h | h
  · exact .away (by simp [h]) (by simp [h])
  · exact .away (by simp [h]) (by simp [h])

theorem PhaseMove.of_stays_or_idle {s t : State} (h : t.seq.phase = s.seq.phase ∨ t.seq.phase = .idle) :
    PhaseMove s t :=
  h.elim .stays fun h => .of_preamble_or_idle (.inr h)

/-- A status read in `CMD_ISSUED` that leaves `READY` only by a byte with `DRQ` (R91, R92). -/
theorem PhaseMove.of_poll {s t : State} (hp : s.seq.phase = .cmdIssued)
    (he : t.trace = .portRead8 (portAddr s.cfg 7#3) (statusAnswer s).1 :: s.trace)
    (hv : t.seq.phase = .ready → drqSet (statusAnswer s).1 = true) : PhaseMove s t := by
  by_cases hready : t.seq.phase = .ready
  · exact .drq _ hready hp (hv hready) he
  · by_cases hcmd : t.seq.phase = .cmdIssued
    · exact .stays (hcmd.trans hp.symm)
    · exact .away hcmd hready

/-- Every step moves `PHASE` in one of these ways, row by row of R95. -/
theorem step_phaseMove {s t : State} (h : step s = .next t) : PhaseMove s t := by
  cases step_cases h with
  | wait _ _ ht => exact .stays (ht ▸ rfl)
  | request r s1 hp hc ht =>
    obtain ⟨k, o, -, -, rfl⟩ := chooseRequest_some hc
    refine .of_preamble_or_idle ((accept_idle_result (by exact hp) ht).imp And.left ?_)
    rintro ⟨c, -, -, hidle, -⟩
    exact hidle
  | preamble k off v d _ _ _ ht => exact .stays (ht ▸ rfl)
  | command op hp hk hop ht => exact .command op (ht ▸ rfl) hp hk hop (ht ▸ rfl)
  | pollMinimal hp hm ht =>
    by_cases hv : drqSet (statusAnswer s).1 = true
    · rw [if_pos hv] at ht
      exact .of_poll hp (ht ▸ rfl) fun _ => hv
    · rw [if_neg hv] at ht
      exact .stays (ht ▸ rfl)
  | pollHardened n hp hm hn ht =>
    subst ht
    exact .of_poll hp rfl hardenedPhase_eq_ready
  | dataRead cnt i buf b1 b2 _ _ _ _ _ _ _ _ ht =>
    subst ht
    exact .of_stays_or_idle (afterWord_phase _ i cnt b2.bytes)
  | dataWrite cnt i buf lo hi _ _ _ _ _ _ _ _ ht =>
    subst ht
    exact .of_stays_or_idle (afterWord_phase _ i cnt [])
  | errorStep n _ _ _ ht => exact ht ▸ .of_preamble_or_idle (retryOrRaise_phase _ _ _ _)
  | timeoutStep n _ _ _ ht => exact ht ▸ .of_preamble_or_idle (retryOrRaise_phase _ _ _ _)

end Sys2Proof.Machine

namespace Sys2Proof.Safety

open Sys2Proof.Machine

/-- What a step emits, if anything, is a data-port access exactly in `READY` (R37, R95). -/
theorem step_event_isData {s t : State} (h : step s = .next t) :
    t.trace = s.trace ∨ ∃ e, t.trace = e :: s.trace ∧ (isDataEvent e = true ↔ s.seq.phase = .ready) := by
  cases step_cases h with
  | wait _ _ ht => exact .inl (ht ▸ rfl)
  | request r s1 _ hc ht =>
    obtain ⟨k, o, -, -, rfl⟩ := chooseRequest_some hc
    exact .inl (accept_frame ht).1
  | preamble k off v d hp _ _ ht => exact .inr ⟨.portWrite8 (portAddr s.cfg off) v, ht ▸ rfl, by simp [isDataEvent, hp]⟩
  | command op hp _ _ ht => exact .inr ⟨.portWrite8 (portAddr s.cfg 7#3) op, ht ▸ rfl, by simp [isDataEvent, hp]⟩
  | pollMinimal hp _ ht =>
    refine .inr ⟨.portRead8 (portAddr s.cfg 7#3) (statusAnswer s).1, ?_, by simp [isDataEvent, hp]⟩
    rw [ht]
    split <;> rfl
  | pollHardened n hp _ _ ht =>
    exact .inr ⟨.portRead8 (portAddr s.cfg 7#3) (statusAnswer s).1, ht ▸ rfl, by simp [isDataEvent, hp]⟩
  | dataRead cnt i buf b1 b2 hp _ _ _ _ _ _ _ ht =>
    subst ht
    exact .inr ⟨_, afterWord_trace _ _ _ _, by simp [isDataEvent, hp]⟩
  | dataWrite cnt i buf lo hi hp _ _ _ _ _ _ _ ht =>
    subst ht
    exact .inr ⟨_, afterWord_trace _ _ _ _, by simp [isDataEvent, hp]⟩
  | errorStep n hp _ _ ht =>
    subst ht
    exact .inr ⟨_, retryOrRaise_trace _ _ _ _, by simp [isDataEvent, hp]⟩
  | timeoutStep n hp _ _ ht =>
    subst ht
    exact .inr ⟨.channelReset, retryOrRaise_trace _ _ _ _, by simp [isDataEvent, hp]⟩

/-- Settles O40: `PhaseMove` names the two rows that enter `CMD_ISSUED` and `READY`, and the rows that access the data port
are those of `READY`. -/
theorem dataOnlyAfterDrq : Obligations.DataOnlyAfterDrq := by
  refine ⟨fun s t h hs ht => ?cmdIssued, fun s t h hs ht => ?ready, fun s t e h he => ?access⟩
  case cmdIssued =>
    cases step_phaseMove h with
    | stays hstay => exact absurd (hstay.symm.trans ht) hs
    | away hcmd => exact absurd ht hcmd
    | command op _ hp hk hop he => exact ⟨hp, hk, op, hop, he⟩
    | drq v hready => simp [hready] at ht
  case ready =>
    cases step_phaseMove h with
    | stays hstay => exact absurd (hstay.symm.trans ht) hs
    | away _ hready => exact absurd ht hready
    | command op hcmd => simp [hcmd] at ht
    | drq v _ hp hv he => exact ⟨hp, v, hv, he⟩
  case access =>
    rcases step_event_isData h with hsame | ⟨e', he', hiff⟩
    · exact absurd (he.symm.trans hsame) (List.cons_ne_self e s.trace)
    · obtain rfl : e = e' := (List.cons.inj (he.symm.trans he')).1
      exact hiff

/-! The invariant at reset and across the host's moves (R142, R155). -/

/-- With every register but `PHASE` unwritten the invariant asks only for legal parameters and canonical disks (R142). -/
theorem Inv.of_reset {s : State} (hl : s.cfg.Legal) (hq : s.seq = Seq.reset)
    (hd : ∀ ds, s.dev.disks = some ds → ds.wf) : Inv s where
  legal := hl
  phase := phaseOk_idle (hq ▸ rfl)
  ranges := by
    rw [hq]
    exact ⟨nofun, nofun, nofun, nofun, nofun, nofun, nofun⟩
  bufWf := by
    rw [hq]
    exact nofun
  diskWf := hd

/-- Settles O1: a register that reset leaves unwritten is `none`, and reading `none` is the fault. -/
theorem resetLeavesOnlyIdle : Obligations.ResetLeavesOnlyIdle :=
  ⟨fun s => ⟨s.hostReset_seq, s.hostReset_responses, s.hostReset_trace⟩, rfl, rfl, rfl,
    fun _ r k => readReg_none .fault r k⟩

/-- Settles O3. -/
theorem idleWaitsForRequest : Obligations.IdleWaitsForRequest := fun _ => step_wait

/-- Settles O33. -/
theorem resetMeetsInvariant : Obligations.ResetMeetsInvariant := .of_reset Config.ref_legal rfl nofun

/-- Settles O35: offering and taking touch nothing the invariant speaks of, and reset keeps the parameters and the
disks. -/
theorem hostMovesKeepInvariant : Obligations.HostMovesKeepInvariant := by
  intro s r h
  obtain ⟨hcfg, hseq, hdev⟩ := s.takeResponse_frame
  exact ⟨h.of_eq rfl rfl rfl, h.of_eq hcfg hseq (congrArg Device.disks hdev), .of_reset h.legal rfl h.diskWf⟩

end Sys2Proof.Safety

/-! The step bound of a `HARDENED` request (R129, R154): the steps left at most, which every step of the request lowers. -/

namespace Sys2Proof.Machine

theorem hardenedPhase_ne_idle (c : Config) (v : Byte) (n : Nat) : hardenedPhase c v n ≠ .idle := by
  unfold hardenedPhase
  split_ifs <;> decide

end Sys2Proof.Machine

namespace Sys2Proof.Safety

open Sys2Proof.Machine

/-- The step bound of one attempt: ten register writes, the polls, and then the words or one step that fails (R154). -/
def attemptBound (c : Config) (cnt : CountWord) : Nat := 10 + c.pollDeadline + 1 + nw cnt

/-- How many steps the attempt in progress has left at most. -/
def attemptLeft (c : Config) (cnt : CountWord) (q : Seq) : Nat :=
  match q.phase with
  | .preamble => 10 - q.pstep.getD 0 + c.pollDeadline + 1 + nw cnt
  | .cmdIssued => c.pollDeadline - q.polls.getD 0 + 1 + nw cnt
  | .ready => nw cnt - q.widx.getD 0
  | .error => 1
  | .timeout => 1
  | _ => 0

/-- How many steps the request in progress has left at most: the attempt's, and a whole attempt for each retry. -/
def stepsLeft (c : Config) (cnt : CountWord) (q : Seq) : Nat :=
  q.tries.getD 0 * attemptBound c cnt + attemptLeft c cnt q

section
variable {c : Config} {cnt : CountWord} {q : Seq}

theorem attemptLeft_preamble {k : Nat} (hp : q.phase = .preamble) (hk : q.pstep = some k) :
    attemptLeft c cnt q = 10 - k + c.pollDeadline + 1 + nw cnt := by
  simp only [attemptLeft, hp, hk, Option.getD_some]

theorem attemptLeft_cmdIssued {n : Nat} (hp : q.phase = .cmdIssued) (hn : q.polls = some n) :
    attemptLeft c cnt q = c.pollDeadline - n + 1 + nw cnt := by
  simp only [attemptLeft, hp, hn, Option.getD_some]

theorem attemptLeft_ready {i : Nat} (hp : q.phase = .ready) (hi : q.widx = some i) :
    attemptLeft c cnt q = nw cnt - i := by
  simp only [attemptLeft, hp, hi, Option.getD_some]

theorem attemptLeft_failed (hp : q.phase = .error ∨ q.phase = .timeout) : attemptLeft c cnt q = 1 := by
  rcases hp with hp | hp <;> simp only [attemptLeft, hp]

theorem attemptLeft_idle (hp : q.phase = .idle) : attemptLeft c cnt q = 0 := by
  simp only [attemptLeft, hp]

theorem attemptLeft_le_bound (c : Config) (cnt : CountWord) (q : Seq) : attemptLeft c cnt q ≤ attemptBound c cnt := by
  unfold attemptLeft attemptBound
  split <;> omega

/-- The steps left lie within the bound of R154, as `TRIES` is at most `RETRIES`. -/
theorem stepsLeft_le_hardenedBound (h : RangesOk c q) : stepsLeft c cnt q ≤ hardenedBound c cnt := by
  have htries : q.tries.getD 0 ≤ c.retries := by
    cases hn : q.tries with
    | none => exact Nat.zero_le _
    | some n => exact h.tries n hn
  calc stepsLeft c cnt q ≤ c.retries * attemptBound c cnt + attemptBound c cnt :=
        Nat.add_le_add (Nat.mul_le_mul_right _ htries) (attemptLeft_le_bound c cnt q)
    _ = hardenedBound c cnt := by
        rw [← Nat.succ_mul, Nat.succ_eq_one_add]
        rfl

/-- A poll leaves fewer steps than there were, whatever the byte: words, a failing step, or one poll fewer (R92). -/
theorem attemptLeft_polled {n : Nat} (v : Byte) (hi : q.widx = some 0) (hn : n < c.pollDeadline) :
    attemptLeft c cnt { q with polls := some (n + 1), phase := hardenedPhase c v (n + 1) } <
      c.pollDeadline - n + 1 + nw cnt := by
  unfold hardenedPhase
  split_ifs with herr hdrq hlast
  · exact lt_of_eq_of_lt (attemptLeft_failed (.inl rfl)) (by omega)
  · exact lt_of_eq_of_lt (attemptLeft_ready rfl hi) (by omega)
  · exact lt_of_eq_of_lt (attemptLeft_failed (.inr rfl)) (by omega)
  · exact lt_of_eq_of_lt (attemptLeft_cmdIssued rfl rfl) (by omega)

/-- A retry with `n` more after it has `n + 1` whole attempts ahead (R129). -/
theorem stepsLeft_retry (s : State) (n : Nat) : stepsLeft c cnt (retry s (n + 1)).seq = (n + 1) * attemptBound c cnt :=
  (congrArg (n * attemptBound c cnt + ·) (attemptLeft_preamble rfl rfl)).trans (Nat.succ_mul n _).symm

/-- Inside an attempt `TRIES` stays, so only the attempt's own steps count. -/
theorem stepsLeft_lt {q' : Seq} (htries : q'.tries = q.tries) (hlt : attemptLeft c cnt q' < attemptLeft c cnt q) :
    stepsLeft c cnt q' < stepsLeft c cnt q := by
  unfold stepsLeft
  rw [htries]
  exact Nat.add_lt_add_left hlt _

end

/-- A step from `s` to `t` brings the request of `s` nearer its end: fewer steps are left, and the request is still in
progress with its count and no response, or it is over with one. -/
structure Progress (cnt : CountWord) (s t : State) : Prop where
  fewer : stepsLeft s.cfg cnt t.seq < stepsLeft s.cfg cnt s.seq
  result : (t.seq.phase ≠ .idle ∧ t.seq.cnt = some cnt ∧ t.responses = s.responses) ∨
    (t.seq.phase = .idle ∧ ∃ r, t.responses = s.responses ++ [r])

section
variable {cnt : CountWord} {s t u : State}

/-- A data word is progress, the last one by its response (R99, R104). -/
theorem Progress.of_word {i : Nat} (payload : List Byte) (hp : s.seq.phase = .ready) (hc : s.seq.cnt = some cnt)
    (hi : s.seq.widx = some i) (hlt : i < nw cnt) (hq : u.seq = { s.seq with buf := u.seq.buf })
    (hr : u.responses = s.responses) : Progress cnt s (afterWord u i cnt payload) := by
  have hs : attemptLeft s.cfg cnt s.seq = nw cnt - i := attemptLeft_ready hp hi
  have htries : u.seq.tries = s.seq.tries := hq ▸ rfl
  have hready : u.seq.phase = .ready := hq ▸ hp
  have hcnt : u.seq.cnt = some cnt := hq ▸ hc
  rcases afterWord_cases u i cnt payload with ⟨-, he⟩ | ⟨-, he⟩ <;> rw [he]
  · exact ⟨stepsLeft_lt htries (lt_of_eq_of_lt (attemptLeft_idle rfl) (by omega)), .inr ⟨rfl, _, congrArg (· ++ _) hr⟩⟩
  · exact ⟨stepsLeft_lt htries (lt_of_eq_of_lt (attemptLeft_ready hready rfl) (by omega)),
      .inl ⟨by simp [hready], hcnt, hr⟩⟩

/-- The end of a failed attempt is progress: a retry starts one of the attempts left, and with none left there is the
response (R126, R127, R129). -/
theorem Progress.of_failed {n : Nat} (code : ResultCode) (info : Byte)
    (hp : s.seq.phase = .error ∨ s.seq.phase = .timeout) (hc : s.seq.cnt = some cnt) (hn : s.seq.tries = some n)
    (hq : u.seq = { s.seq with errv := u.seq.errv }) (hr : u.responses = s.responses) :
    Progress cnt s (retryOrRaise u n code info) := by
  have hs : attemptLeft s.cfg cnt s.seq = 1 := attemptLeft_failed hp
  have htries : u.seq.tries = s.seq.tries := hq ▸ rfl
  have hcnt : u.seq.cnt = some cnt := hq ▸ hc
  rcases retryOrRaise_cases u n code info with ⟨hpos, he⟩ | ⟨-, he⟩ <;> rw [he]
  · obtain ⟨m, rfl⟩ := Nat.exists_eq_succ_of_ne_zero hpos.ne'
    refine ⟨(stepsLeft_retry u m).trans_lt ?_, .inl ⟨by simp, hcnt, hr⟩⟩
    rw [stepsLeft, hn, hs]
    exact Nat.lt_succ_self _
  · exact ⟨stepsLeft_lt htries (lt_of_eq_of_lt (attemptLeft_idle rfl) (by omega)), .inr ⟨rfl, _, congrArg (· ++ _) hr⟩⟩

/-- Every step of a request in `HARDENED` is progress, row by row of R95. -/
theorem step_progress (h : Inv s) (hm : s.cfg.mode = .hardened) (hbusy : s.seq.phase ≠ .idle)
    (hc : s.seq.cnt = some cnt) (hs : step s = .next t) : Progress cnt s t := by
  cases step_cases hs with
  | wait hidle => exact absurd hidle hbusy
  | request _ _ hidle => exact absurd hidle hbusy
  | preamble k off v d hp hk hw ht =>
    subst ht
    have hleft := attemptLeft_preamble (c := s.cfg) (cnt := cnt) hp hk
    have hk8 := hw.le_eight
    exact ⟨stepsLeft_lt rfl (lt_of_eq_of_lt (attemptLeft_preamble hp rfl) (by omega)), .inl ⟨hbusy, hc, rfl⟩⟩
  | command op hp hk hop ht =>
    subst ht
    have hleft := attemptLeft_preamble (c := s.cfg) (cnt := cnt) hp hk
    exact ⟨stepsLeft_lt rfl (lt_of_eq_of_lt (attemptLeft_cmdIssued rfl (if_pos hm)) (by omega)),
      .inl ⟨by simp [afterCommand], hc, rfl⟩⟩
  | pollMinimal _ hmin => simp [hm] at hmin
  | pollHardened n hp _ hn ht =>
    subst ht
    obtain ⟨-, hi, hpolls⟩ := (phaseOk_cmdIssued hp).1 h.phase
    obtain ⟨n', hn', hlt⟩ := hpolls hm
    obtain rfl : n = n' := Option.some.inj (hn.symm.trans hn')
    exact ⟨stepsLeft_lt rfl ((attemptLeft_polled _ hi hlt).trans_eq (attemptLeft_cmdIssued hp hn).symm),
      .inl ⟨hardenedPhase_ne_idle _ _ _, hc, rfl⟩⟩
  | dataRead cnt' i buf b1 b2 hp _ hc' hi hlt _ _ _ ht =>
    obtain rfl : cnt = cnt' := Option.some.inj (hc.symm.trans hc')
    exact ht ▸ .of_word _ hp hc hi hlt rfl rfl
  | dataWrite cnt' i buf lo hi hp _ hc' hi' hlt _ _ _ ht =>
    obtain rfl : cnt = cnt' := Option.some.inj (hc.symm.trans hc')
    exact ht ▸ .of_word [] hp hc hi' hlt rfl rfl
  | errorStep n hp _ hn ht => exact ht ▸ .of_failed _ _ (.inl hp) hc hn rfl rfl
  | timeoutStep n hp _ hn ht => exact ht ▸ .of_failed _ _ (.inr hp) hc hn rfl rfl

/-- A request in progress ends with one response within the steps left, by induction on a bound of them. -/
theorem run_to_response {n : Nat} (h : Inv s) (hm : s.cfg.mode = .hardened) (hbusy : s.seq.phase ≠ .idle)
    (hc : s.seq.cnt = some cnt) (hn : stepsLeft s.cfg cnt s.seq ≤ n) :
    ∃ (k : Nat) (t : State) (r : Response), k ≤ n ∧ run k s = .next t ∧ t.seq.phase = .idle ∧
      t.responses = s.responses ++ [r] := by
  induction n generalizing s with
  | zero =>
    obtain ⟨u, hu⟩ := step_goesOn h
    have := (step_progress h hm hbusy hc hu).fewer
    omega
  | succ n ih =>
    obtain ⟨u, hu⟩ := step_goesOn h
    obtain ⟨hfewer, ⟨hbusy', hc', hr⟩ | ⟨hidle, r, hr⟩⟩ := step_progress h hm hbusy hc hu
    · have hcfg : u.cfg = s.cfg := step_cfg hu
      obtain ⟨k, t, r, hk, ht, hidle, hresp⟩ :=
        ih (h.step_inv hu) (hcfg ▸ hm) hbusy' hc' (by rw [hcfg]; omega)
      exact ⟨k + 1, t, r, Nat.succ_le_succ hk, (run_succ hu).trans ht, hidle, hr ▸ hresp⟩
    · exact ⟨1, u, r, Nat.le_add_left 1 n, run_succ hu, hidle, hr⟩

end

/-- Settles O49: the steps left are within the bound of R154, and each step lowers them until the response. -/
theorem hardenedRequestsFinish : Obligations.HardenedRequestsFinish :=
  fun _ _ h hm hbusy hc => run_to_response h hm hbusy hc (stepsLeft_le_hardenedBound h.ranges)

end Sys2Proof.Safety
